-- ==== Sys2Proof/Word.lean ====
section
/-! DEFINITION. The word types of the block. Every register, field and operand is an unsigned
bit vector of the width spec/00_scope.md R7, R10 give it. -/

namespace Sys2Proof

/-- One bit of a command word or of a register. -/
abbrev Bit := BitVec 1

/-- A buffer byte, the frame configuration, the port selection (00_scope.md R7). -/
abbrev Byte := BitVec 8

/-- A 16-bit value: the baud divisor, a buffer address, a command's result. -/
abbrev Half := BitVec 16

/-- A command word (30_encoding.md R70). -/
abbrev Word64 := BitVec 64

end Sys2Proof
end

