-- ==== Sys2Proof/Config.lean ====
section
/-! DEFINITION. The parameters of the block (00_scope.md R9), the values a model of one block takes
for them, and the free values (draws) of the spec. An OPEN parameter and a draw are constants with
no body: no proof can see their value. -/

namespace Sys2Proof

/-- MISUSE_POLICY (60_exceptions.md R162; D5): what PORTS while enabled and TALK while not
Enabled-Idle do. -/
inductive MisusePolicy where
  /-- The default, this spec's block: the misuse is refused with ILLEGAL_STATE. -/
  | checked
  /-- The reading for the original hardware: the misuse raises FAULT_MISUSE. -/
  | fault
  deriving DecidableEq, Repr

/-- FRAME_FLAG_POS (D9): the bit positions of order, phase and polarity in the frame byte. -/
structure FlagPos where
  order : Nat
  phase : Nat
  pol : Nat
  deriving DecidableEq, Repr

/-- The pin groups of one signal role (41_port_router.md R110): N_r is 2 or 3, and there is one
code per group, so the number of codes is N_r. -/
inductive RoleCodes where
  | two (c0 c1 : Byte)
  | three (c0 c1 c2 : Byte)
  deriving DecidableEq, Repr, Inhabited

/-- An interval of buffer addresses, both ends included (DESIGN CHOICE, log entry 14). -/
structure Region where
  lo : Nat
  hi : Nat
  deriving DecidableEq, Repr, Inhabited

/-- The parameters of the block (00_scope.md R9). BUF_READABLE and BUF_WRITABLE are given as lists
of address intervals (a predicate on 16-bit addresses is always such a list). -/
structure Params where
  /-- MISUSE_POLICY. -/
  misusePolicy : MisusePolicy
  /-- FRAME_FLAG_POS. -/
  flagPos : FlagPos
  /-- MASTER_BIT: the value of MS that means Master. -/
  masterBit : Bit
  /-- N_RST and CODE_RST. -/
  rst : RoleCodes
  /-- N_TSR and CODE_TSR. -/
  tsr : RoleCodes
  /-- N_CLK and CODE_CLK. -/
  clk : RoleCodes
  /-- PISEL_RESET. -/
  piselReset : Byte
  /-- SRC_FREQ, the frequency of TICK in Hz. -/
  srcFreq : Nat
  /-- BUF_READABLE. -/
  readable : List Region
  /-- BUF_WRITABLE. -/
  writable : List Region
  deriving DecidableEq, Repr

/-- The registers a RESET leaves unspecified (70_reset_and_hazards.md R180). -/
structure UnspecifiedRegs where
  br : Half
  con : Byte
  ms : Bit
  sr : Byte
  bitpos : BitVec 3
  baudcnt : Half
  base : Half
  len : Byte
  deriving DecidableEq, Repr, Inhabited

/-- The draw `u` of frame completion (43_transceive.md R139, D16), by draw number (log entry 5). -/
opaque Config.freeByte : Nat → Byte

/-- The draws of a RESET event (70_reset_and_hazards.md R180), by draw number. -/
opaque Config.freeRegs : Nat → UnspecifiedRegs

/-- PISEL_RESET, OPEN (10_state.md R25). -/
opaque Config.piselReset : Byte

/-- SRC_FREQ, OPEN (D30). -/
opaque Config.srcFreq : Nat

/-- BUF_READABLE, OPEN (20_memory.md R52). -/
opaque Config.readable : List Region

/-- BUF_WRITABLE, OPEN (20_memory.md R52). -/
opaque Config.writable : List Region

/-- The bits the MRST role's codes may use, OPEN (41_port_router.md R110). -/
opaque Config.rstBits : Byte

/-- The bits the MTSR role's codes may use, before MRST's are taken out, OPEN. -/
opaque Config.tsrBits : Byte

/-- The bits the SCLK role's codes may use, before the other roles' are taken out, OPEN. -/
opaque Config.clkBits : Byte

/-- Codes of the MRST role before they are kept to its bits, OPEN. -/
opaque Config.rstRaw : RoleCodes

/-- Codes of the MTSR role before they are kept to its bits, OPEN. -/
opaque Config.tsrRaw : RoleCodes

/-- Codes of the SCLK role before they are kept to its bits, OPEN. -/
opaque Config.clkRaw : RoleCodes

/-- The same groups with every code kept to the bits of `mask`. -/
def RoleCodes.within (mask : Byte) : RoleCodes → RoleCodes
  | .two a b => .two (a &&& mask) (b &&& mask)
  | .three a b c => .three (a &&& mask) (b &&& mask) (c &&& mask)

/-- The parameters of the block after reset: the spec's defaults where it gives one (00_scope.md R9),
the OPEN constants elsewhere. The roles' codes are kept to disjoint bits, as R110 requires; every
choice of codes R110 allows is of this form (DESIGN CHOICE, log entries 3, 13). -/
def Config.params : Params where
  misusePolicy := .checked
  flagPos := { order := 4, phase := 5, pol := 6 }
  masterBit := 1#1
  rst := Config.rstRaw.within Config.rstBits
  tsr := Config.tsrRaw.within (Config.tsrBits &&& ~~~Config.rstBits)
  clk := Config.clkRaw.within (Config.clkBits &&& ~~~Config.rstBits &&& ~~~Config.tsrBits)
  piselReset := Config.piselReset
  srcFreq := Config.srcFreq
  readable := Config.readable
  writable := Config.writable

end Sys2Proof
end

