-- ==== Sys2Proof/Syntax.lean ====
section
/-! DEFINITION. The ten commands of the block (30_encoding.md R71), one constructor per row of
spec/opcode_table.json. Every operand has exactly the width of its field (R72-R81). -/

namespace Sys2Proof

/-- A command of the host (30_encoding.md R71). -/
inductive Instr where
  /-- INIT br, con, mode (R72): 16-bit divisor, frame configuration byte, mode bit. -/
  | init (br : Half) (con : Byte) (m : Bit)
  /-- PORTS sel (R73). -/
  | ports (sel : Byte)
  /-- ENABLE (R74). -/
  | enable
  /-- DISABLE (R75). -/
  | disable
  /-- TALK base, len (R76). -/
  | talk (base : Half) (len : Byte)
  /-- BUSY (R77). -/
  | busy
  /-- COUNT (R78). -/
  | count
  /-- ENCODE_BAUD bps, f, mode (R79): both rates are 24 bits wide. -/
  | encodeBaud (bps f : BitVec 24) (m : Bit)
  /-- ENCODE_FRAME width, order, phase, pol, duplex (R80). -/
  | encodeFrame (width : BitVec 4) (order phase pol duplex : Bit)
  /-- SELECT_PORTS rst, tsr, clk (R81): 2-bit pin-group indices. -/
  | selectPorts (rst tsr clk : BitVec 2)
  deriving DecidableEq, Repr

end Sys2Proof
end

