-- ==== Sys2Proof/WellFormed.lean ====
section
/-! DEFINITION. What is well formed: commands (always, by their types), and the parameters of the
block (00_scope.md R9, 41_port_router.md R110). The form of a command word, its reserved bits, is
checked by the decoder (30_encoding.md R82, R84). -/

namespace Sys2Proof

/-- Every command is well formed: each operand's type has exactly the values its field can spell
(30_encoding.md R72-R81). An operand the block refuses (a width of 9, a pin-group index of 3) is
still a well-formed command, answered by a status. -/
def Instr.wellFormed : Instr → Bool
  | .init _ _ _ => true
  | .ports _ => true
  | .enable => true
  | .disable => true
  | .talk _ _ => true
  | .busy => true
  | .count => true
  | .encodeBaud _ _ _ => true
  | .encodeFrame _ _ _ _ _ => true
  | .selectPorts _ _ _ => true

/-- FRAME_FLAG_POS names three distinct positions in bits 3..6 (D9). -/
def FlagPos.wellFormed (p : FlagPos) : Bool :=
  (3 ≤ p.order && p.order ≤ 6) && (3 ≤ p.phase && p.phase ≤ 6) && (3 ≤ p.pol && p.pol ≤ 6)
    && p.order != p.phase && p.order != p.pol && p.phase != p.pol

/-- The codes of a role, in the order of their pin-group indices. -/
def RoleCodes.codes : RoleCodes → List Byte
  | .two c0 c1 => [c0, c1]
  | .three c0 c1 c2 => [c0, c1, c2]

/-- The codes of two roles lie in disjoint bits (41_port_router.md R110). -/
def RoleCodes.disjoint (a b : RoleCodes) : Bool :=
  a.codes.all fun x => b.codes.all fun y => x &&& y == 0#8

/-- The parameters meet the spec's conditions on them: D9 for the flag positions, R110 for the
pin-group codes. -/
def Params.wellFormed (p : Params) : Bool :=
  p.flagPos.wellFormed && p.rst.disjoint p.tsr && p.rst.disjoint p.clk && p.tsr.disjoint p.clk

end Sys2Proof
end

