-- ==== Sys2Proof/Decode.lean ====
section
/-! DEFINITION. The opcode map and field layouts of spec/30_encoding.md R70-R84, read in both
directions: the decoder, total on every word, and after it the encoder. -/

namespace Sys2Proof

/-- The mnemonics of the opcode map (30_encoding.md R71). -/
inductive Opcode where
  | init | ports | enable | disable | talk | busy | count
  | encodeBaud | encodeFrame | selectPorts
  deriving DecidableEq, Repr

/-- OP, the value of `c[7:0]` (30_encoding.md R71). -/
def Opcode.code : Opcode → Byte
  | .init => 0x01#8
  | .ports => 0x02#8
  | .enable => 0x03#8
  | .disable => 0x04#8
  | .talk => 0x05#8
  | .busy => 0x06#8
  | .count => 0x07#8
  | .encodeBaud => 0x10#8
  | .encodeFrame => 0x11#8
  | .selectPorts => 0x12#8

/-- Which row of the opcode map a command belongs to. -/
def Instr.opcode : Instr → Opcode
  | .init _ _ _ => .init
  | .ports _ => .ports
  | .enable => .enable
  | .disable => .disable
  | .talk _ _ => .talk
  | .busy => .busy
  | .count => .count
  | .encodeBaud _ _ _ => .encodeBaud
  | .encodeFrame _ _ _ _ _ => .encodeFrame
  | .selectPorts _ _ _ => .selectPorts

/-- Why a word is no command. Either reason is answered ILLEGAL_COMMAND (30_encoding.md R84; DESIGN
CHOICE to tell them apart, log entry 23). -/
inductive DecodeError where
  /-- `c[7:0]` is not in the opcode map. -/
  | unassignedOpcode
  /-- The opcode is in the map, and a reserved bit is 1 (R82). -/
  | reservedBit
  /-- Fewer than eight bytes were given (byte transport only, 20_memory.md R50). -/
  | shortWord
  deriving DecidableEq, Repr

/-- What a word decodes to. -/
inductive Decoded where
  | command (i : Instr)
  | illegal (why : DecodeError)
  deriving DecidableEq, Repr

/-- The opcode whose code is `b`, if any (30_encoding.md R71). -/
def opcodeOf (b : Byte) : Option Opcode :=
  if b = 0x01#8 then some .init
  else if b = 0x02#8 then some .ports
  else if b = 0x03#8 then some .enable
  else if b = 0x04#8 then some .disable
  else if b = 0x05#8 then some .talk
  else if b = 0x06#8 then some .busy
  else if b = 0x07#8 then some .count
  else if b = 0x10#8 then some .encodeBaud
  else if b = 0x11#8 then some .encodeFrame
  else if b = 0x12#8 then some .selectPorts
  else none

/-- Every bit the layout of the opcode marks reserved is 0 (30_encoding.md R72-R82). -/
def reservedClear (c : Word64) : Opcode → Bool
  | .init => c.extractLsb' 33 31 == 0#31
  | .ports => c.extractLsb' 8 16 == 0#16 && c.extractLsb' 32 32 == 0#32
  | .enable => c.extractLsb' 8 56 == 0#56
  | .disable => c.extractLsb' 8 56 == 0#56
  | .talk => c.extractLsb' 32 32 == 0#32
  | .busy => c.extractLsb' 8 56 == 0#56
  | .count => c.extractLsb' 8 56 == 0#56
  | .encodeBaud => c.extractLsb' 57 7 == 0#7
  | .encodeFrame => c.extractLsb' 16 48 == 0#48
  | .selectPorts => c.extractLsb' 14 50 == 0#50

/-- The operand fields of each opcode (30_encoding.md R72-R81). -/
def operandsOf (c : Word64) : Opcode → Instr
  | .init => .init (c.extractLsb' 8 16) (c.extractLsb' 24 8) (c.extractLsb' 32 1)
  | .ports => .ports (c.extractLsb' 24 8)
  | .enable => .enable
  | .disable => .disable
  | .talk => .talk (c.extractLsb' 8 16) (c.extractLsb' 24 8)
  | .busy => .busy
  | .count => .count
  | .encodeBaud => .encodeBaud (c.extractLsb' 8 24) (c.extractLsb' 32 24) (c.extractLsb' 56 1)
  | .encodeFrame =>
    .encodeFrame (c.extractLsb' 8 4) (c.extractLsb' 12 1) (c.extractLsb' 13 1)
      (c.extractLsb' 14 1) (c.extractLsb' 15 1)
  | .selectPorts => .selectPorts (c.extractLsb' 8 2) (c.extractLsb' 10 2) (c.extractLsb' 12 2)

/-- The decoder: the opcode first, then the reserved bits, then the fields (30_encoding.md R70,
R84). Every word is exactly one command or illegal. -/
def decode (c : Word64) : Decoded :=
  match opcodeOf (c.extractLsb' 0 8) with
  | none => .illegal .unassignedOpcode
  | some op => if reservedClear c op then .command (operandsOf c op) else .illegal .reservedBit

/-- The encoder: the word of a command, written from the layouts of 30_encoding.md R72-R81, most
significant field first. -/
def encode : Instr → Word64
  | .init br con m => 0#31 ++ m ++ con ++ br ++ 0x01#8
  | .ports sel => 0#32 ++ sel ++ 0#16 ++ 0x02#8
  | .enable => 0#56 ++ 0x03#8
  | .disable => 0#56 ++ 0x04#8
  | .talk base len => 0#32 ++ len ++ base ++ 0x05#8
  | .busy => 0#56 ++ 0x06#8
  | .count => 0#56 ++ 0x07#8
  | .encodeBaud bps f m => 0#7 ++ m ++ f ++ bps ++ 0x10#8
  | .encodeFrame width order phase pol duplex =>
    0#48 ++ duplex ++ pol ++ phase ++ order ++ width ++ 0x11#8
  | .selectPorts rst tsr clk => 0#50 ++ clk ++ tsr ++ rst ++ 0x12#8

/-- A row of the opcode table: its mask and its match value (30_encoding.md R82). -/
structure TableRow where
  op : Opcode
  mask : Word64
  value : Word64
  deriving DecidableEq, Repr

/-- spec/opcode_table.json, row by row (30_encoding.md R82). -/
def opcodeTable : List TableRow :=
  [ ⟨.init, 0xFFFFFFFE000000FF#64, 0x01#64⟩,
    ⟨.ports, 0xFFFFFFFF00FFFFFF#64, 0x02#64⟩,
    ⟨.enable, 0xFFFFFFFFFFFFFFFF#64, 0x03#64⟩,
    ⟨.disable, 0xFFFFFFFFFFFFFFFF#64, 0x04#64⟩,
    ⟨.talk, 0xFFFFFFFF000000FF#64, 0x05#64⟩,
    ⟨.busy, 0xFFFFFFFFFFFFFFFF#64, 0x06#64⟩,
    ⟨.count, 0xFFFFFFFFFFFFFFFF#64, 0x07#64⟩,
    ⟨.encodeBaud, 0xFE000000000000FF#64, 0x10#64⟩,
    ⟨.encodeFrame, 0xFFFFFFFFFFFF00FF#64, 0x11#64⟩,
    ⟨.selectPorts, 0xFFFFFFFFFFFFC0FF#64, 0x12#64⟩ ]

/-- The operand fields of an opcode, each by its high and its low bit (30_encoding.md R72-R81): every
other bit above bit 7 is reserved. -/
def Opcode.fields : Opcode → List (Nat × Nat)
  | .init => [(23, 8), (31, 24), (32, 32)]
  | .ports => [(31, 24)]
  | .enable => []
  | .disable => []
  | .talk => [(23, 8), (31, 24)]
  | .busy => []
  | .count => []
  | .encodeBaud => [(31, 8), (55, 32), (56, 56)]
  | .encodeFrame => [(11, 8), (12, 12), (13, 13), (14, 14), (15, 15)]
  | .selectPorts => [(9, 8), (11, 10), (13, 12)]

/-- Bit `k` of a command word lies in an operand field of the opcode. -/
def Opcode.hasField (op : Opcode) (k : Nat) : Bool := op.fields.any fun f => f.2 ≤ k && k ≤ f.1

/-- The word `c` selects the row (30_encoding.md R82, R84). -/
def TableRow.selects (r : TableRow) (c : Word64) : Bool := c &&& r.mask == r.value

/-- A word carried as bytes, byte 0 holding bits [7:0] (20_memory.md R50, D34). -/
def wordOfBytes (bs : List Byte) : Word64 :=
  bs.foldr (fun b w => (w <<< 8) ||| b.setWidth 64) 0#64

/-- The byte transport of a word: `n` bytes, the least significant first (20_memory.md R50). -/
def bytesOfWord : Nat → Word64 → List Byte
  | 0, _ => []
  | n + 1, w => w.setWidth 8 :: bytesOfWord n (w >>> 8)

/-- Decode the command at the head of a byte stream; the rest of the stream is given back. A stream of
fewer than eight bytes is no command (DEDUCED, log entry 21). -/
def decodeBytes (bs : List Byte) : Decoded × List Byte :=
  if bs.length < 8 then (.illegal .shortWord, bs) else (decode (wordOfBytes (bs.take 8)), bs.drop 8)

/-- The bytes of the table's word: its `nbits` low bits, every bit above them 0. -/
def tableBytes (nbits w : Nat) : List Byte := bytesOfWord 8 (BitVec.ofNat 64 (w % 2 ^ nbits))

/-- What the decoder reads from a word numbered as spec/opcode_table.json numbers it. -/
def decodeTableWord (nbits w : Nat) : Option Instr :=
  match (decodeBytes (tableBytes nbits w)).1 with
  | .command i => some i
  | .illegal _ => none

end Sys2Proof
end

