-- ==== Sys2Proof/Machine/State.lean ====
section
/-! DEFINITION. The state of the block (10_state.md R20), the memory it reaches (20_memory.md R51),
the events of its agents (00_scope.md R6), and what the model keeps beside them: the parameters, the
events not yet taken, the outputs of the last step, the trace. -/

namespace Sys2Proof.Machine

/-- PHASE (10_state.md R21). -/
inductive Phase where
  | disabled
  | enabledIdle
  | enabledBusy
  deriving DecidableEq, Repr

/-- The status of a response (30_encoding.md R83). -/
inductive Status where
  | ok
  | invalidParameter
  | illegalState
  | illegalCommand
  deriving DecidableEq, Repr

/-- The response of a command: 2 bits of status and 16 bits of result (30_encoding.md R83). -/
structure Response where
  status : Status
  result : Half
  deriving DecidableEq, Repr

/-- The fault codes (60_exceptions.md R163). -/
inductive FaultCode where
  | memRead
  | memWrite
  | bufferRace
  | misuse
  deriving DecidableEq, Repr

/-- What FAULT records: the code, and the address or opcode (60_exceptions.md R163). An address can
be 2^16 or more (20_memory.md R53), so the info is a number. -/
structure FaultRecord where
  code : FaultCode
  info : Nat
  deriving DecidableEq, Repr

/-- One event of one agent, which one step takes (00_scope.md R6; 60_exceptions.md R168). Host addresses
have 16 bits (DEDUCED, log entry 9). -/
inductive Input where
  /-- The host issues a command word (30_encoding.md R70). -/
  | command (w : Word64)
  /-- The host reads a byte of buffer memory (20_memory.md R58). -/
  | hostRead (a : Half)
  /-- The host writes a byte of buffer memory (20_memory.md R58). -/
  | hostWrite (a : Half) (v : Byte)
  /-- One period of the reference clock; `rx` is the bit the link partner supplies should a cell
  happen (43_transceive.md R136; DESIGN CHOICE, log entry 12). -/
  | tick (rx : Bool)
  /-- One bit cell clocked by the remote master, with its received bit (43_transceive.md R137). -/
  | extCell (rx : Bool)
  /-- RESET (70_reset_and_hazards.md R180). -/
  | reset
  deriving DecidableEq, Repr

/-- The edge order of a cell (10_state.md R23, 43_transceive.md R140): the source's two values of the
clock phase. -/
inductive EdgeOrder where
  /-- CON.PH = 0: shift on the leading edge, latch on the trailing edge. -/
  | shiftLeadingLatchTrailing
  /-- CON.PH = 1: shift on the trailing edge, latch on the leading edge. -/
  | shiftTrailingLatchLeading
  deriving DecidableEq, Repr

/-- The observable events (43_transceive.md R146): CELL, FRAME_DONE and ABORT, each command and its
response, each memory access. -/
inductive Event where
  | command (w : Word64)
  | response (r : Response)
  | engineRead (a : Nat) (v : Byte)
  | engineWrite (a : Nat) (v : Byte)
  | hostRead (a : Half) (v : Byte)
  | hostWrite (a : Half) (v : Byte)
  /-- CELL(i, j, tx, rx) (43_transceive.md R138), with the edge order of the phase setting that
  92_eei_decisions.md D14 has it record (log entry 17). -/
  | cell (i : Byte) (j : BitVec 3) (tx rx : Bool) (edges : EdgeOrder)
  /-- FRAME_DONE(i, v) (43_transceive.md R139). -/
  | frameDone (i : Byte) (v : Byte)
  /-- ABORT(i) (43_transceive.md R134). -/
  | abort (i : Byte)
  deriving DecidableEq, Repr

/-- Buffer memory: the bytes that differ from what an unlisted address reads as, by address. -/
abbrev Memory := List Host.Cell

/-- DESIGN CHOICE (unsafe, log entry 6): what a byte of memory reads as that nothing has written.
The spec gives the memory no contents of its own. -/
def Memory.unlisted : Byte := 0#8

/-- The canonical form, above a lower bound: addresses strictly rising, below 2^16, no entry equal to
what an unlisted address reads as. -/
def Memory.wfFrom : Nat → Memory → Bool
  | _, [] => true
  | lo, (a, v) :: m => lo ≤ a && a < 2 ^ 16 && v != Memory.unlisted && Memory.wfFrom (a + 1) m

/-- The canonical form of memory. -/
def Memory.wf (m : Memory) : Bool := Memory.wfFrom 0 m

/-- The state. Registers of the block first (10_state.md R20), then buffer memory, then the model's
own fields. -/
structure State where
  /-- PHASE (R21). -/
  phase : Phase
  /-- CFGV (R26). -/
  cfgv : Bool
  /-- BR (R22). -/
  br : Half
  /-- CON (R23). -/
  con : Byte
  /-- MS (R24). -/
  ms : Bit
  /-- PISEL (R25). -/
  pisel : Byte
  /-- SR (R27). -/
  sr : Byte
  /-- BITPOS (R28). -/
  bitpos : BitVec 3
  /-- BAUDCNT (R29). -/
  baudcnt : Half
  /-- BASE (R30). -/
  base : Half
  /-- LEN (R30). -/
  len : Byte
  /-- DONE (R31). -/
  done : Byte
  /-- FAULT (R32). -/
  fault : Option FaultRecord
  /-- Buffer memory (20_memory.md R51). -/
  mem : Memory
  /-- The parameters of the block (00_scope.md R9); no step changes them. -/
  params : Params
  /-- The events that have arrived and are not yet taken, oldest first (DESIGN CHOICE, log entry 1). -/
  inputs : List Input
  /-- The response of the step just taken, if it gave one (DESIGN CHOICE, log entry 10). -/
  response : Option Response
  /-- The byte the host read in the step just taken, if it read one. -/
  hostData : Option Byte
  /-- The observable events so far, oldest first (43_transceive.md R146; DESIGN CHOICE, log entry
  11). -/
  trace : List Event
  /-- How many draws have been made: the number of the next free value (DESIGN CHOICE, log entry 5). -/
  draws : Nat
  deriving DecidableEq, Repr

/-- Why a step stops with no state after it: never. The four faults of 60_exceptions.md R163 are
recorded in FAULT, and RESET clears it (R164), so a step that raises one has a next state. No
constructor, so nothing is lost and nothing false can be proved from one (safe). -/
inductive Fault where
  deriving DecidableEq, Repr

/-- Why an instruction has no meaning in the model. -/
inductive Refusal where
  /-- An instruction not modelled yet, by its mnemonic: raised by the arms of Dispatch.exec that have
  no meaning, of which there is none (safe: the model stops where the block goes on). -/
  | notModelled (mnemonic : String)
  deriving DecidableEq, Repr

/-- The state after RESET (10_state.md R20, 70_reset_and_hazards.md R180). DESIGN CHOICE (unsafe, log
entry 4): the eight registers the spec leaves unspecified are 0. PISEL and the OPEN parameters are
constants with no body (log entry 3). Nothing has arrived, been answered or been traced. -/
def State.reset : State where
  phase := .disabled
  cfgv := false
  br := 0#16
  con := 0#8
  ms := 0#1
  pisel := Config.params.piselReset
  sr := 0#8
  bitpos := 0#3
  baudcnt := 0#16
  base := 0#16
  len := 0#8
  done := 0#8
  fault := none
  mem := []
  params := Config.params
  inputs := []
  response := none
  hostData := none
  trace := []
  draws := 0

end Sys2Proof.Machine
end

