-- ==== Sys2Proof/Machine/Operands.lean ====
section
/-! DEFINITION. The operand forms and configuration words: the fields of CON (10_state.md R23), the
mode (R24, 30_encoding.md R88), the baud divisor (R85, 40_config_encoder.md R100), the packed frame
byte (R86), the pin-group codes (R87, 41_port_router.md R110), the buffer predicates
(20_memory.md R52), and the bits of a frame inside the shift register (43_transceive.md R138). -/

namespace Sys2Proof.Machine

/-- The numeric encoding of PHASE; the value 3 never occurs (10_state.md R21). -/
def Phase.code : Phase → BitVec 2
  | .disabled => 0#2
  | .enabledIdle => 1#2
  | .enabledBusy => 2#2

/-- The two status bits (30_encoding.md R83). -/
def Status.code : Status → BitVec 2
  | .ok => 0#2
  | .invalidParameter => 1#2
  | .illegalState => 2#2
  | .illegalCommand => 3#2

/-- The number of a fault code (60_exceptions.md R163). -/
def FaultCode.number : FaultCode → Nat
  | .memRead => 1
  | .memWrite => 2
  | .bufferRace => 3
  | .misuse => 4

/-- The mode bit `m` means Master (10_state.md R24; MASTER_BIT, D11; DEDUCED for ENCODE_BAUD, log entry
15). -/
def isMasterBit (p : Params) (m : Bit) : Bool := m == p.masterBit

/-- CON.W, the frame width minus 1 (10_state.md R23). -/
def conW (con : Byte) : BitVec 3 := con.extractLsb' 0 3

/-- `w = CON.W + 1` (00_scope.md R13). -/
def frameWidth (con : Byte) : Nat := (conW con).toNat + 1

/-- CON.HB: MSB-first (10_state.md R23). -/
def isMsbFirst (p : Params) (con : Byte) : Bool := con.getLsbD p.flagPos.order

/-- CON.PH, the clock phase (10_state.md R23). -/
def clockPhase (p : Params) (con : Byte) : Bool := con.getLsbD p.flagPos.phase

/-- The edge order CON.PH stands for (10_state.md R23, 43_transceive.md R140). -/
def edgeOrder (p : Params) (con : Byte) : EdgeOrder :=
  if clockPhase p con then .shiftTrailingLatchLeading else .shiftLeadingLatchTrailing

/-- CON.PO, the clock polarity (10_state.md R23). -/
def clockPolarity (p : Params) (con : Byte) : Bool := con.getLsbD p.flagPos.pol

/-- CON.HD: half duplex (10_state.md R23). -/
def isHalfDuplex (con : Byte) : Bool := con.getLsbD 7

/-- The reserved bit of the frame byte is 1: the bit of 3..6 that FRAME_FLAG_POS does not name
(10_state.md R23). -/
def reservedBitSet (p : Params) (con : Byte) : Bool :=
  [3, 4, 5, 6].any fun k =>
    con.getLsbD k && k != p.flagPos.order && k != p.flagPos.phase && k != p.flagPos.pol

/-- INIT accepts the frame byte: its width is 2..8 and its reserved bit is 0 (42_lifecycle.md R121). -/
def frameByteLegal (p : Params) (con : Byte) : Bool := conW con != 0#3 && !reservedBitSet p con

/-- The packed frame byte (30_encoding.md R86; at FRAME_FLAG_POS, DEDUCED, log entry 16). -/
def packFrame (p : Params) (width : BitVec 4) (order phase pol duplex : Bit) : Byte :=
  (width.setWidth 8 - 1#8) ||| (order.setWidth 8 <<< p.flagPos.order)
    ||| (phase.setWidth 8 <<< p.flagPos.phase) ||| (pol.setWidth 8 <<< p.flagPos.pol)
    ||| (duplex.setWidth 8 <<< 7)

/-- The baud divisor, or none where ENCODE_BAUD refuses: zero rate, above the mode's ceiling, not
representable in 16 bits (40_config_encoder.md R100, R101). The arithmetic is unbounded. -/
def baudDivisor (master : Bool) (bps f : Nat) : Option Nat :=
  if bps = 0 then none
  else if master = true ∧ f < bps then none
  else if master = false ∧ f < 2 * bps then none
  else if 65535 < f / bps - 1 then none
  else some (f / bps - 1)

/-- The realized bit rate of divisor `d`, in bits per second (40_config_encoder.md R102; DEDUCED, log
entry 24). -/
def realizedRate (p : Params) (d : Half) : ℚ := (p.srcFreq : ℚ) / (d.toNat + 1 : ℚ)

/-- The code of a role's pin group, none when the role has no such group (41_port_router.md R110,
R111). -/
def pinGroupCode : RoleCodes → BitVec 2 → Option Byte
  | .two c0 c1, g => if g = 0#2 then some c0 else if g = 1#2 then some c1 else none
  | .three c0 c1 c2, g =>
    if g = 0#2 then some c0 else if g = 1#2 then some c1 else if g = 2#2 then some c2 else none

/-- The packed port selection, none for an index beyond its role's groups (30_encoding.md R87;
41_port_router.md R111). -/
def portSelection (p : Params) (rst tsr clk : BitVec 2) : Option Byte :=
  match pinGroupCode p.rst rst, pinGroupCode p.tsr tsr, pinGroupCode p.clk clk with
  | some a, some b, some c => some (a ||| b ||| c)
  | _, _, _ => none

/-- The address lies in one of the intervals. -/
def inRegions (rs : List Region) (a : Nat) : Bool := rs.any fun r => r.lo ≤ a && a ≤ r.hi

/-- The engine may read the byte: `a < 2^16` and BUF_READABLE (20_memory.md R52). -/
def engineMayRead (p : Params) (a : Nat) : Bool := a < 2 ^ 16 && inRegions p.readable a

/-- The engine may write the byte: `a < 2^16` and BUF_WRITABLE (20_memory.md R52). -/
def engineMayWrite (p : Params) (a : Nat) : Bool := a < 2 ^ 16 && inRegions p.writable a

/-- The bits `[w-1:0]` of a byte, all ones. -/
def lowMask (w : Nat) : Byte := (1#8 <<< w) - 1#8

/-- `hi[7:w] : lo[w-1:0]`: the low `w` bits of one byte under the upper bits of another. -/
def mergeLow (w : Nat) (hi lo : Byte) : Byte := (hi &&& ~~~lowMask w) ||| (lo &&& lowMask w)

/-- The bit the next cell transmits (43_transceive.md R138). -/
def txBit (p : Params) (con sr : Byte) : Bool :=
  if isMsbFirst p con then sr.getLsbD (frameWidth con - 1) else sr.getLsbD 0

/-- The shift register after one cell: `SR[w-1:0]` moves by one bit in the configured order and takes
`rx` in, `SR[7:w]` stays (43_transceive.md R138). -/
def shiftCell (p : Params) (con sr : Byte) (rx : Bool) : Byte :=
  let w := frameWidth con
  let bit : Byte := (BitVec.ofBool rx).setWidth 8
  if isMsbFirst p con then mergeLow w sr ((sr <<< 1) ||| bit)
  else mergeLow w sr (((sr &&& lowMask w) >>> 1) ||| (bit <<< (w - 1)))

end Sys2Proof.Machine
end

