-- ==== Sys2Proof/Machine/Flags.lean ====
section
/-! DEFINITION. The flags of the block (10_state.md R33-R35): BSY, which is a view of PHASE. The
per-frame completion flag holds no state between steps (R34): it is the FRAME_DONE event of
Ops.frameComplete. No command sets any other flag (R35). -/

namespace Sys2Proof.Machine

/-- BSY (10_state.md R33). -/
def State.bsy (s : State) : Bool := s.phase == .enabledBusy

/-- What BUSY returns: 1 while Enabled-Busy, else 0 (43_transceive.md R131). -/
def State.busyResult (s : State) : Half := if s.bsy then 1#16 else 0#16

/-- The block is in Master mode (10_state.md R24). -/
def State.isMaster (s : State) : Bool := isMasterBit s.params s.ms

/-- The frame width of the current configuration (00_scope.md R13). -/
def State.width (s : State) : Nat := frameWidth s.con

end Sys2Proof.Machine
end

