-- ==== Sys2Proof/Machine/Ops.lean ====
section
/-! DEFINITION. The operations the meanings share: memory, the trace, answering a command, raising a
fault (the block's only exception, 60_exceptions.md R163) and RESET, which is the only way back from
one (R164, 70_reset_and_hazards.md R180), and the engine's procedures (43_transceive.md R133, R134,
R138, R139). -/

namespace Sys2Proof.Machine

/-! ### Memory (20_memory.md R51, R52) -/

/-- The byte at an address. -/
def Memory.read : Memory → Nat → Byte
  | [], _ => Memory.unlisted
  | (k, v) :: m, a => if k = a then v else Memory.read m a

/-- The memory with one byte set, in canonical form. -/
def Memory.write : Memory → Nat → Byte → Memory
  | [], a, v => if v = Memory.unlisted then [] else [(a, v)]
  | (k, b) :: m, a, v =>
    if a < k then (if v = Memory.unlisted then (k, b) :: m else (a, v) :: (k, b) :: m)
    else if a = k then (if v = Memory.unlisted then m else (a, v) :: m)
    else (k, b) :: Memory.write m a v

/-- The byte the buffer memory holds at an address. -/
def State.byteAt (s : State) (a : Nat) : Byte := Memory.read s.mem a

/-! ### The trace and the response (00_scope.md R11) -/

/-- `emit e`: append an observable event to the trace. -/
def State.emit (s : State) (e : Event) : State := { s with trace := s.trace ++ [e] }

/-- The outputs of the last step are gone when a new one begins. -/
def State.clearOutputs (s : State) : State := { s with response := none, hostData := none }

/-- `return (status, result)`: the command's response (30_encoding.md R83). -/
def State.answer (s : State) (st : Status) (result : Half) : State :=
  { s with response := some ⟨st, result⟩, trace := s.trace ++ [.response ⟨st, result⟩] }

/-- A refusal: the status and result 0, no other state changed (60_exceptions.md R160). -/
def State.refuse (s : State) (st : Status) : State := s.answer st 0#16

/-! ### Faults (60_exceptions.md R163) -/

/-- `raise Fault(code, info)` in a step that began at `s`: FAULT is set, nothing else of the step
remains, and no response is given. The command stays in the trace (DESIGN CHOICE, log entry 11). -/
def State.raiseFault (s : State) (f : FaultRecord) : State :=
  { s with fault := some f, response := none, hostData := none }

/-- The end of a step that began at `s`: what it computed, or its fault with the rest discarded. -/
def State.commit (s : State) : Except FaultRecord State → State
  | .ok t => t
  | .error f => s.raiseFault f

/-- Misuse (60_exceptions.md R162; D5): a fault with the opcode, or a refusal with ILLEGAL_STATE, as
MISUSE_POLICY says. -/
def State.misuse (s : State) (op : Opcode) : State :=
  match s.params.misusePolicy with
  | .fault => s.raiseFault ⟨.misuse, op.code.toNat⟩
  | .checked => s.refuse .illegalState

/-! ### The engine's accesses (20_memory.md R52) -/

/-- `MemRead(a, 1)`: the byte, and the state with the access in the trace. -/
def State.memRead (s : State) (a : Nat) : Except FaultRecord (Byte × State) :=
  if engineMayRead s.params a then .ok (s.byteAt a, s.emit (.engineRead a (s.byteAt a)))
  else .error ⟨.memRead, a⟩

/-- `MemWrite(a, 1, v)`. -/
def State.memWrite (s : State) (a : Nat) (v : Byte) : Except FaultRecord State :=
  if engineMayWrite s.params a then
    .ok ({ s with mem := Memory.write s.mem a v }.emit (.engineWrite a v))
  else .error ⟨.memWrite, a⟩

/-! ### The engine's procedures -/

/-- `StartFrame(i)` (43_transceive.md R133). The address is `BASE + i` in unbounded arithmetic
(20_memory.md R53). -/
def State.startFrame (s : State) (i : Nat) : Except FaultRecord State :=
  match s.memRead (s.base.toNat + i) with
  | .error f => .error f
  | .ok (b, t) => .ok { t with sr := b, bitpos := 0#3, baudcnt := t.br }

/-- `Abort()` (43_transceive.md R134): only the event; no register and no memory is written. -/
def State.abort (s : State) : State := s.emit (.abort s.done)

/-- Abort a transfer if one is in flight, then leave the block disabled (42_lifecycle.md R121,
R123). -/
def State.toDisabled (s : State) : State :=
  { (if s.bsy then s.abort else s) with phase := .disabled }

/-- After the write-back and FRAME_DONE: advance the cursor, then end the transfer or load the next
byte (43_transceive.md R139). -/
def State.advance (s : State) : Except FaultRecord State :=
  if s.done + 1#8 = s.len then
    .ok { s with done := s.done + 1#8, bitpos := 0#3, phase := .enabledIdle }
  else { s with done := s.done + 1#8, bitpos := 0#3 }.startFrame (s.done + 1#8).toNat

/-- `u[7:w] : SR[w-1:0]`, the byte FrameComplete writes back (43_transceive.md R139). The upper bits
are a draw (D16), numbered by `draws`; with `w = 8` there are none. -/
def State.writeBack (s : State) : Byte :=
  if s.width = 8 then s.sr else mergeLow s.width (Config.freeByte s.draws) s.sr

/-- `FrameComplete()` (43_transceive.md R139). -/
def State.frameComplete (s : State) : Except FaultRecord State :=
  match { s with draws := s.draws + 1 }.memWrite (s.base.toNat + s.done.toNat) s.writeBack with
  | .error f => .error f
  | .ok t => (t.emit (.frameDone t.done s.writeBack)).advance

/-- The bit exchange of a cell and its CELL event (43_transceive.md R138), which records the edge order
of the phase setting (92_eei_decisions.md D14). -/
def State.shifted (s : State) (rx : Bool) : State :=
  { s with sr := shiftCell s.params s.con s.sr rx }.emit
    (.cell s.done s.bitpos (txBit s.params s.con s.sr) rx (edgeOrder s.params s.con))

/-- `Cell(rx)` (43_transceive.md R138): one bit out, one bit in, and the frame's completion on its
last cell. -/
def State.cell (s : State) (rx : Bool) : Except FaultRecord State :=
  if s.bitpos.toNat = s.width - 1 then (s.shifted rx).frameComplete
  else .ok { s.shifted rx with bitpos := s.bitpos + 1#3 }

/-! ### RESET (70_reset_and_hazards.md R180) -/

/-- RESET: the reset values of 10_state.md R20, the unspecified ones drawn; memory is kept, and a
transfer in flight leaves no ABORT event. -/
def State.applyReset (s : State) : State :=
  let u := Config.freeRegs s.draws
  { s with
    phase := .disabled
    cfgv := false
    br := u.br
    con := u.con
    ms := u.ms
    pisel := s.params.piselReset
    sr := u.sr
    bitpos := u.bitpos
    baudcnt := u.baudcnt
    base := u.base
    len := u.len
    done := 0#8
    fault := none
    draws := s.draws + 1 }

end Sys2Proof.Machine
end

