-- ==== Sys2Proof/Machine/ConfigEncoder.lean ====
section
/-! DEFINITION. The Configuration Encoder commands (spec/40_config_encoder.md). Legal in every phase;
they change no state (R105, D33). -/

namespace Sys2Proof.Machine

/-- ENCODE_BAUD (40_config_encoder.md R100). -/
def execEncodeBaud (bps f : BitVec 24) (m : Bit) (s : State) :
    Host.Outcome State Fault Refusal :=
  .next (match baudDivisor (isMasterBit s.params m) bps.toNat f.toNat with
    | some d => s.answer .ok (BitVec.ofNat 16 d)
    | none => s.refuse .invalidParameter)

/-- ENCODE_FRAME (40_config_encoder.md R103). -/
def execEncodeFrame (width : BitVec 4) (order phase pol duplex : Bit) (s : State) :
    Host.Outcome State Fault Refusal :=
  .next (if width.toNat < 2 ∨ 8 < width.toNat then s.refuse .invalidParameter
    else s.answer .ok ((packFrame s.params width order phase pol duplex).setWidth 16))

end Sys2Proof.Machine
end

