-- ==== Sys2Proof/Machine/Lifecycle.lean ====
section
/-! DEFINITION. The Lifecycle Controller commands (spec/42_lifecycle.md). -/

namespace Sys2Proof.Machine

/-- INIT (42_lifecycle.md R121). Legal in every phase; refused, with nothing written, for a frame
byte out of range. -/
def execInit (br : Half) (con : Byte) (m : Bit) (s : State) : Host.Outcome State Fault Refusal :=
  .next (if frameByteLegal s.params con then
      { s.toDisabled with br := br, con := con, ms := m, cfgv := true }.answer .ok 0#16
    else s.refuse .invalidParameter)

/-- ENABLE (42_lifecycle.md R122). -/
def execEnable (s : State) : Host.Outcome State Fault Refusal :=
  .next (match s.phase with
    | .disabled =>
      if s.cfgv then { s with phase := .enabledIdle }.answer .ok 0#16 else s.refuse .illegalState
    | .enabledIdle => s.answer .ok 0#16
    | .enabledBusy => s.answer .ok 0#16)

/-- DISABLE (42_lifecycle.md R123). -/
def execDisable (s : State) : Host.Outcome State Fault Refusal := .next (s.toDisabled.answer .ok 0#16)

end Sys2Proof.Machine
end

