-- ==== Sys2Proof/Machine/PortRouter.lean ====
section
/-! DEFINITION. The Port Router commands (spec/41_port_router.md). -/

namespace Sys2Proof.Machine

/-- SELECT_PORTS (41_port_router.md R111). Legal in every phase; changes no state. -/
def execSelectPorts (rst tsr clk : BitVec 2) (s : State) : Host.Outcome State Fault Refusal :=
  .next (match portSelection s.params rst tsr clk with
    | some sel => s.answer .ok (sel.setWidth 16)
    | none => s.refuse .invalidParameter)

/-- PORTS (41_port_router.md R112). Writes PISEL in Disabled; anywhere else it is misuse. -/
def execPorts (sel : Byte) (s : State) : Host.Outcome State Fault Refusal :=
  .next (match s.phase with
    | .disabled => { s with pisel := sel }.answer .ok 0#16
    | .enabledIdle => s.misuse .ports
    | .enabledBusy => s.misuse .ports)

end Sys2Proof.Machine
end

