-- ==== Sys2Proof/Machine/Transceive.lean ====
section
/-! DEFINITION. The Transceive Engine commands (spec/43_transceive.md §1). -/

namespace Sys2Proof.Machine

/-- A TALK that starts a transfer latches its operands and loads the first byte
(43_transceive.md R130). -/
def State.startTransfer (s : State) (base : Half) (len : Byte) : Except FaultRecord State :=
  match { s with base := base, len := len, done := 0#8 }.startFrame 0 with
  | .error f => .error f
  | .ok t => .ok ({ t with phase := .enabledBusy }.answer .ok 0#16)

/-- TALK (43_transceive.md R130). -/
def execTalk (base : Half) (len : Byte) (s : State) : Host.Outcome State Fault Refusal :=
  .next (match s.phase with
    | .enabledIdle =>
      if len = 0#8 then s.answer .ok 0#16 else s.commit (s.startTransfer base len)
    | .disabled => s.misuse .talk
    | .enabledBusy => s.misuse .talk)

/-- BUSY (43_transceive.md R131). -/
def execBusy (s : State) : Host.Outcome State Fault Refusal := .next (s.answer .ok s.busyResult)

/-- COUNT (43_transceive.md R132). -/
def execCount (s : State) : Host.Outcome State Fault Refusal :=
  .next (s.answer .ok (s.done.setWidth 16))

end Sys2Proof.Machine
end

