-- ==== Sys2Proof/Machine/Dispatch.lean ====
section
/-! DEFINITION. One arm per command of the opcode map (30_encoding.md R71). -/

namespace Sys2Proof.Machine

def exec (i : Instr) (s : State) : Host.Outcome State Fault Refusal :=
  match i with
  | .init br con m => Sys2Proof.Machine.execInit br con m s
  | .ports sel => Sys2Proof.Machine.execPorts sel s
  | .enable => Sys2Proof.Machine.execEnable s
  | .disable => Sys2Proof.Machine.execDisable s
  | .talk base len => Sys2Proof.Machine.execTalk base len s
  | .busy => Sys2Proof.Machine.execBusy s
  | .count => Sys2Proof.Machine.execCount s
  | .encodeBaud bps f m => Sys2Proof.Machine.execEncodeBaud bps f m s
  | .encodeFrame width order phase pol duplex => Sys2Proof.Machine.execEncodeFrame width order phase pol duplex s
  | .selectPorts rst tsr clk => Sys2Proof.Machine.execSelectPorts rst tsr clk s

end Sys2Proof.Machine
end

