-- ==== Sys2Proof/Machine/Events.lean ====
section
/-! DEFINITION. The events that are not commands: TICK and EXT_CELL (43_transceive.md R136, R137), the
host's memory accesses (20_memory.md R58), RESET (70_reset_and_hazards.md R180). -/

namespace Sys2Proof.Machine

/-- TICK (43_transceive.md R136): in Master mode, while Enabled-Busy, it counts BAUDCNT down or, at
0, reloads it and performs a cell. -/
def onTick (rx : Bool) (s : State) : State :=
  if s.bsy && s.isMaster then
    if s.baudcnt = 0#16 then s.commit ({ s with baudcnt := s.br }.cell rx)
    else { s with baudcnt := s.baudcnt - 1#16 }
  else s

/-- EXT_CELL (43_transceive.md R137): in Slave mode, while Enabled-Busy, one cell. -/
def onExtCell (rx : Bool) (s : State) : State :=
  if s.bsy && !s.isMaster then s.commit (s.cell rx) else s

/-- The address lies in the buffer of the transfer in flight (20_memory.md R58). A faulted block
checks host accesses no longer (60_exceptions.md R164; DEDUCED, log entry 8). -/
def State.races (s : State) (a : Half) : Bool :=
  s.fault.isNone && s.bsy && s.base.toNat ≤ a.toNat && a.toNat < s.base.toNat + s.len.toNat

/-- A host read (20_memory.md R58). BUF_READABLE binds the engine only (DEDUCED, log entry 9). -/
def onHostRead (a : Half) (s : State) : State :=
  if s.races a then s.raiseFault ⟨.bufferRace, a.toNat⟩
  else { s with hostData := some (s.byteAt a.toNat) }.emit (.hostRead a (s.byteAt a.toNat))

/-- A host write (20_memory.md R58). BUF_WRITABLE binds the engine only (DEDUCED, log entry 9). -/
def onHostWrite (a : Half) (v : Byte) (s : State) : State :=
  if s.races a then s.raiseFault ⟨.bufferRace, a.toNat⟩
  else { s with mem := Memory.write s.mem a.toNat v }.emit (.hostWrite a v)

/-- RESET (70_reset_and_hazards.md R180). -/
def onReset (s : State) : State := s.applyReset

/-- An illegal word is answered and changes no state (30_encoding.md R84). -/
def onIllegal (s : State) : State := s.refuse .illegalCommand

/-- How a command word enters a step: the host's command is traced. -/
def State.accept (s : State) (w : Word64) : State := s.emit (.command w)

/-- The instruction a step fetches: the decoded command word. -/
def fetch (w : Word64) : Decoded := decode w

/-- The event at the head of the inputs, taken out; the outputs of the step before are gone. -/
def State.takeInput (s : State) (rest : List Input) : State := { s with inputs := rest }.clearOutputs

/-- The word of the table's instruction, as the host delivers it (20_memory.md R50). -/
def tableWord (nbits w : Nat) : Word64 := wordOfBytes (tableBytes nbits w)

/-- The word at the head of the inputs. -/
def State.placeCommand (s : State) (w : Word64) : State := { s with inputs := .command w :: s.inputs }

end Sys2Proof.Machine
end

