-- ==== Sys2Proof/Machine/Step.lean ====
section
/-! DEFINITION. One step of the model: one event of one agent (00_scope.md R6; 60_exceptions.md R168),
the first that has arrived. -/

namespace Sys2Proof.Machine

/-- A command word: an illegal one is answered, any other runs (30_encoding.md R84). -/
def stepCommand (w : Word64) (s : State) : Host.Outcome State Fault Refusal :=
  match fetch w with
  | .command i => exec i (s.accept w)
  | .illegal _ => .next (onIllegal (s.accept w))

/-- One event on a block with no fault, and on a faulted one: there a command, TICK or EXT_CELL has no
step, memory is not checked against the block, and RESET clears the fault (60_exceptions.md R164;
DEDUCED, log entry 8). -/
def stepInput (e : Input) (s : State) : Host.Outcome State Fault Refusal :=
  match e with
  | .command w => if s.fault.isSome then .next s else stepCommand w s
  | .hostRead a => .next (onHostRead a s)
  | .hostWrite a v => .next (onHostWrite a v s)
  | .tick rx => if s.fault.isSome then .next s else .next (onTick rx s)
  | .extCell rx => if s.fault.isSome then .next s else .next (onExtCell rx s)
  | .reset => .next (onReset s)

/-- One step: the first event that has arrived. With none, nothing happens (DESIGN CHOICE, log entry
1). -/
def step (s : State) : Host.Outcome State Fault Refusal :=
  match s.inputs with
  | [] => .next s
  | e :: rest => stepInput e (s.takeInput rest)

/-- The state with the instruction placed where the next step fetches one: its word, laid out byte by
byte, at the head of the events that have arrived (DESIGN CHOICE, log entry 2). -/
def State.withFetchWord (s : State) (nbits w : Nat) : State := s.placeCommand (tableWord nbits w)

end Sys2Proof.Machine
end

