-- ==== Sys2Proof/Machine/Assembler.lean ====
section
/-! DEFINITION. The assembler syntax of spec/30_encoding.md R90-R93: one command a line, the
pseudo-operands BAUD() and FRAME(), and the script lines TICK, EXT_CELL and RESET. The lexical details
are a DESIGN CHOICE (log entry 20). -/

namespace Sys2Proof.Machine

/-- The named operand values (30_encoding.md R90). -/
inductive Keyword where
  | master | slave | lsb | msb | full | half
  deriving DecidableEq, Repr

/-- An operand as written (30_encoding.md R90-R92). -/
inductive AsmOperand where
  | num (n : Nat)
  | name (k : Keyword)
  /-- BAUD(bps). -/
  | baud (bps : Nat)
  /-- FRAME(width, order, phase, pol, duplex). -/
  | frame (width : Nat) (order : Keyword) (phase pol : Nat) (duplex : Keyword)
  deriving DecidableEq, Repr

/-- A line of a test script: a command, or an input event (30_encoding.md R90, R93). -/
inductive ScriptLine where
  | empty
  | command (i : Instr)
  | tick (n : Nat)
  | extCell (b : Bool)
  | reset
  deriving DecidableEq, Repr

/-- Why a line is rejected. -/
inductive AsmError where
  | unknownMnemonic
  /-- The operands do not have the form of the command. -/
  | operandForm
  /-- An operand does not fit its field, or BAUD() or FRAME() is out of range. -/
  | operandRange
  /-- The text is no list of words, commas and parentheses. -/
  | lexical
  deriving DecidableEq, Repr

/-- What a line assembles to. -/
inductive Assembled where
  | line (l : ScriptLine)
  | rejected (why : AsmError)
  deriving DecidableEq, Repr

/-! ### Operands -/

/-- A number that fits a field of `w` bits. One that does not rejects its line and is not cut down
(DESIGN CHOICE, log entry 20): R90 is silent, and the spec settles only the arguments of BAUD() and
FRAME() (D42) and the 24-bit operands (93_implementation_defined.md U15). -/
def fitField (w n : Nat) : Option (BitVec w) := if n < 2 ^ w then some (BitVec.ofNat w n) else none

/-- MASTER or SLAVE (30_encoding.md R88, R90). -/
def modeOperand (p : Params) : AsmOperand → Option Bit
  | .name .master => some p.masterBit
  | .name .slave => some (~~~p.masterBit)
  | _ => none

/-- LSB or MSB (30_encoding.md R90). -/
def orderOperand : AsmOperand → Option Bit
  | .name .lsb => some 0#1
  | .name .msb => some 1#1
  | _ => none

/-- FULL or HALF (30_encoding.md R90). -/
def duplexOperand : AsmOperand → Option Bit
  | .name .full => some 0#1
  | .name .half => some 1#1
  | _ => none

/-- BAUD(bps): the divisor at 12,000,000 Hz in Master mode, under the checks of ENCODE_BAUD
(30_encoding.md R91). -/
def baudOperand (bps : Nat) : Option Nat := baudDivisor true bps 12000000

/-- FRAME(...): the packed byte, rejected for a width outside 2..8 (30_encoding.md R92). -/
def frameOperand (p : Params) (width : Nat) (order : Keyword) (phase pol : Nat) (duplex : Keyword) :
    Option Nat :=
  if width < 2 ∨ 8 < width then none
  else
    match orderOperand (.name order), fitField 1 phase, fitField 1 pol, duplexOperand (.name duplex) with
    | some o, some ph, some po, some d => some (packFrame p (BitVec.ofNat 4 width) o ph po d).toNat
    | _, _, _, _ => none

/-- The number an operand stands for. -/
def numberOperand (p : Params) : AsmOperand → Option Nat
  | .num n => some n
  | .name _ => none
  | .baud bps => baudOperand bps
  | .frame w o ph po d => frameOperand p w o ph po d

/-- A numeric operand of a field of `w` bits. BAUD() and FRAME() may stand in any numeric field of a
command (DESIGN CHOICE, log entry 20). -/
def fieldOperand (p : Params) (w : Nat) (o : AsmOperand) : Option (BitVec w) :=
  match numberOperand p o with
  | some n => fitField w n
  | none => none

/-- A line whose operands all fit. -/
def assembled : Option Instr → Assembled
  | some i => .line (.command i)
  | none => .rejected .operandRange

/-- Assemble a command from its operands, in the order of 30_encoding.md R90. Another number of operands
is rejected (DESIGN CHOICE, log entry 20). -/
def assembleCommand (p : Params) : Opcode → List AsmOperand → Assembled
  | .init, [br, con, m] => assembled do
    return .init (← fieldOperand p 16 br) (← fieldOperand p 8 con) (← modeOperand p m)
  | .ports, [sel] => assembled do return .ports (← fieldOperand p 8 sel)
  | .enable, [] => assembled (some .enable)
  | .disable, [] => assembled (some .disable)
  | .talk, [base, len] => assembled do
    return .talk (← fieldOperand p 16 base) (← fieldOperand p 8 len)
  | .busy, [] => assembled (some .busy)
  | .count, [] => assembled (some .count)
  | .encodeBaud, [bps, f, m] => assembled do
    return .encodeBaud (← fieldOperand p 24 bps) (← fieldOperand p 24 f) (← modeOperand p m)
  | .encodeFrame, [width, order, phase, pol, duplex] => assembled do
    return .encodeFrame (← fieldOperand p 4 width) (← orderOperand order) (← fieldOperand p 1 phase)
      (← fieldOperand p 1 pol) (← duplexOperand duplex)
  | .selectPorts, [rst, tsr, clk] => assembled do
    return .selectPorts (← fieldOperand p 2 rst) (← fieldOperand p 2 tsr) (← fieldOperand p 2 clk)
  | _, _ => .rejected .operandForm

/-! ### Text -/

/-- The words and marks of a line. -/
inductive Token where
  | word (cs : List Char)
  | lparen
  | rparen
  | comma
  /-- A character no line holds. -/
  | other (c : Char)
  deriving DecidableEq, Repr

/-- The word gathered so far (in reverse), if any. -/
def flushWord : List Char → List Token
  | [] => []
  | c :: cs => [.word (c :: cs).reverse]

/-- The tokens of a line; `;` starts a comment (30_encoding.md R90). Spaces, tabs and carriage returns
separate words, and a character of no token rejects its line (DESIGN CHOICE, log entry 20). -/
def tokens : List Char → List Char → List Token
  | [], acc => flushWord acc
  | c :: cs, acc =>
    if c = ';' then flushWord acc
    else if c.isAlphanum || c == '_' then tokens cs (c :: acc)
    else if c = ',' then flushWord acc ++ .comma :: tokens cs []
    else if c = '(' then flushWord acc ++ .lparen :: tokens cs []
    else if c = ')' then flushWord acc ++ .rparen :: tokens cs []
    else if c = ' ' ∨ c = '\t' ∨ c = '\r' then flushWord acc ++ tokens cs []
    else flushWord acc ++ .other c :: tokens cs []

/-- The value of a digit in any base up to 16. -/
def digitValue (c : Char) : Nat :=
  if c.isDigit then c.toNat - 48
  else if 'a' ≤ c ∧ c ≤ 'f' then c.toNat - 87
  else if 'A' ≤ c ∧ c ≤ 'F' then c.toNat - 55
  else 16

/-- A number in the given base, most significant digit first. -/
def digits (base : Nat) : List Char → Nat → Option Nat
  | [], acc => some acc
  | c :: cs, acc => if digitValue c < base then digits base cs (acc * base + digitValue c) else none

/-- A decimal or `0x` hexadecimal number (30_encoding.md R90). The `x` is small, the digits of either
case, leading zeros are allowed (DESIGN CHOICE, log entry 20). -/
def readNumber : List Char → Option Nat
  | [] => none
  | ['0', 'x'] => none
  | '0' :: 'x' :: cs => digits 16 cs 0
  | c :: cs => digits 10 (c :: cs) 0

/-- A named operand value. -/
def readKeyword (cs : List Char) : Option Keyword :=
  if cs = "MASTER".toList then some .master
  else if cs = "SLAVE".toList then some .slave
  else if cs = "LSB".toList then some .lsb
  else if cs = "MSB".toList then some .msb
  else if cs = "FULL".toList then some .full
  else if cs = "HALF".toList then some .half
  else none

/-- The opcode of a mnemonic (30_encoding.md R71). -/
def readMnemonic (cs : List Char) : Option Opcode :=
  if cs = "INIT".toList then some .init
  else if cs = "PORTS".toList then some .ports
  else if cs = "ENABLE".toList then some .enable
  else if cs = "DISABLE".toList then some .disable
  else if cs = "TALK".toList then some .talk
  else if cs = "BUSY".toList then some .busy
  else if cs = "COUNT".toList then some .count
  else if cs = "ENCODE_BAUD".toList then some .encodeBaud
  else if cs = "ENCODE_FRAME".toList then some .encodeFrame
  else if cs = "SELECT_PORTS".toList then some .selectPorts
  else none

/-- An operand that is one word. -/
def readWord (cs : List Char) : Option AsmOperand :=
  match readNumber cs with
  | some n => some (.num n)
  | none => (readKeyword cs).map .name

/-- One operand at the head of the tokens, and the tokens after it. -/
def readOperand : List Token → Option (AsmOperand × List Token)
  | .word f :: .lparen :: .word a :: .rparen :: rest => do
    if f = "BAUD".toList then return (.baud (← readNumber a), rest) else none
  | .word f :: .lparen :: .word w :: .comma :: .word o :: .comma :: .word ph :: .comma :: .word po
      :: .comma :: .word d :: .rparen :: rest => do
    if f = "FRAME".toList then
      return (.frame (← readNumber w) (← readKeyword o) (← readNumber ph) (← readNumber po)
        (← readKeyword d), rest)
    else none
  | .word cs :: rest => do return (← readWord cs, rest)
  | _ => none

/-- Operands separated by commas, at most `fuel` of them. A comma with no operand before or after it, and
two operands with none between, are rejected (DESIGN CHOICE, log entry 20). -/
def readOperands : Nat → List Token → Option (List AsmOperand)
  | _, [] => some []
  | 0, _ => none
  | fuel + 1, ts =>
    match readOperand ts with
    | some (o, []) => some [o]
    | some (o, .comma :: t :: rest) => (readOperands fuel (t :: rest)).map (o :: ·)
    | _ => none

/-- Assemble a script line's input event (30_encoding.md R93). The `n` of TICK is any number, 0 too; the
`n` and the bit of EXT_CELL are plain numbers, not BAUD() or FRAME(), and a bit other than 0 and 1 is
rejected (DESIGN CHOICE, log entry 20). -/
def readEvent (m : List Char) (ops : List AsmOperand) : Option ScriptLine :=
  match ops with
  | [.num n] =>
    if m = "TICK".toList then some (.tick n)
    else if m = "EXT_CELL".toList ∧ n < 2 then some (.extCell (n == 1))
    else none
  | [] => if m = "RESET".toList then some .reset else none
  | _ => none

/-- Assemble one line of text (30_encoding.md R90, R93). -/
def assembleLine (p : Params) (text : List Char) : Assembled :=
  match tokens text [] with
  | [] => .line .empty
  | .word m :: rest =>
    match readOperands rest.length rest with
    | none => .rejected .lexical
    | some ops =>
      match readMnemonic m with
      | some op => assembleCommand p op ops
      | none =>
        match readEvent m ops with
        | some l => .line l
        | none => .rejected .unknownMnemonic
  | _ => .rejected .lexical

/-- The events a line delivers; the link partner supplies the received bit of each TICK
(30_encoding.md R93). -/
def ScriptLine.inputs (partner : Nat → Bool) : ScriptLine → List Input
  | .empty => []
  | .command i => [.command (encode i)]
  | .tick n => (List.range n).map fun k => .tick (partner k)
  | .extCell b => [.extCell b]
  | .reset => [.reset]

end Sys2Proof.Machine
end

