-- ==== Sys2Proof/Machine/Lines.lean ====
section
/-! DEFINITION. The serial lines and clock edges as views of the configuration (60_exceptions.md
R174-R176, 43_transceive.md R140) and the routing PISEL stands for (41_port_router.md R113). No rule
of the engine reads any of them: R141 and R113 say so, and the engine's definitions do not. The edge
order of a cell is in its CELL event; the lines and the idle level are views only (DESIGN CHOICE, log
entry 17). -/

namespace Sys2Proof.Machine

/-- The two data lines (60_exceptions.md R174). -/
inductive DataLine where
  /-- RX in Master mode, TX in Slave mode. -/
  | mrst
  /-- TX in Master mode, RX in Slave mode. -/
  | mtsr
  deriving DecidableEq, Repr

/-- Where the received bit of a cell comes from (60_exceptions.md R175). -/
inductive RxSource where
  | line (l : DataLine)
  /-- The one shared line of half duplex; which routed role carries it is not in the source. -/
  | shared
  deriving DecidableEq, Repr

/-- Who drives SCLK (60_exceptions.md R175). -/
inductive ClockRole where
  | output
  | input
  deriving DecidableEq, Repr

/-- The edges of one cell's clock period (43_transceive.md R140). -/
inductive ClockEdge where
  /-- The edge that leaves the idle level. -/
  | leading
  /-- The edge that returns to the idle level. -/
  | trailing
  deriving DecidableEq, Repr

/-- The direction the host set for the half-duplex pin (60_exceptions.md R176). -/
inductive PinDirection where
  | drive
  | receive
  deriving DecidableEq, Repr

/-- The line the transmitted bits go to (60_exceptions.md R175). -/
def State.txLine (s : State) : DataLine := if s.isMaster then .mtsr else .mrst

/-- Where the received bits come from (60_exceptions.md R175). -/
def State.rxSource (s : State) : RxSource :=
  if isHalfDuplex s.con then .shared
  else if s.isMaster then .line .mrst else .line .mtsr

/-- SCLK is an output in Master mode and an input in Slave mode (60_exceptions.md R175). -/
def State.clockRole (s : State) : ClockRole := if s.isMaster then .output else .input

/-- The idle level of SCLK: CON.PO (43_transceive.md R140). -/
def State.idleClockLevel (s : State) : Bool := clockPolarity s.params s.con

/-- The edge at which a bit is driven (43_transceive.md R140). -/
def State.shiftEdge (s : State) : ClockEdge :=
  match edgeOrder s.params s.con with
  | .shiftLeadingLatchTrailing => .leading
  | .shiftTrailingLatchLeading => .trailing

/-- The edge at which the receive line is sampled (43_transceive.md R140). -/
def State.latchEdge (s : State) : ClockEdge :=
  match edgeOrder s.params s.con with
  | .shiftLeadingLatchTrailing => .trailing
  | .shiftTrailingLatchLeading => .leading

/-- The level of the half-duplex shared line in a cell (60_exceptions.md R176): the block's own bit
when it alone drives, the partner's when the partner alone drives, a draw otherwise. This is the
environment's law; the block takes `rx` as given. -/
def sharedLineLevel (dir : PinDirection) (partnerDrives : Bool) (tx partnerBit free : Bool) : Bool :=
  match dir, partnerDrives with
  | .drive, false => tx
  | .receive, true => partnerBit
  | .drive, true => free
  | .receive, false => free

/-- PISEL is the packed selection of the three pin groups (41_port_router.md R113). Of a PISEL that
is the selection of no groups, the spec says nothing. -/
def State.routes (s : State) (rst tsr clk : BitVec 2) : Prop :=
  portSelection s.params rst tsr clk = some s.pisel

end Sys2Proof.Machine
end

