-- ==== Sys2Proof/Safety.lean ====
section
/-! DEFINITION. The terms the statements use: the invariant of the block, how a transfer starts, ends
and is aborted (60_exceptions.md R178), which events a step can take, and when two states differ in
dead registers only (70_reset_and_hazards.md R181). -/

namespace Sys2Proof.Machine

/-- The invariant every step keeps. -/
structure State.Inv (s : State) : Prop where
  /-- Memory is in canonical form. -/
  mem_wf : Memory.wf s.mem = true
  /-- The parameters meet D9 and 41_port_router.md R110. -/
  params_wf : s.params.wellFormed = true
  /-- A configuration that INIT accepted is in CON once CFGV is 1 (10_state.md R23, R26). -/
  con_legal : s.cfgv = true → frameByteLegal s.params s.con = true
  /-- Only an initialised block is enabled (42_lifecycle.md R122). -/
  enabled_cfgv : s.phase ≠ .disabled → s.cfgv = true
  /-- DONE ≤ LEN (10_state.md R31). -/
  done_le : s.done.toNat ≤ s.len.toNat
  /-- DONE < LEN while Enabled-Busy (10_state.md R31). -/
  busy_done : s.phase = .enabledBusy → s.done.toNat < s.len.toNat
  /-- BITPOS < w while Enabled-Busy (10_state.md R28). -/
  busy_bitpos : s.phase = .enabledBusy → s.bitpos.toNat < s.width
  /-- BAUDCNT counts down from BR while Enabled-Busy (10_state.md R29). -/
  busy_baudcnt : s.phase = .enabledBusy → s.baudcnt.toNat ≤ s.br.toNat

/-- An event that moves the engine (60_exceptions.md R168). -/
def Input.isEngine : Input → Bool
  | .tick _ => true
  | .extCell _ => true
  | _ => false

/-- The command an event carries, if it is one. -/
def Input.instr? : Input → Option Instr
  | .command w =>
    match decode w with
    | .command i => some i
    | .illegal _ => none
  | _ => none

/-- The values of the state in which a transfer ends well (60_exceptions.md R178). That it is the end of
one is a matter of its history: TransferEndedWell. -/
def State.AtGoodEnd (s : State) : Prop := s.phase = .enabledIdle ∧ s.fault = none ∧ s.done = s.len

/-- The step from `s` to `u` is the TALK of a transfer (43_transceive.md R130): it is taken in
Enabled-Idle and the block is Enabled-Busy after it. -/
structure State.StartsTransfer (s u : State) : Prop where
  stepped : step s = .next u
  idle : s.phase = .enabledIdle
  busy : u.phase = .enabledBusy
  talk : ∃ e rest base len, s.inputs = e :: rest ∧ e.instr? = some (.talk base len)

/-- From `u` on the block is Enabled-Busy in each of the first `k` states, `u` the first of them. -/
def State.InFlightFor (u : State) (k : Nat) : Prop :=
  ∀ j, j < k → ∃ v, core.run j u = .next v ∧ v.phase = .enabledBusy

/-- A transfer has *ended well* (60_exceptions.md R178): its TALK is the step of `s`, and `t`, `k` events
later, is the first state after that TALK with R178's values. Each state between is Enabled-Busy, so
none is such a state, and no DISABLE, accepted INIT, RESET or other accepted TALK has come between
(DEDUCED, log entry 25). -/
def TransferEndedWell (s : State) (k : Nat) (t : State) : Prop :=
  ∃ u, s.StartsTransfer u ∧ u.InFlightFor k ∧ core.run k u = .next t ∧ t.AtGoodEnd

/-- A transfer has *been aborted* (60_exceptions.md R178): its TALK is the step of `s`, it was in flight
up to the `k`-th event after, and the next one, a DISABLE or an INIT, is the step in which PHASE became
Disabled, with DONE < LEN. A RESET aborts no transfer in this sense (DEDUCED, log entry 25). -/
def TransferAborted (s : State) (k : Nat) (t : State) : Prop :=
  ∃ u v, s.StartsTransfer u ∧ u.InFlightFor (k + 1) ∧ core.run k u = .next v ∧ step v = .next t
    ∧ (∃ e rest, v.inputs = e :: rest
      ∧ (e.instr? = some .disable ∨ ∃ br con m, e.instr? = some (.init br con m)))
    ∧ t.phase = .disabled ∧ t.done.toNat < t.len.toNat

/-- Every byte of the buffer may be read and written by the engine (20_memory.md R52). -/
def State.BufferAdmitted (s : State) : Prop :=
  ∀ i, i < s.len.toNat → engineMayRead s.params (s.base.toNat + i) = true
    ∧ engineMayWrite s.params (s.base.toNat + i) = true

/-- A transfer has just been started by TALK: no cell has happened (43_transceive.md R130, R133). -/
structure State.AtTransferStart (s : State) : Prop where
  busy : s.phase = .enabledBusy
  no_fault : s.fault = none
  len_pos : s.len ≠ 0#8
  done_zero : s.done = 0#8
  bitpos_zero : s.bitpos = 0#3
  baudcnt_br : s.baudcnt = s.br
  /-- The first byte is in the shift register. -/
  loaded : s.sr = s.byteAt s.base.toNat
  admitted : s.BufferAdmitted

/-- The place of the `j`-th received (and transmitted) bit of a frame in its byte: from bit w-1 down
when MSB-first, from bit 0 up when LSB-first (43_transceive.md R138). -/
def State.bitPlace (s : State) (j : Nat) : Nat :=
  if isMsbFirst s.params s.con then s.width - 1 - j else j

/-- The events `l` that have arrived are just what the transfer needs in the mode the block is in:
`n·w·(BR + 1)` TICKs in Master mode, `n·w` external cells in Slave mode (43_transceive.md R145,
R137). Each carries the bit the partner offers. -/
def State.TransferEvents (s : State) (l : List Bool) (rest : List Input) : Prop :=
  (s.isMaster = true ∧ s.inputs = l.map Input.tick ++ rest
      ∧ l.length = s.len.toNat * s.width * (s.br.toNat + 1))
    ∨ (s.isMaster = false ∧ s.inputs = l.map Input.extCell ++ rest
      ∧ l.length = s.len.toNat * s.width)

/-- How many events a cell takes: `BR + 1` TICKs in Master mode, one external cell in Slave mode. -/
def State.eventsPerCell (s : State) : Nat := if s.isMaster then s.br.toNat + 1 else 1

/-- The number of the event of the transfer at which cell `c` happens, from 0 (43_transceive.md
R145). -/
def State.eventOfCell (s : State) (c : Nat) : Nat := (c + 1) * s.eventsPerCell - 1

/-- An event that leaves a transfer in flight alone: an illegal word, a command but DISABLE, an accepted
INIT and, under MISUSE_POLICY = fault, PORTS and TALK; a host access outside the buffer; the clock
event of the other mode (42_lifecycle.md R120, 20_memory.md R58, 43_transceive.md R136, R137). -/
def State.Undisturbed (s : State) (e : Input) : Prop :=
  match e with
  | .command w =>
    match decode w with
    | .illegal _ => True
    | .command i =>
      match i with
      | .init _ con _ => frameByteLegal s.params con = false
      | .ports _ => s.params.misusePolicy = .checked
      | .enable => True
      | .disable => False
      | .talk _ _ => s.params.misusePolicy = .checked
      | .busy => True
      | .count => True
      | .encodeBaud _ _ _ => True
      | .encodeFrame _ _ _ _ _ => True
      | .selectPorts _ _ _ => True
  | .hostRead a => ¬ (s.base.toNat ≤ a.toNat ∧ a.toNat < s.base.toNat + s.len.toNat)
  | .hostWrite a _ => ¬ (s.base.toNat ≤ a.toNat ∧ a.toNat < s.base.toNat + s.len.toNat)
  | .tick _ => s.isMaster = false
  | .extCell _ => s.isMaster = true
  | .reset => False

/-- The index and the byte of a FRAME_DONE event. -/
def Event.frameDone? : Event → Option (Byte × Byte)
  | .frameDone i v => some (i, v)
  | _ => none

/-- An access of the engine to memory. -/
def Event.isEngineAccess : Event → Bool
  | .engineRead _ _ => true
  | .engineWrite _ _ => true
  | _ => false

/-- A CELL event. -/
def Event.isCell : Event → Bool
  | .cell _ _ _ _ _ => true
  | _ => false

/-- The event with no word of the clock phase: a CELL event as at CON.PH = 0. -/
def Event.withoutEdges : Event → Event
  | .cell i j tx rx _ => .cell i j tx rx .shiftLeadingLatchTrailing
  | e => e

/-- Two states agree in all that a rule can read: they may differ in BR, CON and MS before INIT has
written them, and in SR, BITPOS, BAUDCNT, BASE and LEN while no transfer is in flight
(70_reset_and_hazards.md R181). -/
structure State.AgreeLive (s t : State) : Prop where
  phase : s.phase = t.phase
  cfgv : s.cfgv = t.cfgv
  pisel : s.pisel = t.pisel
  done : s.done = t.done
  fault : s.fault = t.fault
  mem : s.mem = t.mem
  params : s.params = t.params
  inputs : s.inputs = t.inputs
  response : s.response = t.response
  hostData : s.hostData = t.hostData
  trace : s.trace = t.trace
  draws : s.draws = t.draws
  config : s.cfgv = true → s.br = t.br ∧ s.con = t.con ∧ s.ms = t.ms
  engine : s.phase = .enabledBusy →
    s.sr = t.sr ∧ s.bitpos = t.bitpos ∧ s.baudcnt = t.baudcnt ∧ s.base = t.base ∧ s.len = t.len

end Sys2Proof.Machine
end

