-- ==== Sys2Proof/Certificates/Slice0/Obligations.lean ====
section
/-! DEFINITION. The statements for the provers, in the order of the spec's files: encoding, one step,
the commands, the engine, memory, reset, invariants. -/

open Sys2Proof Sys2Proof.Machine

/-! ### Encoding (spec/30_encoding.md) -/

/-- A few command words of spec/95_test_vectors.md decode to the commands they stand for. -/
def Obligations.SampleWordsDecode : Prop :=
  decode 0x0000000107000B01#64 = .command (.init 11#16 0x07#8 1#1)
    ∧ decode 0x0000000025000002#64 = .command (.ports 0x25#8)
    ∧ decode 0x0000000002010005#64 = .command (.talk 0x0100#16 2#8)
    ∧ decode 0x01B71B000F424010#64 = .command (.encodeBaud 1000000#24 12000000#24 1#1)
    ∧ decode 0x0000000000008811#64 = .command (.encodeFrame 8#4 0#1 0#1 0#1 1#1)
    ∧ decode 0x0000000000002512#64 = .command (.selectPorts 1#2 1#2 2#2)

/-- Decoding an encoded command gives it back, for every command and every operand value
(30_encoding.md R72-R81). -/
def Obligations.DecodeEncodeRoundTrip : Prop :=
  ∀ i : Instr, decode (encode i) = .command i

/-- A word that decodes to a command is the encoding of that command: no two words mean the same. -/
def Obligations.EncodeDecodeRoundTrip : Prop :=
  ∀ (c : Word64) (i : Instr), decode c = .command i → encode i = c

/-- The opcode table (30_encoding.md R82): the mask of a row has a 1 in bits 7..0 and in every
reserved bit and nowhere else, the match is the opcode, and a word selects the opcode exactly when
`c & mask = match`. -/
def Obligations.TableSelectsDecodedOpcode : Prop :=
  ∀ r ∈ opcodeTable,
    r.value = r.op.code.setWidth 64
    ∧ (∀ k, k < 64 → r.mask.getLsbD k = (decide (k < 8) || !r.op.hasField k))
    ∧ ∀ c : Word64, r.selects c = true ↔ ∃ i, decode c = .command i ∧ i.opcode = r.op

/-- Every word is exactly one command or illegal, and an illegal word is answered
(ILLEGAL_COMMAND, 0) with no state changed (30_encoding.md R84). -/
def Obligations.EveryWordOneCommandOrIllegal : Prop :=
  (∀ c : Word64,
    (∃ r ∈ opcodeTable, r.selects c = true ∧ (∀ r' ∈ opcodeTable, r'.selects c = true → r' = r)
      ∧ ∃ i, decode c = .command i ∧ i.opcode = r.op)
    ∨ ((∀ r ∈ opcodeTable, r.selects c = false) ∧ ∃ why, decode c = .illegal why))
  ∧ ∀ (s : State) (c : Word64) (rest : List Input),
    s.fault = none → s.inputs = .command c :: rest → (∀ r ∈ opcodeTable, r.selects c = false) →
    step s = .next { s with
      inputs := rest
      response := some ⟨.illegalCommand, 0#16⟩
      hostData := none
      trace := s.trace ++ [.command c, .response ⟨.illegalCommand, 0#16⟩] }

/-! ### One step (spec/00_scope.md R12, spec/60_exceptions.md) -/

/-- A step on a command word runs the decoded instruction: the word is taken out of the inputs, the
outputs of the step before are gone, and the word is traced (log entries 1, 10, 11). -/
def Obligations.StepRunsDecodedCommand : Prop :=
  ∀ (s : State) (w : Word64) (i : Instr) (rest : List Input),
    s.fault = none → s.inputs = .command w :: rest → decode w = .command i →
    step s = exec i { s with
      inputs := rest, response := none, hostData := none, trace := s.trace ++ [.command w] }

/-- Any other step takes exactly one event, the first that has arrived (60_exceptions.md R168); with
none, nothing happens. The queue and the idle step are the model's choice (log entry 1). -/
def Obligations.StepTakesFirstEvent : Prop :=
  ∀ (s : State) (rest : List Input), s.fault = none →
    let taken : State := { s with inputs := rest, response := none, hostData := none }
    (s.inputs = [] → step s = .next s)
    ∧ (∀ rx, s.inputs = .tick rx :: rest → step s = .next (onTick rx taken))
    ∧ (∀ rx, s.inputs = .extCell rx :: rest → step s = .next (onExtCell rx taken))
    ∧ (∀ a, s.inputs = .hostRead a :: rest → step s = .next (onHostRead a taken))
    ∧ (∀ a v, s.inputs = .hostWrite a v :: rest → step s = .next (onHostWrite a v taken))
    ∧ (s.inputs = .reset :: rest → step s = .next (onReset taken))

/-- A faulted block takes no step (60_exceptions.md R164): no command is answered, TICK and EXT_CELL
change nothing, host accesses are not checked against the block, and only RESET clears FAULT. A
faulted state is no successful end. That the event is taken and the access performed is the model's
reading (log entry 8). -/
def Obligations.FaultedBlockTakesNoStep : Prop :=
  ∀ (s : State) (f : FaultRecord) (rest : List Input), s.fault = some f →
    let taken : State := { s with inputs := rest, response := none, hostData := none }
    (∀ w, s.inputs = .command w :: rest → step s = .next taken)
    ∧ (∀ rx, s.inputs = .tick rx :: rest → step s = .next taken)
    ∧ (∀ rx, s.inputs = .extCell rx :: rest → step s = .next taken)
    ∧ (∀ a, s.inputs = .hostRead a :: rest → step s = .next { taken with
        hostData := some (s.byteAt a.toNat)
        trace := s.trace ++ [.hostRead a (s.byteAt a.toNat)] })
    ∧ (∀ a v, s.inputs = .hostWrite a v :: rest → step s = .next { taken with
        mem := Memory.write s.mem a.toNat v
        trace := s.trace ++ [.hostWrite a v] })
    ∧ (s.inputs = .reset :: rest → ∃ t, step s = .next t ∧ t.fault = none)
    ∧ ¬ s.AtGoodEnd

/-- FAULT is sticky: once set, no step but RESET changes it (10_state.md R32). -/
def Obligations.FaultStickyUntilReset : Prop :=
  State.reset.fault = none
  ∧ ∀ (s t : State) (f : FaultRecord), s.fault = some f → step s = .next t →
    (s.inputs.head? = some .reset → t.fault = none)
    ∧ (s.inputs.head? ≠ some .reset → t.fault = some f)

/-- A step that raises a fault changes FAULT and nothing else of the block, gives no response, and the
fault has one of the four causes of 60_exceptions.md R163, with that cause's info. That the step is a
next state (log entry 7), and that the issued command stays in the trace while the step's other events
are dropped (log entry 11), is the model's choice. -/
def Obligations.FaultingStepChangesOnlyFault : Prop :=
  (FaultCode.memRead.number = 1 ∧ FaultCode.memWrite.number = 2 ∧ FaultCode.bufferRace.number = 3
    ∧ FaultCode.misuse.number = 4)
  ∧ ∀ (s t : State) (e : Input) (rest : List Input) (f : FaultRecord),
    s.fault = none → s.inputs = e :: rest → step s = .next t → t.fault = some f →
    (t = { s with
        inputs := rest
        response := none
        hostData := none
        fault := some f
        trace := s.trace ++ (match e with | .command w => [.command w] | _ => []) })
    ∧ (match f.code with
      | .memRead =>
        engineMayRead s.params f.info = false
          ∧ ((∃ base len, e.instr? = some (.talk base len) ∧ f.info = base.toNat)
            ∨ (e.isEngine = true ∧ s.phase = .enabledBusy
              ∧ f.info = s.base.toNat + (s.done + 1#8).toNat))
      | .memWrite =>
        engineMayWrite s.params f.info = false ∧ e.isEngine = true ∧ s.phase = .enabledBusy
          ∧ f.info = s.base.toNat + s.done.toNat
      | .bufferRace =>
        s.phase = .enabledBusy ∧ s.base.toNat ≤ f.info ∧ f.info < s.base.toNat + s.len.toNat
          ∧ ∃ a : Half, f.info = a.toNat ∧ (e = .hostRead a ∨ ∃ v, e = .hostWrite a v)
      | .misuse =>
        s.params.misusePolicy = .fault
          ∧ ((s.phase ≠ .disabled ∧ f.info = 0x02 ∧ ∃ sel, e.instr? = some (.ports sel))
            ∨ (s.phase ≠ .enabledIdle ∧ f.info = 0x05
              ∧ ∃ base len, e.instr? = some (.talk base len))))

/-- Every step of every state has a next state: no event stops the model (00_scope.md R12; a fault is
a next state with FAULT set, log entry 7). -/
def Obligations.StepAlwaysAnswers : Prop :=
  ∀ s : State, ∃ t, step s = .next t

/-- Every command of every state has a next state, in the step it is issued in, and either gives a
response or raises a fault (30_encoding.md R83, 70_reset_and_hazards.md R192). -/
def Obligations.EveryCommandAnswersOrFaults : Prop :=
  ∀ (i : Instr) (s : State), s.fault = none →
    ∃ t, exec i s = .next t
      ∧ ((t.fault = none ∧ ∃ r, t.response = some r ∧ t.trace.getLast? = some (.response r))
        ∨ (t.fault.isSome = true ∧ t.response = none))

/-- An error status changes no state and has result 0 (60_exceptions.md R160). -/
def Obligations.ErrorStatusChangesNothing : Prop :=
  ∀ (i : Instr) (s t : State) (r : Response),
    exec i s = .next t → t.response = some r → r.status ≠ .ok →
    r.result = 0#16
      ∧ t = { s with response := some r, trace := s.trace ++ [.response r] }

/-- No command raises an error that the table of 60_exceptions.md R160 does not list for it (R161). -/
def Obligations.NoUnlistedErrors : Prop :=
  ∀ (i : Instr) (s t : State) (r : Response),
    exec i s = .next t → t.response = some r →
    r.status ≠ .illegalCommand
    ∧ (r.status = .invalidParameter →
        i.opcode = .init ∨ i.opcode = .encodeBaud ∨ i.opcode = .encodeFrame
          ∨ i.opcode = .selectPorts)
    ∧ (r.status = .illegalState → i.opcode = .ports ∨ i.opcode = .talk ∨ i.opcode = .enable)

/-! ### Configuration Encoder (spec/40_config_encoder.md) -/

/-- ENCODE_BAUD (R100): completes in every state with the divisor or INVALID_PARAMETER; an accepted
Slave divisor is at least 1; at 12 MHz in Master mode the accepted rates are 184 to 12,000,000; and
the worked example. That `m` means Master where it is MASTER_BIT (1 by default, as R100 writes it) is
the model's reading (log entry 15). -/
def Obligations.EncodeBaudResult : Prop :=
  (∀ (bps f : BitVec 24) (m : Bit) (s : State),
    let r : Response :=
      if bps = 0#24 then ⟨.invalidParameter, 0#16⟩
      else if m = s.params.masterBit ∧ bps.toNat > f.toNat then ⟨.invalidParameter, 0#16⟩
      else if m ≠ s.params.masterBit ∧ 2 * bps.toNat > f.toNat then ⟨.invalidParameter, 0#16⟩
      else if f.toNat / bps.toNat - 1 > 65535 then ⟨.invalidParameter, 0#16⟩
      else ⟨.ok, BitVec.ofNat 16 (f.toNat / bps.toNat - 1)⟩
    exec (.encodeBaud bps f m) s =
        .next { s with response := some r, trace := s.trace ++ [.response r] }
      ∧ (m ≠ s.params.masterBit → r.status = .ok → 1 ≤ r.result.toNat)
      ∧ (m = s.params.masterBit → f = 12000000#24 →
          (r.status = .ok ↔ 184 ≤ bps.toNat ∧ bps.toNat ≤ 12000000)))
  ∧ baudDivisor true 1000000 12000000 = some 11

/-- The realized bit rate SRC_FREQ / (d + 1) is at least the requested one, and equal to it exactly
when the rate divides the frequency (40_config_encoder.md R102). -/
def Obligations.RealizedRateAtLeastRequested : Prop :=
  ∀ (p : Params) (master : Bool) (bps d : Nat), baudDivisor master bps p.srcFreq = some d →
    (bps : ℚ) ≤ realizedRate p (BitVec.ofNat 16 d)
    ∧ (realizedRate p (BitVec.ofNat 16 d) = (bps : ℚ) ↔ bps ∣ p.srcFreq)

/-- ENCODE_FRAME (R103): completes in every state with the packed byte, zero-extended, or
INVALID_PARAMETER for a width outside 2..8. The second part is the byte at the default FRAME_FLAG_POS,
4, 5, 6, as R103 writes it; the packing at other positions is the model's reading (log entry 16). -/
def Obligations.EncodeFrameResult : Prop :=
  (∀ (width : BitVec 4) (order phase pol duplex : Bit) (s : State),
    let r : Response :=
      if width.toNat < 2 ∨ width.toNat > 8 then ⟨.invalidParameter, 0#16⟩
      else ⟨.ok, (packFrame s.params width order phase pol duplex).setWidth 16⟩
    exec (.encodeFrame width order phase pol duplex) s =
      .next { s with response := some r, trace := s.trace ++ [.response r] })
  ∧ ∀ (p : Params) (width : BitVec 4) (order phase pol duplex : Bit),
    p.flagPos = ⟨4, 5, 6⟩ → 2 ≤ width.toNat → width.toNat ≤ 8 →
    (packFrame p width order phase pol duplex).toNat
        = (width.toNat - 1) + 16 * order.toNat + 32 * phase.toNat + 64 * pol.toNat
          + 128 * duplex.toNat
      ∧ (packFrame p width order phase pol duplex).getLsbD 3 = false

/-- Frame packing laws (R104): every accepted input can be read back from its byte, so the packing is
injective, and INIT accepts the byte. R104 writes the positions 4, 5, 6; the laws at every other
FRAME_FLAG_POS are the model's reading (log entry 16). -/
def Obligations.FrameByteFields : Prop :=
  ∀ (p : Params) (width : BitVec 4) (order phase pol duplex : Bit),
    p.wellFormed = true → 2 ≤ width.toNat → width.toNat ≤ 8 →
    let v := packFrame p width order phase pol duplex
    frameWidth v = width.toNat
      ∧ reservedBitSet p v = false
      ∧ v.getLsbD p.flagPos.order = order.getLsbD 0
      ∧ v.getLsbD p.flagPos.phase = phase.getLsbD 0
      ∧ v.getLsbD p.flagPos.pol = pol.getLsbD 0
      ∧ v.getLsbD 7 = duplex.getLsbD 0
      ∧ frameByteLegal p v = true

/-- The encoder commands write no register and no memory (R105; for SELECT_PORTS 41_port_router.md R111),
and INIT accepts every frame byte that ENCODE_FRAME returns (R104, R105). That the byte is packed at
FRAME_FLAG_POS where that is not the default is the model's reading (log entry 16). -/
def Obligations.EncodersLeaveBlockAlone : Prop :=
  (∀ (i : Instr) (s : State),
    i.opcode = .encodeBaud ∨ i.opcode = .encodeFrame ∨ i.opcode = .selectPorts →
    ∃ t, exec i s = .next t ∧ t = { s with response := t.response, trace := t.trace })
  ∧ ∀ (width : BitVec 4) (order phase pol duplex : Bit) (br : Half) (m : Bit) (s t : State)
      (v : Half),
    s.params.wellFormed = true →
    exec (.encodeFrame width order phase pol duplex) s = .next t → t.response = some ⟨.ok, v⟩ →
    ∃ u, exec (.init br (v.setWidth 8) m) t = .next u ∧ u.response = some ⟨.ok, 0#16⟩

/-! ### Port Router (spec/41_port_router.md) -/

/-- SELECT_PORTS (R111): completes in every state with the OR of the three codes, or
INVALID_PARAMETER for an index beyond its role's groups, so always for index 3. -/
def Obligations.SelectPortsResult : Prop :=
  ∀ (rst tsr clk : BitVec 2) (s : State),
    let r : Response :=
      if rst.toNat ≥ s.params.rst.codes.length ∨ tsr.toNat ≥ s.params.tsr.codes.length
          ∨ clk.toNat ≥ s.params.clk.codes.length then ⟨.invalidParameter, 0#16⟩
      else ⟨.ok, ((s.params.rst.codes.getD rst.toNat 0#8) ||| (s.params.tsr.codes.getD tsr.toNat 0#8)
        ||| (s.params.clk.codes.getD clk.toNat 0#8)).setWidth 16⟩
    exec (.selectPorts rst tsr clk) s =
        .next { s with response := some r, trace := s.trace ++ [.response r] }
      ∧ (rst = 3#2 ∨ tsr = 3#2 ∨ clk = 3#2 → r.status = .invalidParameter)

/-- The codes of different roles have no bit in common and each role has 2 or 3 groups (R110), in every
well-formed choice of the parameters and in the one of the block after reset. -/
def Obligations.PinGroupCodesDisjoint : Prop :=
  State.reset.params.wellFormed = true
  ∧ ∀ p : Params, p.wellFormed = true →
    (∀ a ∈ p.rst.codes, ∀ b ∈ p.tsr.codes, a &&& b = 0#8)
    ∧ (∀ a ∈ p.rst.codes, ∀ c ∈ p.clk.codes, a &&& c = 0#8)
    ∧ (∀ b ∈ p.tsr.codes, ∀ c ∈ p.clk.codes, b &&& c = 0#8)
    ∧ ∀ r ∈ [p.rst, p.tsr, p.clk], r.codes.length = 2 ∨ r.codes.length = 3

/-- PORTS (R112): in Disabled it writes PISEL and nothing else, whatever the byte; while enabled it is
refused with ILLEGAL_STATE and nothing changed, or under MISUSE_POLICY = fault raises FAULT_MISUSE. -/
def Obligations.PortsResult : Prop :=
  ∀ (sel : Byte) (s : State),
    exec (.ports sel) s = .next (
      if s.phase = .disabled then
        { s with
          pisel := sel
          response := some ⟨.ok, 0#16⟩
          trace := s.trace ++ [.response ⟨.ok, 0#16⟩] }
      else if s.params.misusePolicy = .fault then
        { s with fault := some ⟨.misuse, 0x02⟩, response := none, hostData := none }
      else
        { s with
          response := some ⟨.illegalState, 0#16⟩
          trace := s.trace ++ [.response ⟨.illegalState, 0#16⟩] })

/-! ### Lifecycle (spec/42_lifecycle.md) -/

/-- INIT (R121): refused, with nothing written, for a width field of 0 or a reserved bit of 1; else it
aborts a transfer, writes BR, CON, MS and CFGV, and leaves the block Disabled. Nothing else changes.
At the default FRAME_FLAG_POS the reserved bit is bit 3. -/
def Obligations.InitResult : Prop :=
  (∀ (br : Half) (con : Byte) (m : Bit) (s : State),
    exec (.init br con m) s = .next (
      if con.extractLsb' 0 3 = 0#3 ∨ reservedBitSet s.params con = true then
        { s with
          response := some ⟨.invalidParameter, 0#16⟩
          trace := s.trace ++ [.response ⟨.invalidParameter, 0#16⟩] }
      else
        { s with
          phase := .disabled
          br := br
          con := con
          ms := m
          cfgv := true
          response := some ⟨.ok, 0#16⟩
          trace := s.trace ++ (if s.phase = .enabledBusy then [.abort s.done] else [])
            ++ [.response ⟨.ok, 0#16⟩] }))
  ∧ ∀ (p : Params) (con : Byte), p.flagPos = ⟨4, 5, 6⟩ → reservedBitSet p con = con.getLsbD 3

/-- ENABLE (R122): Disabled to Enabled-Idle when CFGV = 1, ILLEGAL_STATE when CFGV = 0, and no change
when already enabled. -/
def Obligations.EnableResult : Prop :=
  ∀ s : State,
    let r : Response :=
      if s.phase = .disabled ∧ s.cfgv = false then ⟨.illegalState, 0#16⟩ else ⟨.ok, 0#16⟩
    exec .enable s = .next { s with
      phase := if s.phase = .disabled ∧ s.cfgv = true then .enabledIdle else s.phase
      response := some r
      trace := s.trace ++ [.response r] }

/-- DISABLE (R123): from any phase to Disabled; a transfer in flight is aborted with its event only:
registers, DONE and every byte of memory stay as they are. -/
def Obligations.DisableResult : Prop :=
  ∀ s : State,
    exec .disable s = .next { s with
      phase := .disabled
      response := some ⟨.ok, 0#16⟩
      trace := s.trace ++ (if s.phase = .enabledBusy then [.abort s.done] else [])
        ++ [.response ⟨.ok, 0#16⟩] }

/-- ENABLE, DISABLE and INIT are idempotent (R124): issued twice they reach the same state and the
same last response; only the trace is longer, by the second response. -/
def Obligations.LifecycleIdempotent : Prop :=
  ∀ (i : Instr) (s t : State),
    i.opcode = .enable ∨ i.opcode = .disable ∨ i.opcode = .init →
    exec i s = .next t →
    ∃ r, t.response = some r
      ∧ exec i t = .next { t with response := some r, trace := t.trace ++ [.response r] }

/-- A transfer in flight that DISABLE or an accepted INIT ends (R134) is an aborted transfer and never a
success (60_exceptions.md R178): fewer bytes than its length are counted, memory and the engine's
registers stay as they are, and the event tells the index of the discarded frame. The first part is of
every state in flight, the second of a transfer from its TALK on; in the third, a RESET ends a transfer
neither well nor as an aborted one (the model's reading of R178, log entry 25). -/
def Obligations.AbortIsNoSuccess : Prop :=
  (∀ (s : State) (i : Instr), s.Inv → s.phase = .enabledBusy →
    (i = .disable ∨ ∃ br con m, i = .init br con m ∧ frameByteLegal s.params con = true) →
    ∃ t, exec i s = .next t ∧ t.phase = .disabled ∧ t.done.toNat < t.len.toNat ∧ ¬ t.AtGoodEnd
      ∧ t.mem = s.mem ∧ t.done = s.done ∧ t.sr = s.sr ∧ t.bitpos = s.bitpos
      ∧ t.baudcnt = s.baudcnt ∧ t.base = s.base ∧ t.len = s.len
      ∧ t.trace = s.trace ++ [.abort s.done, .response ⟨.ok, 0#16⟩])
  ∧ (∀ (s u v : State) (k : Nat) (w : Word64) (i : Instr) (rest : List Input),
    s.StartsTransfer u → u.InFlightFor (k + 1) → core.run k u = .next v → v.Inv → v.fault = none →
    v.inputs = .command w :: rest → decode w = .command i →
    (i = .disable ∨ ∃ br con m, i = .init br con m ∧ frameByteLegal v.params con = true) →
    ∃ t, step v = .next t ∧ TransferAborted s k t ∧ ∀ j x, ¬ TransferEndedWell s j x)
  ∧ ∀ (s u v : State) (k : Nat) (rest : List Input),
    s.StartsTransfer u → u.InFlightFor (k + 1) → core.run k u = .next v →
    v.inputs = .reset :: rest →
    ∀ j x, ¬ TransferEndedWell s j x ∧ ¬ TransferAborted s j x

/-- PHASE moves only as the table of R120 says, over every event of a block without a fault whose step
raises none, and the commands of its refused cells are answered ILLEGAL_STATE. -/
def Obligations.PhaseMovesByTable : Prop :=
  ∀ (s t : State) (e : Input) (rest : List Input),
    s.fault = none → s.inputs = e :: rest → step s = .next t → t.fault = none →
    (match e with
    | .command w =>
      match decode w with
      | .command (.init _ con _) =>
        t.phase = if frameByteLegal s.params con then .disabled else s.phase
      | .command (.ports _) =>
        t.phase = s.phase ∧ (s.phase ≠ .disabled → t.response = some ⟨.illegalState, 0#16⟩)
      | .command .enable =>
        t.phase = (if s.phase = .disabled ∧ s.cfgv = true then .enabledIdle else s.phase)
          ∧ (s.phase = .disabled → s.cfgv = false → t.response = some ⟨.illegalState, 0#16⟩)
      | .command .disable => t.phase = .disabled
      | .command (.talk _ len) =>
        t.phase = (if s.phase = .enabledIdle ∧ len ≠ 0#8 then .enabledBusy else s.phase)
          ∧ (s.phase ≠ .enabledIdle → t.response = some ⟨.illegalState, 0#16⟩)
      | _ => t.phase = s.phase
    | .tick _ =>
      t.phase = if s.phase = .enabledBusy ∧ s.done ≠ s.len ∧ t.done = s.len then .enabledIdle
        else s.phase
    | .extCell _ =>
      t.phase = if s.phase = .enabledBusy ∧ s.done ≠ s.len ∧ t.done = s.len then .enabledIdle
        else s.phase
    | .reset => t.phase = .disabled
    | .hostRead _ => t.phase = s.phase
    | .hostWrite _ _ => t.phase = s.phase)

/-- Refused and read-only commands, host accesses outside the buffer and the other mode's clock event
do not disturb a transfer in flight (R120, R130, R136, R137, 41_port_router.md R112, 20_memory.md
R58): no register changes, and no byte of the buffer. -/
def Obligations.OtherEventsLeaveTransferAlone : Prop :=
  ∀ (s t : State) (e : Input) (rest : List Input),
    s.phase = .enabledBusy → s.fault = none → s.inputs = e :: rest → s.Undisturbed e →
    step s = .next t →
    t = { s with
      inputs := rest, mem := t.mem, response := t.response, hostData := t.hostData, trace := t.trace }
    ∧ ∀ i, i < s.len.toNat → t.byteAt (s.base.toNat + i) = s.byteAt (s.base.toNat + i)

/-- Configuration changes only through INIT, which leaves the block Disabled, and RESET: BR, CON and
MS are constant in every other step, in particular during a transfer (R125). -/
def Obligations.ConfigurationChangesOnlyByInit : Prop :=
  ∀ s t : State, step s = .next t →
    (t.br = s.br ∧ t.con = s.con ∧ t.ms = s.ms)
    ∨ (t.phase = .disabled ∧ ∃ e rest, s.inputs = e :: rest
        ∧ (e = .reset ∨ ∃ br con m, e.instr? = some (.init br con m)))

/-- Who writes CFGV and PISEL (10_state.md R25, R26): only INIT sets CFGV and only RESET clears it,
and PISEL is written only by PORTS in Disabled and by RESET. -/
def Obligations.RoutingAndValidityWriters : Prop :=
  ∀ s t : State, step s = .next t →
    (t.cfgv = s.cfgv ∨ (t.cfgv = true ∧ ∃ e rest br con m, s.inputs = e :: rest
          ∧ e.instr? = some (.init br con m))
      ∨ (t.cfgv = false ∧ s.inputs.head? = some .reset))
    ∧ (t.pisel = s.pisel
      ∨ (s.phase = .disabled ∧ ∃ e rest, s.inputs = e :: rest
          ∧ e.instr? = some (.ports t.pisel))
      ∨ (t.pisel = s.params.piselReset ∧ s.inputs.head? = some .reset))
    ∧ t.params = s.params

/-! ### Transceive Engine (spec/43_transceive.md) -/

/-- TALK (R130): misuse unless Enabled-Idle, whatever the length; no effect for length 0; else, when
the first byte is readable, it latches BASE and LEN, clears DONE, loads the byte and the counters and
is Enabled-Busy; when that byte is not readable, FAULT_MEM_READ and nothing else. -/
def Obligations.TalkResult : Prop :=
  ∀ (base : Half) (len : Byte) (s : State),
    exec (.talk base len) s = .next (
      if s.phase ≠ .enabledIdle then
        if s.params.misusePolicy = .fault then
          { s with fault := some ⟨.misuse, 0x05⟩, response := none, hostData := none }
        else
          { s with
            response := some ⟨.illegalState, 0#16⟩
            trace := s.trace ++ [.response ⟨.illegalState, 0#16⟩] }
      else if len = 0#8 then
        { s with
          response := some ⟨.ok, 0#16⟩
          trace := s.trace ++ [.response ⟨.ok, 0#16⟩] }
      else if engineMayRead s.params base.toNat = true then
        { s with
          phase := .enabledBusy
          base := base
          len := len
          done := 0#8
          sr := s.byteAt base.toNat
          bitpos := 0#3
          baudcnt := s.br
          response := some ⟨.ok, 0#16⟩
          trace := s.trace ++ [.engineRead base.toNat (s.byteAt base.toNat), .response ⟨.ok, 0#16⟩] }
      else
        { s with fault := some ⟨.memRead, base.toNat⟩, response := none, hostData := none })

/-- BUSY (R131) returns 1 exactly while Enabled-Busy, in every phase, and changes nothing. -/
def Obligations.BusyResult : Prop :=
  ∀ s : State,
    let r : Response := ⟨.ok, if s.phase = .enabledBusy then 1#16 else 0#16⟩
    exec .busy s = .next { s with response := some r, trace := s.trace ++ [.response r] }

/-- COUNT (R132) returns DONE, in every phase, and changes nothing. -/
def Obligations.CountResult : Prop :=
  ∀ s : State,
    ∃ t r, exec .count s = .next t ∧ r.status = .ok ∧ r.result.toNat = s.done.toNat
      ∧ t = { s with response := some r, trace := s.trace ++ [.response r] }

/-- TICK (R136): nothing unless Enabled-Busy in Master mode; counts BAUDCNT down; at 0 reloads it with
BR and performs a cell, the whole step discarded should the cell fault. -/
def Obligations.TickLaw : Prop :=
  ∀ (s : State) (rx : Bool),
    (s.phase ≠ .enabledBusy ∨ s.isMaster = false → onTick rx s = s)
    ∧ (s.phase = .enabledBusy → s.isMaster = true → s.baudcnt ≠ 0#16 →
        onTick rx s = { s with baudcnt := s.baudcnt - 1#16 })
    ∧ (s.phase = .enabledBusy → s.isMaster = true → s.baudcnt = 0#16 →
        (∀ t, { s with baudcnt := s.br }.cell rx = .ok t → onTick rx s = t)
        ∧ (∀ f, { s with baudcnt := s.br }.cell rx = .error f →
            onTick rx s = { s with fault := some f, response := none, hostData := none }))

/-- EXT_CELL (R137): nothing unless Enabled-Busy in Slave mode; there, one cell, the whole step
discarded should the cell fault. BR and BAUDCNT play no part in it but the reload of a frame. -/
def Obligations.ExtCellLaw : Prop :=
  ∀ (s : State) (rx : Bool),
    (s.phase ≠ .enabledBusy ∨ s.isMaster = true → onExtCell rx s = s)
    ∧ (s.phase = .enabledBusy → s.isMaster = false →
        (∀ t, s.cell rx = .ok t → onExtCell rx s = t)
        ∧ (∀ f, s.cell rx = .error f →
            onExtCell rx s = { s with fault := some f, response := none, hostData := none }))

/-- The bits of one cell (R138): MSB-first sends bit w-1, moves the low w bits up and takes `rx` in at
bit 0; LSB-first sends bit 0, moves them down and takes `rx` in at bit w-1; bits 7..w stay. -/
def Obligations.ShiftRegisterBits : Prop :=
  ∀ (p : Params) (con sr : Byte) (rx : Bool) (k : Nat), k < 8 →
    (isMsbFirst p con = true →
      txBit p con sr = sr.getLsbD (frameWidth con - 1)
      ∧ (shiftCell p con sr rx).getLsbD k =
        if k ≥ frameWidth con then sr.getLsbD k else if k = 0 then rx else sr.getLsbD (k - 1))
    ∧ (isMsbFirst p con = false →
      txBit p con sr = sr.getLsbD 0
      ∧ (shiftCell p con sr rx).getLsbD k =
        if k ≥ frameWidth con then sr.getLsbD k
        else if k = frameWidth con - 1 then rx else sr.getLsbD (k + 1))

/-- A cell that is not the last of its frame (R138) moves the shift register and BITPOS, records
CELL with the edge order of the phase setting (D14; the model's choice of form, log entry 17), and
changes nothing else. -/
def Obligations.CellInsideFrame : Prop :=
  ∀ (s : State) (rx : Bool), s.bitpos.toNat + 1 < s.width →
    ∃ t, s.cell rx = .ok t
      ∧ t.bitpos.toNat = s.bitpos.toNat + 1
      ∧ t = { s with
        sr := shiftCell s.params s.con s.sr rx
        bitpos := t.bitpos
        trace := s.trace ++
          [.cell s.done s.bitpos (txBit s.params s.con s.sr) rx (edgeOrder s.params s.con)] }

/-- The completion of a frame (R139), in the step of its last cell (R138). The byte written back has the
received bits in its low w bits (its upper bits are a draw); no other byte of memory changes; DONE
advances. After the last byte the block is Enabled-Idle; before it, the next byte is loaded, BITPOS
is 0 and BAUDCNT is BR. A write or a reload that is not admitted is the cell's fault. The cell's CELL
event has the edge order of the phase setting (92_eei_decisions.md D14; the model's choice of form, log
entry 17). -/
def Obligations.FrameCompletion : Prop :=
  ∀ (s : State) (rx : Bool),
    Memory.wf s.mem = true → s.bitpos.toNat + 1 = s.width → s.done.toNat < s.len.toNat →
    let here := s.base.toNat + s.done.toNat
    let sr' := shiftCell s.params s.con s.sr rx
    (engineMayWrite s.params here = false → s.cell rx = .error ⟨.memWrite, here⟩)
    ∧ (engineMayWrite s.params here = true → s.done.toNat + 1 < s.len.toNat →
        engineMayRead s.params (here + 1) = false → s.cell rx = .error ⟨.memRead, here + 1⟩)
    ∧ (engineMayWrite s.params here = true →
        (s.done.toNat + 1 < s.len.toNat → engineMayRead s.params (here + 1) = true) →
        ∃ t v, s.cell rx = .ok t
          ∧ (∀ k, k < s.width → v.getLsbD k = sr'.getLsbD k)
          ∧ (s.width = 8 → v = sr')
          ∧ t.byteAt here = v
          ∧ (∀ a, a ≠ here → t.byteAt a = s.byteAt a)
          ∧ t.done.toNat = s.done.toNat + 1
          ∧ t.bitpos = 0#3
          ∧ t.phase = (if t.done = s.len then .enabledIdle else s.phase)
          ∧ t.sr = (if t.done = s.len then sr' else s.byteAt (here + 1))
          ∧ t.baudcnt = (if t.done = s.len then s.baudcnt else s.br)
          ∧ t.trace = s.trace ++ [
              .cell s.done s.bitpos (txBit s.params s.con s.sr) rx (edgeOrder s.params s.con),
              .engineWrite here v, .frameDone s.done v]
              ++ (if t.done = s.len then [] else [.engineRead (here + 1) (s.byteAt (here + 1))])
          ∧ t = { s with
            mem := t.mem, done := t.done, bitpos := t.bitpos, phase := t.phase, sr := t.sr,
            baudcnt := t.baudcnt, trace := t.trace, draws := t.draws })

/-- A frame exchanges its bits in order (R138): after the `w` cells of a frame, the `j`-th received
bit is at bit w-1-j (MSB-first) or j (LSB-first), and cell `j` transmitted the loaded byte's bit of
that place; bits 7..w are as loaded. -/
def Obligations.FrameExchangesBits : Prop :=
  ∀ (p : Params) (con sr : Byte) (l : List Bool), l.length = frameWidth con →
    let place := fun j => if isMsbFirst p con then frameWidth con - 1 - j else j
    (∀ j, j < frameWidth con →
      (l.foldl (shiftCell p con) sr).getLsbD (place j) = l.getD j false
      ∧ txBit p con ((l.take j).foldl (shiftCell p con) sr) = sr.getLsbD (place j))
    ∧ ∀ k, frameWidth con ≤ k → (l.foldl (shiftCell p con) sr).getLsbD k = sr.getLsbD k

/-- Loopback (R144): when every received bit is the transmitted one, a frame leaves the shift register
as it was loaded. -/
def Obligations.LoopbackKeepsShiftRegister : Prop :=
  ∀ (p : Params) (con sr : Byte),
    (fun r => shiftCell p con r (txBit p con r))^[frameWidth con] sr = sr

/-- Duplex mode (R141), clock phase and polarity (R140) and the port selection (41_port_router.md
R113) do not change the engine: a block that differs in those bits only moves in the same way. Of a
different clock phase alone the trace tells, by the edge order its CELL events record (D14; the model's
choice of form, log entry 17). -/
def Obligations.EngineIgnoresClockDuplexRouting : Prop :=
  ∀ (s : State) (rx ph po hd : Bool) (x : Byte), s.params.wellFormed = true →
    let flip := (if ph then 1#8 <<< s.params.flagPos.phase else 0#8)
      ||| (if po then 1#8 <<< s.params.flagPos.pol else 0#8) ||| (if hd then 0x80#8 else 0#8)
    let s' : State := { s with con := s.con ^^^ flip, pisel := x }
    let alike := fun t t' : State =>
      t' = { t with con := s.con ^^^ flip, pisel := x, trace := t'.trace }
      ∧ t'.trace.map Event.withoutEdges = t.trace.map Event.withoutEdges
      ∧ (ph = false → t'.trace = t.trace)
    alike (onTick rx s) (onTick rx s') ∧ alike (onExtCell rx s) (onExtCell rx s')

/-- TALK that starts a transfer reaches the start of a transfer, the state the transfer laws begin
from (R130, R133). -/
def Obligations.TalkReachesTransferStart : Prop :=
  ∀ (base : Half) (len : Byte) (s : State),
    s.phase = .enabledIdle → s.fault = none → len ≠ 0#8 →
    (∀ i, i < len.toNat → engineMayRead s.params (base.toNat + i) = true
      ∧ engineMayWrite s.params (base.toNat + i) = true) →
    ∃ t, exec (.talk base len) s = .next t ∧ t.AtTransferStart ∧ t.base = base ∧ t.len = len
      ∧ t.inputs = s.inputs ∧ t.mem = s.mem ∧ t.con = s.con ∧ t.br = s.br ∧ t.ms = s.ms

/-- The timing and busy laws (R143, R145, R137): from the start of a transfer, with just the events it
needs, the block is Enabled-Busy before each of them and has ended well after the last, in Master
mode after `n·w·(BR + 1)` TICKs, in Slave mode after `n·w` external cells; and after `k` of them it
has performed `k / (BR + 1)` cells in Master mode, `k` in Slave mode. Where the state is that after a
TALK, the transfer of that TALK has ended well (60_exceptions.md R178). -/
def Obligations.TransferEndsOnTime : Prop :=
  ∀ (s : State) (l : List Bool) (rest : List Input),
    s.AtTransferStart → s.TransferEvents l rest →
    (∀ k, k < l.length → ∃ u, core.run k s = .next u ∧ u.phase = .enabledBusy ∧ u.fault = none
      ∧ u.bitpos.toNat < s.width
      ∧ u.done.toNat * s.width + u.bitpos.toNat = k / s.eventsPerCell)
    ∧ ∃ t, core.run l.length s = .next t ∧ t.AtGoodEnd ∧ t.inputs = rest
      ∧ ∀ p : State, p.StartsTransfer s → TransferEndedWell p l.length t

/-- A transfer exchanges the buffer in place (R142, R138): bit `j` of frame `i` received, the bit the
partner offers at cell `i·w + j`, is in byte `i` at its place; every byte outside the buffer is as
before; and neither configuration nor parameters change. -/
def Obligations.TransferExchangesBuffer : Prop :=
  ∀ (s t : State) (l : List Bool) (rest : List Input),
    Memory.wf s.mem = true → s.AtTransferStart → s.TransferEvents l rest →
    core.run l.length s = .next t →
    (∀ i j, i < s.len.toNat → j < s.width →
      (t.byteAt (s.base.toNat + i)).getLsbD (s.bitPlace j)
        = l.getD (s.eventOfCell (i * s.width + j)) false)
    ∧ (∀ a, a < s.base.toNat ∨ s.base.toNat + s.len.toNat ≤ a → t.byteAt a = s.byteAt a)
    ∧ t.br = s.br ∧ t.con = s.con ∧ t.ms = s.ms ∧ t.pisel = s.pisel ∧ t.cfgv = s.cfgv
    ∧ t.base = s.base ∧ t.len = s.len ∧ t.params = s.params

/-- The completion guarantee (R142): a transfer of `n` bytes emits exactly `n` FRAME_DONE events, in
index order, each index once, with the byte written; and exactly `n·w` CELL events, of which cell `j`
of frame `i` transmits the bit of byte `i` at its place and receives the bit the partner offers, each at
the edges of the phase setting (D14; the model's choice of form, log entry 17). -/
def Obligations.TransferEmitsCompletionEvents : Prop :=
  ∀ (s t : State) (l : List Bool) (rest : List Input),
    Memory.wf s.mem = true → s.AtTransferStart → s.TransferEvents l rest →
    core.run l.length s = .next t →
    ∃ es, t.trace = s.trace ++ es
      ∧ es.filterMap Event.frameDone?
        = (List.range s.len.toNat).map (fun i => (BitVec.ofNat 8 i, t.byteAt (s.base.toNat + i)))
      ∧ es.filter Event.isCell
        = (List.range (s.len.toNat * s.width)).map fun c =>
          .cell (BitVec.ofNat 8 (c / s.width)) (BitVec.ofNat 3 (c % s.width))
            ((s.byteAt (s.base.toNat + c / s.width)).getLsbD (s.bitPlace (c % s.width)))
            (l.getD (s.eventOfCell c) false) (edgeOrder s.params s.con)

/-- The accesses of a transfer after TALK's read of byte 0 (20_memory.md R57): for each frame the write
of its byte and, but for the last, the read of the next, and no other access. -/
def Obligations.TransferMakesTheseAccesses : Prop :=
  ∀ (s t : State) (l : List Bool) (rest : List Input),
    Memory.wf s.mem = true → s.AtTransferStart → s.TransferEvents l rest →
    core.run l.length s = .next t →
    ∃ es, t.trace = s.trace ++ es
      ∧ es.filter Event.isEngineAccess
        = (List.range s.len.toNat).flatMap fun i =>
          .engineWrite (s.base.toNat + i) (t.byteAt (s.base.toNat + i))
            :: (if i + 1 < s.len.toNat then
                [.engineRead (s.base.toNat + (i + 1)) (s.byteAt (s.base.toNat + (i + 1)))]
              else [])

/-- The loopback law (R144): when every cell of a transfer receives the bit it transmits, the low `w`
bits of every byte of the buffer are as they were, and with `w = 8` the buffer is unchanged. -/
def Obligations.LoopbackKeepsBuffer : Prop :=
  ∀ (s t : State) (l : List Bool) (rest : List Input) (es : List Event),
    Memory.wf s.mem = true → s.AtTransferStart → s.TransferEvents l rest →
    core.run l.length s = .next t → t.trace = s.trace ++ es →
    (∀ i j tx rx edges, Event.cell i j tx rx edges ∈ es → rx = tx) →
    (∀ i k, i < s.len.toNat → k < s.width →
      (t.byteAt (s.base.toNat + i)).getLsbD k = (s.byteAt (s.base.toNat + i)).getLsbD k)
    ∧ (s.width = 8 → ∀ a, t.byteAt a = s.byteAt a)

/-- The lines and clock edges of a configuration (60_exceptions.md R175, 43_transceive.md R140): in
full duplex the received bits come from the line the transmitted ones do not go to, Master transmits
on MTSR and drives SCLK, Slave transmits on MRST and follows SCLK; a bit is driven at one edge of the
cell and latched at the other, the leading one latching exactly when CON.PH = 1. -/
def Obligations.LinesAndEdgesOfConfiguration : Prop :=
  ∀ s : State,
    (s.txLine = .mtsr ↔ s.isMaster = true) ∧ (s.clockRole = .output ↔ s.isMaster = true)
    ∧ (isHalfDuplex s.con = false →
        ∃ l, s.rxSource = .line l ∧ l ≠ s.txLine ∧ (l = .mrst ↔ s.isMaster = true))
    ∧ (isHalfDuplex s.con = true → s.rxSource = .shared)
    ∧ s.shiftEdge ≠ s.latchEdge
    ∧ (s.latchEdge = .leading ↔ clockPhase s.params s.con = true)
    ∧ (edgeOrder s.params s.con = .shiftTrailingLatchLeading ↔ clockPhase s.params s.con = true)
    ∧ s.idleClockLevel = s.con.getLsbD s.params.flagPos.pol

/-! ### Memory (spec/20_memory.md) -/

/-- A host access (R58) to the buffer in flight raises FAULT_BUFFER_RACE and is not performed; any
other is an ordinary access. That it is performed whatever BUF_READABLE and BUF_WRITABLE say, and at
16-bit addresses, is the model's reading (log entry 9). -/
def Obligations.HostAccessLaw : Prop :=
  ∀ (s : State) (a : Half) (v : Byte), s.fault = none → Memory.wf s.mem = true →
    if s.phase = .enabledBusy ∧ s.base.toNat ≤ a.toNat ∧ a.toNat < s.base.toNat + s.len.toNat then
      onHostRead a s = { s with
          fault := some ⟨.bufferRace, a.toNat⟩, response := none, hostData := none }
        ∧ onHostWrite a v s = { s with
          fault := some ⟨.bufferRace, a.toNat⟩, response := none, hostData := none }
    else
      onHostRead a s = { s with
          hostData := some (s.byteAt a.toNat)
          trace := s.trace ++ [.hostRead a (s.byteAt a.toNat)] }
        ∧ (onHostWrite a v s).byteAt a.toNat = v
        ∧ (∀ b, b ≠ a.toNat → (onHostWrite a v s).byteAt b = s.byteAt b)
        ∧ onHostWrite a v s = { s with
          mem := (onHostWrite a v s).mem
          trace := s.trace ++ [.hostWrite a v] }

/-- Which byte a step can change (R52, R57, R65): the byte the host writes, or in an engine event the
byte of the frame in flight, which lies below 2^16 and is writable. Every other byte of memory reads
as before; in particular no command writes memory, and RESET does not. -/
def Obligations.MemoryWrittenOnlyInPlace : Prop :=
  ∀ (s t : State) (a : Nat),
    Memory.wf s.mem = true → step s = .next t → t.byteAt a ≠ s.byteAt a →
    ∃ e rest, s.inputs = e :: rest
      ∧ ((∃ (b : Half) (v : Byte), e = .hostWrite b v ∧ a = b.toNat ∧ t.byteAt a = v)
        ∨ (e.isEngine = true ∧ s.phase = .enabledBusy ∧ a = s.base.toNat + s.done.toNat
          ∧ engineMayWrite s.params a = true ∧ a < 2 ^ 16))

/-- Two memories in canonical form that read alike at every address are one list. The form is the model's
choice (log entry 6). -/
def Obligations.EqualReadsEqualMemory : Prop :=
  ∀ m m' : Memory, Memory.wf m = true → Memory.wf m' = true →
    (∀ a, Memory.read m a = Memory.read m' a) → m = m'

/-! ### Reset (spec/70_reset_and_hazards.md) -/

/-- The state after reset has the values 10_state.md R20 gives. -/
def Obligations.ResetStateValues : Prop :=
  State.reset.phase = .disabled ∧ State.reset.cfgv = false ∧ State.reset.done = 0#8
    ∧ State.reset.fault = none ∧ State.reset.pisel = State.reset.params.piselReset
    ∧ State.reset.bsy = false

/-- RESET (R180): the specified registers take their reset values, FAULT is cleared, a transfer in
flight leaves no event, and memory is unchanged. The state agrees with State.reset in every register
a rule can read (log entry 4). That RESET keeps the whole trace is the model's choice (log entry 11). -/
def Obligations.ResetEventLaw : Prop :=
  ∀ s : State,
    let t := onReset s
    t.phase = .disabled ∧ t.cfgv = false ∧ t.done = 0#8 ∧ t.fault = none
      ∧ t.pisel = s.params.piselReset ∧ t.mem = s.mem ∧ t.trace = s.trace
      ∧ t.params = s.params ∧ t.inputs = s.inputs
      ∧ t.AgreeLive { State.reset with
        pisel := s.params.piselReset, mem := s.mem, params := s.params, inputs := s.inputs,
        response := s.response, hostData := s.hostData, trace := s.trace, draws := t.draws }

/-- The boot order (R182): from every state, a faulted or a busy one too, RESET and then INIT with a
legal frame byte, ENABLE and TALK of a nonempty buffer whose first byte is readable start the
transfer, on a block set up as INIT and TALK say. -/
def Obligations.BootOrderStartsTransfer : Prop :=
  ∀ (s : State) (br : Half) (con : Byte) (m : Bit) (base : Half) (len : Byte) (rest : List Input),
    frameByteLegal s.params con = true → len ≠ 0#8 → engineMayRead s.params base.toNat = true →
    s.inputs = .reset :: .command (encode (.init br con m)) :: .command (encode .enable)
      :: .command (encode (.talk base len)) :: rest →
    ∃ t, core.run 4 s = .next t
      ∧ t.phase = .enabledBusy ∧ t.fault = none ∧ t.response = some ⟨.ok, 0#16⟩ ∧ t.inputs = rest
      ∧ t.br = br ∧ t.con = con ∧ t.ms = m ∧ t.cfgv = true ∧ t.base = base ∧ t.len = len
      ∧ t.done = 0#8 ∧ t.bitpos = 0#3 ∧ t.baudcnt = br ∧ t.sr = s.byteAt base.toNat
      ∧ t.mem = s.mem ∧ t.params = s.params

/-- No unspecified reset value is ever read (R181): two blocks that differ only in registers that are
dead (BR, CON, MS before INIT; SR, BITPOS, BAUDCNT, BASE, LEN while no transfer is in flight) give
the same response, trace and memory in every step and differ only in dead registers after it. -/
def Obligations.NoUnspecifiedValueRead : Prop :=
  ∀ s s' t : State,
    (s.phase ≠ .disabled → s.cfgv = true) → s.AgreeLive s' → step s = .next t →
    ∃ t', step s' = .next t' ∧ t.AgreeLive t'

/-! ### Invariants -/

/-- Every step keeps the invariant: memory in canonical form, a legal configuration whenever the block
is enabled, DONE, BITPOS and BAUDCNT in range while Enabled-Busy (10_state.md R23, R28, R29, R31). -/
def Obligations.StepKeepsInvariant : Prop :=
  ∀ s t : State, s.Inv → step s = .next t → t.Inv

/-- The state after reset meets the invariant, whatever events have arrived. -/
def Obligations.ResetMeetsInvariant : Prop :=
  ∀ l : List Input, { State.reset with inputs := l }.Inv

/-- The trace is a history (00_scope.md R11, 43_transceive.md R146): a step only appends to it. That
RESET keeps it is the model's choice (log entry 11). -/
def Obligations.TraceOnlyGrows : Prop :=
  ∀ s t : State, step s = .next t → s.trace <+: t.trace

/-! ### Assembler (spec/30_encoding.md R90-R93) -/

/-- The pseudo-operands (R91, R92). BAUD(bps) is `12,000,000 // bps - 1` in ENCODE_BAUD's range, the
result of ENCODE_BAUD at 12,000,000 Hz in Master mode, and rejected where that command is. FRAME(...)
is the packed byte (R86) of its five operands, the result of ENCODE_FRAME, and rejected for a width
outside 2..8 and for an operand that is no value of its field. MASTER_BIT, FRAME_FLAG_POS and the
rejected operands are as the model reads them (log entries 15, 16, 20). -/
def Obligations.PseudoOperandsAreEncoderResults : Prop :=
  (∀ bps d, baudOperand bps = some d ↔
    1 ≤ bps ∧ bps ≤ 12000000 ∧ d = 12000000 / bps - 1 ∧ d ≤ 65535)
  ∧ (∀ (bps : BitVec 24) (s : State),
    ∃ t, exec (.encodeBaud bps 12000000#24 s.params.masterBit) s = .next t
      ∧ t.response = some (match baudOperand bps.toNat with
        | some d => ⟨.ok, BitVec.ofNat 16 d⟩
        | none => ⟨.invalidParameter, 0#16⟩))
  ∧ baudOperand 1000000 = some 11
  ∧ frameOperand Config.params 8 .lsb 0 0 .half = some 0x87
  ∧ (∀ (p : Params) (width : Nat) (o ph po d : Bit), 2 ≤ width → width ≤ 8 →
    frameOperand p width (if o = 1#1 then .msb else .lsb) ph.toNat po.toNat
        (if d = 1#1 then .half else .full)
      = some (packFrame p (BitVec.ofNat 4 width) o ph po d).toNat)
  ∧ (∀ (s : State) (width : Nat) (o ph po d : Bit), 2 ≤ width → width ≤ 8 →
    ∃ t, exec (.encodeFrame (BitVec.ofNat 4 width) o ph po d) s = .next t
      ∧ t.response = some
        ⟨.ok, (packFrame s.params (BitVec.ofNat 4 width) o ph po d).setWidth 16⟩)
  ∧ ∀ (p : Params) (width : Nat) (order duplex : Keyword) (phase pol v : Nat),
    frameOperand p width order phase pol duplex = some v →
    2 ≤ width ∧ width ≤ 8 ∧ (order = .lsb ∨ order = .msb) ∧ phase < 2 ∧ pol < 2
      ∧ (duplex = .full ∨ duplex = .half)
end

