-- ==== Sys2Proof/Laws/Memory.lean ====
section
/-! SUPPORT. The laws of buffer memory: a read after a write, and the canonical form every operation
keeps. -/

namespace Sys2Proof.Machine

/-- The canonical form above a bound holds above every lower one. -/
theorem Memory.wfFrom_mono {lo lo' : Nat} {m : Memory} (h : lo' ≤ lo)
    (hm : Memory.wfFrom lo m = true) : Memory.wfFrom lo' m = true := by
  cases m with
  | nil => rfl
  | cons c m =>
    simp only [Memory.wfFrom, Bool.and_eq_true, decide_eq_true_eq] at hm ⊢
    exact ⟨⟨⟨by omega, hm.1.1.2⟩, hm.1.2⟩, hm.2⟩

/-- Below its bound a canonical memory lists nothing. -/
theorem Memory.read_below {lo a : Nat} {m : Memory} (hm : Memory.wfFrom lo m = true) (h : a < lo) :
    Memory.read m a = Memory.unlisted := by
  induction m generalizing lo with
  | nil => rfl
  | cons c m ih =>
    simp only [Memory.wfFrom, Bool.and_eq_true, decide_eq_true_eq] at hm
    rw [Memory.read, if_neg (by omega)]
    exact ih hm.2 (by omega)

/-- A write keeps the canonical form. -/
theorem Memory.write_wfFrom {lo a : Nat} {m : Memory} (v : Byte) (hm : Memory.wfFrom lo m = true)
    (hlo : lo ≤ a) (ha : a < 2 ^ 16) : Memory.wfFrom lo (Memory.write m a v) = true := by
  induction m generalizing lo with
  | nil =>
    unfold Memory.write
    split <;> simp_all [Memory.wfFrom]
  | cons c m ih =>
    obtain ⟨k, b⟩ := c
    simp only [Memory.wfFrom, Bool.and_eq_true, decide_eq_true_eq] at hm
    unfold Memory.write
    split
    · split
      · simpa [Memory.wfFrom, hm] using hm.1.1.2
      · simp_all [Memory.wfFrom]
    · split
      · subst a
        split
        · exact Memory.wfFrom_mono (by omega) hm.2
        · simp_all [Memory.wfFrom]
      · simp only [Memory.wfFrom, Bool.and_eq_true, decide_eq_true_eq]
        exact ⟨hm.1, ih hm.2 (by omega)⟩

/-- A write at a 16-bit address keeps the canonical form. -/
theorem Memory.write_wf {a : Nat} {m : Memory} (v : Byte) (hm : Memory.wf m = true)
    (ha : a < 2 ^ 16) : Memory.wf (Memory.write m a v) = true :=
  Memory.write_wfFrom v hm (Nat.zero_le _) ha

/-- A read after a write to the same address gives the value written. -/
theorem Memory.read_write_same {lo a : Nat} {m : Memory} (v : Byte)
    (hm : Memory.wfFrom lo m = true) : Memory.read (Memory.write m a v) a = v := by
  induction m generalizing lo with
  | nil =>
    unfold Memory.write
    split <;> simp_all [Memory.read]
  | cons c m ih =>
    obtain ⟨k, b⟩ := c
    simp only [Memory.wfFrom, Bool.and_eq_true, decide_eq_true_eq] at hm
    unfold Memory.write
    split
    · rename_i hlt
      split
      · rename_i hv
        rw [Memory.read, if_neg (by omega), Memory.read_below hm.2 (by omega), hv]
      · simp [Memory.read]
    · split
      · subst a
        split
        · rename_i hv
          rw [Memory.read_below hm.2 (by omega), hv]
        · simp [Memory.read]
      · rw [Memory.read, if_neg (by omega)]
        exact ih hm.2

/-- A write leaves every other address alone, whatever the form of the memory. -/
theorem Memory.read_write_other {a b : Nat} (m : Memory) (v : Byte) (h : b ≠ a) :
    Memory.read (Memory.write m a v) b = Memory.read m b := by
  induction m with
  | nil =>
    unfold Memory.write
    split <;> simp [Memory.read, Ne.symm h]
  | cons c m ih =>
    obtain ⟨k, w⟩ := c
    unfold Memory.write
    split
    · split <;> simp [Memory.read, Ne.symm h]
    · split
      · subst a
        split <;> simp [Memory.read, Ne.symm h]
      · simp [Memory.read, ih]

/-- The state after reset has memory in canonical form. -/
theorem State.reset_mem_wf : Memory.wf State.reset.mem = true := rfl

end Sys2Proof.Machine
end

