-- ==== Sys2Proof/Laws/State.lean ====
section
/-! SUPPORT. One lemma per field of State and shared update, so that no proof unfolds a record update.
The remaining updates are these, by the last section. -/

namespace Sys2Proof.Machine

/-! ### emit

Appending to the trace changes the trace only. -/

@[simp] theorem State.emit_phase (s : State) (e : Event) : (s.emit e).phase = s.phase := rfl

@[simp] theorem State.emit_cfgv (s : State) (e : Event) : (s.emit e).cfgv = s.cfgv := rfl

@[simp] theorem State.emit_br (s : State) (e : Event) : (s.emit e).br = s.br := rfl

@[simp] theorem State.emit_con (s : State) (e : Event) : (s.emit e).con = s.con := rfl

@[simp] theorem State.emit_ms (s : State) (e : Event) : (s.emit e).ms = s.ms := rfl

@[simp] theorem State.emit_pisel (s : State) (e : Event) : (s.emit e).pisel = s.pisel := rfl

@[simp] theorem State.emit_sr (s : State) (e : Event) : (s.emit e).sr = s.sr := rfl

@[simp] theorem State.emit_bitpos (s : State) (e : Event) : (s.emit e).bitpos = s.bitpos := rfl

@[simp] theorem State.emit_baudcnt (s : State) (e : Event) : (s.emit e).baudcnt = s.baudcnt := rfl

@[simp] theorem State.emit_base (s : State) (e : Event) : (s.emit e).base = s.base := rfl

@[simp] theorem State.emit_len (s : State) (e : Event) : (s.emit e).len = s.len := rfl

@[simp] theorem State.emit_done (s : State) (e : Event) : (s.emit e).done = s.done := rfl

@[simp] theorem State.emit_fault (s : State) (e : Event) : (s.emit e).fault = s.fault := rfl

@[simp] theorem State.emit_mem (s : State) (e : Event) : (s.emit e).mem = s.mem := rfl

@[simp] theorem State.emit_params (s : State) (e : Event) : (s.emit e).params = s.params := rfl

@[simp] theorem State.emit_inputs (s : State) (e : Event) : (s.emit e).inputs = s.inputs := rfl

@[simp] theorem State.emit_response (s : State) (e : Event) : (s.emit e).response = s.response := rfl

@[simp] theorem State.emit_hostData (s : State) (e : Event) : (s.emit e).hostData = s.hostData := rfl

@[simp] theorem State.emit_trace (s : State) (e : Event) : (s.emit e).trace = s.trace ++ [e] := rfl

@[simp] theorem State.emit_draws (s : State) (e : Event) : (s.emit e).draws = s.draws := rfl

/-! ### clearOutputs

Clearing the outputs changes the two outputs only. -/

@[simp] theorem State.clearOutputs_phase (s : State) : (s.clearOutputs).phase = s.phase := rfl

@[simp] theorem State.clearOutputs_cfgv (s : State) : (s.clearOutputs).cfgv = s.cfgv := rfl

@[simp] theorem State.clearOutputs_br (s : State) : (s.clearOutputs).br = s.br := rfl

@[simp] theorem State.clearOutputs_con (s : State) : (s.clearOutputs).con = s.con := rfl

@[simp] theorem State.clearOutputs_ms (s : State) : (s.clearOutputs).ms = s.ms := rfl

@[simp] theorem State.clearOutputs_pisel (s : State) : (s.clearOutputs).pisel = s.pisel := rfl

@[simp] theorem State.clearOutputs_sr (s : State) : (s.clearOutputs).sr = s.sr := rfl

@[simp] theorem State.clearOutputs_bitpos (s : State) : (s.clearOutputs).bitpos = s.bitpos := rfl

@[simp] theorem State.clearOutputs_baudcnt (s : State) : (s.clearOutputs).baudcnt = s.baudcnt := rfl

@[simp] theorem State.clearOutputs_base (s : State) : (s.clearOutputs).base = s.base := rfl

@[simp] theorem State.clearOutputs_len (s : State) : (s.clearOutputs).len = s.len := rfl

@[simp] theorem State.clearOutputs_done (s : State) : (s.clearOutputs).done = s.done := rfl

@[simp] theorem State.clearOutputs_fault (s : State) : (s.clearOutputs).fault = s.fault := rfl

@[simp] theorem State.clearOutputs_mem (s : State) : (s.clearOutputs).mem = s.mem := rfl

@[simp] theorem State.clearOutputs_params (s : State) : (s.clearOutputs).params = s.params := rfl

@[simp] theorem State.clearOutputs_inputs (s : State) : (s.clearOutputs).inputs = s.inputs := rfl

@[simp] theorem State.clearOutputs_response (s : State) : (s.clearOutputs).response = none := rfl

@[simp] theorem State.clearOutputs_hostData (s : State) : (s.clearOutputs).hostData = none := rfl

@[simp] theorem State.clearOutputs_trace (s : State) : (s.clearOutputs).trace = s.trace := rfl

@[simp] theorem State.clearOutputs_draws (s : State) : (s.clearOutputs).draws = s.draws := rfl

/-! ### answer

A response changes the response and the trace only. -/

@[simp] theorem State.answer_phase (s : State) (st : Status) (r : Half) : (s.answer st r).phase = s.phase := rfl

@[simp] theorem State.answer_cfgv (s : State) (st : Status) (r : Half) : (s.answer st r).cfgv = s.cfgv := rfl

@[simp] theorem State.answer_br (s : State) (st : Status) (r : Half) : (s.answer st r).br = s.br := rfl

@[simp] theorem State.answer_con (s : State) (st : Status) (r : Half) : (s.answer st r).con = s.con := rfl

@[simp] theorem State.answer_ms (s : State) (st : Status) (r : Half) : (s.answer st r).ms = s.ms := rfl

@[simp] theorem State.answer_pisel (s : State) (st : Status) (r : Half) : (s.answer st r).pisel = s.pisel := rfl

@[simp] theorem State.answer_sr (s : State) (st : Status) (r : Half) : (s.answer st r).sr = s.sr := rfl

@[simp] theorem State.answer_bitpos (s : State) (st : Status) (r : Half) : (s.answer st r).bitpos = s.bitpos := rfl

@[simp] theorem State.answer_baudcnt (s : State) (st : Status) (r : Half) : (s.answer st r).baudcnt = s.baudcnt := rfl

@[simp] theorem State.answer_base (s : State) (st : Status) (r : Half) : (s.answer st r).base = s.base := rfl

@[simp] theorem State.answer_len (s : State) (st : Status) (r : Half) : (s.answer st r).len = s.len := rfl

@[simp] theorem State.answer_done (s : State) (st : Status) (r : Half) : (s.answer st r).done = s.done := rfl

@[simp] theorem State.answer_fault (s : State) (st : Status) (r : Half) : (s.answer st r).fault = s.fault := rfl

@[simp] theorem State.answer_mem (s : State) (st : Status) (r : Half) : (s.answer st r).mem = s.mem := rfl

@[simp] theorem State.answer_params (s : State) (st : Status) (r : Half) : (s.answer st r).params = s.params := rfl

@[simp] theorem State.answer_inputs (s : State) (st : Status) (r : Half) : (s.answer st r).inputs = s.inputs := rfl

@[simp] theorem State.answer_response (s : State) (st : Status) (r : Half) : (s.answer st r).response = some ⟨st, r⟩ := rfl

@[simp] theorem State.answer_hostData (s : State) (st : Status) (r : Half) : (s.answer st r).hostData = s.hostData := rfl

@[simp] theorem State.answer_trace (s : State) (st : Status) (r : Half) : (s.answer st r).trace = s.trace ++ [.response ⟨st, r⟩] := rfl

@[simp] theorem State.answer_draws (s : State) (st : Status) (r : Half) : (s.answer st r).draws = s.draws := rfl

/-! ### raiseFault

A fault changes FAULT and the two outputs only (60_exceptions.md R163). -/

@[simp] theorem State.raiseFault_phase (s : State) (f : FaultRecord) : (s.raiseFault f).phase = s.phase := rfl

@[simp] theorem State.raiseFault_cfgv (s : State) (f : FaultRecord) : (s.raiseFault f).cfgv = s.cfgv := rfl

@[simp] theorem State.raiseFault_br (s : State) (f : FaultRecord) : (s.raiseFault f).br = s.br := rfl

@[simp] theorem State.raiseFault_con (s : State) (f : FaultRecord) : (s.raiseFault f).con = s.con := rfl

@[simp] theorem State.raiseFault_ms (s : State) (f : FaultRecord) : (s.raiseFault f).ms = s.ms := rfl

@[simp] theorem State.raiseFault_pisel (s : State) (f : FaultRecord) : (s.raiseFault f).pisel = s.pisel := rfl

@[simp] theorem State.raiseFault_sr (s : State) (f : FaultRecord) : (s.raiseFault f).sr = s.sr := rfl

@[simp] theorem State.raiseFault_bitpos (s : State) (f : FaultRecord) : (s.raiseFault f).bitpos = s.bitpos := rfl

@[simp] theorem State.raiseFault_baudcnt (s : State) (f : FaultRecord) : (s.raiseFault f).baudcnt = s.baudcnt := rfl

@[simp] theorem State.raiseFault_base (s : State) (f : FaultRecord) : (s.raiseFault f).base = s.base := rfl

@[simp] theorem State.raiseFault_len (s : State) (f : FaultRecord) : (s.raiseFault f).len = s.len := rfl

@[simp] theorem State.raiseFault_done (s : State) (f : FaultRecord) : (s.raiseFault f).done = s.done := rfl

@[simp] theorem State.raiseFault_fault (s : State) (f : FaultRecord) : (s.raiseFault f).fault = some f := rfl

@[simp] theorem State.raiseFault_mem (s : State) (f : FaultRecord) : (s.raiseFault f).mem = s.mem := rfl

@[simp] theorem State.raiseFault_params (s : State) (f : FaultRecord) : (s.raiseFault f).params = s.params := rfl

@[simp] theorem State.raiseFault_inputs (s : State) (f : FaultRecord) : (s.raiseFault f).inputs = s.inputs := rfl

@[simp] theorem State.raiseFault_response (s : State) (f : FaultRecord) : (s.raiseFault f).response = none := rfl

@[simp] theorem State.raiseFault_hostData (s : State) (f : FaultRecord) : (s.raiseFault f).hostData = none := rfl

@[simp] theorem State.raiseFault_trace (s : State) (f : FaultRecord) : (s.raiseFault f).trace = s.trace := rfl

@[simp] theorem State.raiseFault_draws (s : State) (f : FaultRecord) : (s.raiseFault f).draws = s.draws := rfl

/-! ### toDisabled

Leaving for Disabled changes PHASE and the trace only (43_transceive.md R134). -/

@[simp] theorem State.toDisabled_phase (s : State) : (s.toDisabled).phase = .disabled := rfl

@[simp] theorem State.toDisabled_cfgv (s : State) : (s.toDisabled).cfgv = s.cfgv := by
  unfold State.toDisabled; split <;> rfl

@[simp] theorem State.toDisabled_br (s : State) : (s.toDisabled).br = s.br := by
  unfold State.toDisabled; split <;> rfl

@[simp] theorem State.toDisabled_con (s : State) : (s.toDisabled).con = s.con := by
  unfold State.toDisabled; split <;> rfl

@[simp] theorem State.toDisabled_ms (s : State) : (s.toDisabled).ms = s.ms := by
  unfold State.toDisabled; split <;> rfl

@[simp] theorem State.toDisabled_pisel (s : State) : (s.toDisabled).pisel = s.pisel := by
  unfold State.toDisabled; split <;> rfl

@[simp] theorem State.toDisabled_sr (s : State) : (s.toDisabled).sr = s.sr := by
  unfold State.toDisabled; split <;> rfl

@[simp] theorem State.toDisabled_bitpos (s : State) : (s.toDisabled).bitpos = s.bitpos := by
  unfold State.toDisabled; split <;> rfl

@[simp] theorem State.toDisabled_baudcnt (s : State) : (s.toDisabled).baudcnt = s.baudcnt := by
  unfold State.toDisabled; split <;> rfl

@[simp] theorem State.toDisabled_base (s : State) : (s.toDisabled).base = s.base := by
  unfold State.toDisabled; split <;> rfl

@[simp] theorem State.toDisabled_len (s : State) : (s.toDisabled).len = s.len := by
  unfold State.toDisabled; split <;> rfl

@[simp] theorem State.toDisabled_done (s : State) : (s.toDisabled).done = s.done := by
  unfold State.toDisabled; split <;> rfl

@[simp] theorem State.toDisabled_fault (s : State) : (s.toDisabled).fault = s.fault := by
  unfold State.toDisabled; split <;> rfl

@[simp] theorem State.toDisabled_mem (s : State) : (s.toDisabled).mem = s.mem := by
  unfold State.toDisabled; split <;> rfl

@[simp] theorem State.toDisabled_params (s : State) : (s.toDisabled).params = s.params := by
  unfold State.toDisabled; split <;> rfl

@[simp] theorem State.toDisabled_inputs (s : State) : (s.toDisabled).inputs = s.inputs := by
  unfold State.toDisabled; split <;> rfl

@[simp] theorem State.toDisabled_response (s : State) : (s.toDisabled).response = s.response := by
  unfold State.toDisabled; split <;> rfl

@[simp] theorem State.toDisabled_hostData (s : State) : (s.toDisabled).hostData = s.hostData := by
  unfold State.toDisabled; split <;> rfl

@[simp] theorem State.toDisabled_trace (s : State) : (s.toDisabled).trace = s.trace ++ (if s.bsy then [.abort s.done] else []) := by
  unfold State.toDisabled; split <;> simp [State.abort]

@[simp] theorem State.toDisabled_draws (s : State) : (s.toDisabled).draws = s.draws := by
  unfold State.toDisabled; split <;> rfl

/-! ### takeInput

Taking an event changes the inputs and the two outputs only. -/

@[simp] theorem State.takeInput_phase (s : State) (rest : List Input) : (s.takeInput rest).phase = s.phase := rfl

@[simp] theorem State.takeInput_cfgv (s : State) (rest : List Input) : (s.takeInput rest).cfgv = s.cfgv := rfl

@[simp] theorem State.takeInput_br (s : State) (rest : List Input) : (s.takeInput rest).br = s.br := rfl

@[simp] theorem State.takeInput_con (s : State) (rest : List Input) : (s.takeInput rest).con = s.con := rfl

@[simp] theorem State.takeInput_ms (s : State) (rest : List Input) : (s.takeInput rest).ms = s.ms := rfl

@[simp] theorem State.takeInput_pisel (s : State) (rest : List Input) : (s.takeInput rest).pisel = s.pisel := rfl

@[simp] theorem State.takeInput_sr (s : State) (rest : List Input) : (s.takeInput rest).sr = s.sr := rfl

@[simp] theorem State.takeInput_bitpos (s : State) (rest : List Input) : (s.takeInput rest).bitpos = s.bitpos := rfl

@[simp] theorem State.takeInput_baudcnt (s : State) (rest : List Input) : (s.takeInput rest).baudcnt = s.baudcnt := rfl

@[simp] theorem State.takeInput_base (s : State) (rest : List Input) : (s.takeInput rest).base = s.base := rfl

@[simp] theorem State.takeInput_len (s : State) (rest : List Input) : (s.takeInput rest).len = s.len := rfl

@[simp] theorem State.takeInput_done (s : State) (rest : List Input) : (s.takeInput rest).done = s.done := rfl

@[simp] theorem State.takeInput_fault (s : State) (rest : List Input) : (s.takeInput rest).fault = s.fault := rfl

@[simp] theorem State.takeInput_mem (s : State) (rest : List Input) : (s.takeInput rest).mem = s.mem := rfl

@[simp] theorem State.takeInput_params (s : State) (rest : List Input) : (s.takeInput rest).params = s.params := rfl

@[simp] theorem State.takeInput_inputs (s : State) (rest : List Input) : (s.takeInput rest).inputs = rest := rfl

@[simp] theorem State.takeInput_response (s : State) (rest : List Input) : (s.takeInput rest).response = none := rfl

@[simp] theorem State.takeInput_hostData (s : State) (rest : List Input) : (s.takeInput rest).hostData = none := rfl

@[simp] theorem State.takeInput_trace (s : State) (rest : List Input) : (s.takeInput rest).trace = s.trace := rfl

@[simp] theorem State.takeInput_draws (s : State) (rest : List Input) : (s.takeInput rest).draws = s.draws := rfl

/-! ### applyReset

RESET, register by register (70_reset_and_hazards.md R180). -/

@[simp] theorem State.applyReset_phase (s : State) : (s.applyReset).phase = .disabled := rfl

@[simp] theorem State.applyReset_cfgv (s : State) : (s.applyReset).cfgv = false := rfl

@[simp] theorem State.applyReset_br (s : State) : (s.applyReset).br = (Config.freeRegs s.draws).br := rfl

@[simp] theorem State.applyReset_con (s : State) : (s.applyReset).con = (Config.freeRegs s.draws).con := rfl

@[simp] theorem State.applyReset_ms (s : State) : (s.applyReset).ms = (Config.freeRegs s.draws).ms := rfl

@[simp] theorem State.applyReset_pisel (s : State) : (s.applyReset).pisel = s.params.piselReset := rfl

@[simp] theorem State.applyReset_sr (s : State) : (s.applyReset).sr = (Config.freeRegs s.draws).sr := rfl

@[simp] theorem State.applyReset_bitpos (s : State) : (s.applyReset).bitpos = (Config.freeRegs s.draws).bitpos := rfl

@[simp] theorem State.applyReset_baudcnt (s : State) : (s.applyReset).baudcnt = (Config.freeRegs s.draws).baudcnt := rfl

@[simp] theorem State.applyReset_base (s : State) : (s.applyReset).base = (Config.freeRegs s.draws).base := rfl

@[simp] theorem State.applyReset_len (s : State) : (s.applyReset).len = (Config.freeRegs s.draws).len := rfl

@[simp] theorem State.applyReset_done (s : State) : (s.applyReset).done = 0#8 := rfl

@[simp] theorem State.applyReset_fault (s : State) : (s.applyReset).fault = none := rfl

@[simp] theorem State.applyReset_mem (s : State) : (s.applyReset).mem = s.mem := rfl

@[simp] theorem State.applyReset_params (s : State) : (s.applyReset).params = s.params := rfl

@[simp] theorem State.applyReset_inputs (s : State) : (s.applyReset).inputs = s.inputs := rfl

@[simp] theorem State.applyReset_response (s : State) : (s.applyReset).response = s.response := rfl

@[simp] theorem State.applyReset_hostData (s : State) : (s.applyReset).hostData = s.hostData := rfl

@[simp] theorem State.applyReset_trace (s : State) : (s.applyReset).trace = s.trace := rfl

@[simp] theorem State.applyReset_draws (s : State) : (s.applyReset).draws = s.draws + 1 := rfl

/-! ### The updates that are one of these -/

@[simp] theorem State.refuse_eq (s : State) (st : Status) : s.refuse st = s.answer st 0#16 := rfl

@[simp] theorem State.abort_eq (s : State) : s.abort = s.emit (.abort s.done) := rfl

@[simp] theorem State.accept_eq (s : State) (w : Word64) : s.accept w = s.emit (.command w) := rfl

@[simp] theorem onReset_eq (s : State) : onReset s = s.applyReset := rfl

@[simp] theorem onIllegal_eq (s : State) : onIllegal s = s.answer .illegalCommand 0#16 := rfl

@[simp] theorem State.placeCommand_inputs (s : State) (w : Word64) :
    (s.placeCommand w).inputs = .command w :: s.inputs := rfl

/-! ### The views of a state -/

@[simp] theorem State.bsy_iff (s : State) : s.bsy = true ↔ s.phase = .enabledBusy := by
  simp [State.bsy]

@[simp] theorem State.bsy_eq_false_iff (s : State) : s.bsy = false ↔ s.phase ≠ .enabledBusy := by
  simp [State.bsy]

theorem State.width_pos (s : State) : 0 < s.width := by
  unfold State.width frameWidth; omega

theorem State.width_le (s : State) : s.width ≤ 8 := by
  have := (conW s.con).isLt
  unfold State.width frameWidth; omega

end Sys2Proof.Machine
end

