-- ==== Sys2Proof/Laws/Ops.lean ====
section
/-! SUPPORT. For each shared operation, once, everything it can do; and for one step the same. -/

namespace Sys2Proof.Machine

/-! ### The engine's accesses and procedures -/

/-- An engine read that succeeds was admitted, and only the trace grew. -/
theorem State.memRead_ok {s t : State} {a : Nat} {b : Byte} (h : s.memRead a = .ok (b, t)) :
    engineMayRead s.params a = true ∧ b = s.byteAt a ∧ t = s.emit (.engineRead a (s.byteAt a)) := by
  unfold State.memRead at h
  split at h
  · cases h; exact ⟨‹_›, rfl, rfl⟩
  · cases h

/-- An engine write that succeeds was admitted, and only that byte and the trace changed. -/
theorem State.memWrite_ok {s t : State} {a : Nat} {v : Byte} (h : s.memWrite a v = .ok t) :
    engineMayWrite s.params a = true
      ∧ t = { s with mem := Memory.write s.mem a v, trace := s.trace ++ [.engineWrite a v] } := by
  unfold State.memWrite at h
  split at h
  · cases h; exact ⟨‹_›, rfl⟩
  · cases h

/-- An engine write that fails was not admitted. -/
theorem State.memWrite_error {s : State} {a : Nat} {v : Byte} {f : FaultRecord}
    (h : s.memWrite a v = .error f) : engineMayWrite s.params a = false ∧ f = ⟨.memWrite, a⟩ := by
  unfold State.memWrite at h
  split at h
  · cases h
  · cases h; exact ⟨Bool.eq_false_iff.mpr ‹_›, rfl⟩

/-- StartFrame that succeeds. -/
theorem State.startFrame_ok {s t : State} {i : Nat} (h : s.startFrame i = .ok t) :
    engineMayRead s.params (s.base.toNat + i) = true ∧ t = { s with
      sr := s.byteAt (s.base.toNat + i)
      bitpos := 0#3
      baudcnt := s.br
      trace := s.trace ++ [.engineRead (s.base.toNat + i) (s.byteAt (s.base.toNat + i))] } := by
  unfold State.startFrame at h
  split at h
  · cases h
  · obtain ⟨hr, rfl, rfl⟩ := State.memRead_ok ‹_›
    cases h; exact ⟨hr, rfl⟩

/-- StartFrame that fails. -/
theorem State.startFrame_error {s : State} {i : Nat} {f : FaultRecord}
    (h : s.startFrame i = .error f) :
    engineMayRead s.params (s.base.toNat + i) = false ∧ f = ⟨.memRead, s.base.toNat + i⟩ := by
  simp only [State.startFrame, State.memRead] at h
  cases hr : engineMayRead s.params (s.base.toNat + i) <;> simp [hr] at h
  exact ⟨rfl, h.symm⟩

/-- The advance after a write-back: the end of the transfer, or the next byte. -/
theorem State.advance_ok {s t : State} (h : s.advance = .ok t) :
    (s.done + 1#8 = s.len
      ∧ t = { s with done := s.done + 1#8, bitpos := 0#3, phase := .enabledIdle })
    ∨ (s.done + 1#8 ≠ s.len ∧ ∃ a, a = s.base.toNat + (s.done + 1#8).toNat
      ∧ engineMayRead s.params a = true
      ∧ t = { s with
          done := s.done + 1#8
          sr := s.byteAt a
          bitpos := 0#3
          baudcnt := s.br
          trace := s.trace ++ [.engineRead a (s.byteAt a)] }) := by
  simp only [State.advance] at h
  split at h
  · cases h; exact .inl ⟨‹_›, rfl⟩
  · obtain ⟨hr, rfl⟩ := State.startFrame_ok h
    exact .inr ⟨‹_›, _, rfl, hr, rfl⟩

/-- The advance fails only where the next byte is not readable. -/
theorem State.advance_error {s : State} {f : FaultRecord} (h : s.advance = .error f) :
    s.done + 1#8 ≠ s.len
      ∧ engineMayRead s.params (s.base.toNat + (s.done + 1#8).toNat) = false
      ∧ f = ⟨.memRead, s.base.toNat + (s.done + 1#8).toNat⟩ := by
  simp only [State.advance] at h
  split at h
  · cases h
  · obtain ⟨hr, rfl⟩ := State.startFrame_error h
    exact ⟨‹_›, hr, rfl⟩

/-- The state between the write-back and the advance. -/
def State.writtenBack (s : State) : State := { s with
  draws := s.draws + 1
  mem := Memory.write s.mem (s.base.toNat + s.done.toNat) s.writeBack
  trace := s.trace ++ [.engineWrite (s.base.toNat + s.done.toNat) s.writeBack]
    ++ [.frameDone s.done s.writeBack] }

/-- FrameComplete is an admitted write-back and then the advance. -/
theorem State.frameComplete_ok {s t : State} (h : s.frameComplete = .ok t) :
    engineMayWrite s.params (s.base.toNat + s.done.toNat) = true
      ∧ s.writtenBack.advance = .ok t := by
  unfold State.frameComplete at h
  split at h
  · cases h
  · obtain ⟨hw, rfl⟩ := State.memWrite_ok ‹_›
    exact ⟨hw, h⟩

/-- FrameComplete fails at its write-back or at its advance. -/
theorem State.frameComplete_error {s : State} {f : FaultRecord} (h : s.frameComplete = .error f) :
    (engineMayWrite s.params (s.base.toNat + s.done.toNat) = false
      ∧ f = ⟨.memWrite, s.base.toNat + s.done.toNat⟩)
    ∨ s.writtenBack.advance = .error f := by
  unfold State.frameComplete at h
  split at h
  · rename_i hw
    obtain ⟨hd, rfl⟩ := State.memWrite_error hw
    cases h; exact .inl ⟨hd, rfl⟩
  · obtain ⟨hw, rfl⟩ := State.memWrite_ok ‹_›
    exact .inr h

/-- The bit exchange of a cell moves the shift register and grows the trace. -/
theorem State.shifted_eq (s : State) (rx : Bool) : s.shifted rx = { s with
    sr := shiftCell s.params s.con s.sr rx
    trace := s.trace ++
      [.cell s.done s.bitpos (txBit s.params s.con s.sr) rx (edgeOrder s.params s.con)] } := rfl

/-- A cell that succeeds: inside its frame, or with the frame's completion. -/
theorem State.cell_ok {s t : State} {rx : Bool} (h : s.cell rx = .ok t) :
    (s.bitpos.toNat ≠ s.width - 1 ∧ t = { s.shifted rx with bitpos := s.bitpos + 1#3 })
    ∨ (s.bitpos.toNat = s.width - 1
      ∧ engineMayWrite s.params (s.base.toNat + s.done.toNat) = true
      ∧ (s.shifted rx).writtenBack.advance = .ok t) := by
  unfold State.cell at h
  split at h
  · exact .inr ⟨‹_›, State.frameComplete_ok h⟩
  · cases h; exact .inl ⟨‹_›, rfl⟩

/-- A cell that fails: at the write-back, or at the reload. -/
theorem State.cell_error {s : State} {rx : Bool} {f : FaultRecord} (h : s.cell rx = .error f) :
    s.bitpos.toNat = s.width - 1
    ∧ ((engineMayWrite s.params (s.base.toNat + s.done.toNat) = false
        ∧ f = ⟨.memWrite, s.base.toNat + s.done.toNat⟩)
      ∨ (engineMayRead s.params (s.base.toNat + (s.done + 1#8).toNat) = false
        ∧ f = ⟨.memRead, s.base.toNat + (s.done + 1#8).toNat⟩)) := by
  unfold State.cell at h
  split at h
  · refine ⟨‹_›, ?_⟩
    rcases State.frameComplete_error h with hw | ha
    · exact .inl hw
    · exact .inr (State.advance_error ha).2
  · cases h

/-- The end of a step is what it computed, or its fault alone. -/
theorem State.commit_cases (s : State) (r : Except FaultRecord State) :
    (∃ t, r = .ok t ∧ s.commit r = t) ∨ (∃ f, r = .error f ∧ s.commit r = s.raiseFault f) := by
  cases r
  · exact .inr ⟨_, rfl, rfl⟩
  · exact .inl ⟨_, rfl, rfl⟩

/-- Misuse is a fault with the opcode or a refusal. -/
theorem State.misuse_cases (s : State) (op : Opcode) :
    (s.params.misusePolicy = .fault ∧ s.misuse op = s.raiseFault ⟨.misuse, op.code.toNat⟩)
    ∨ (s.params.misusePolicy = .checked ∧ s.misuse op = s.answer .illegalState 0#16) := by
  unfold State.misuse
  cases s.params.misusePolicy
  · exact .inr ⟨rfl, rfl⟩
  · exact .inl ⟨rfl, rfl⟩

/-! ### Cells and events -/

/-- The bits of a byte put together from two: the low `w` of one, the others of the other. -/
theorem mergeLow_bits {w k : Nat} (hw : w ≤ 8) (hk : k < 8) (hi lo : Byte) :
    (mergeLow w hi lo).getLsbD k = if k < w then lo.getLsbD k else hi.getLsbD k := by
  interval_cases w <;> interval_cases k <;> simp [mergeLow, lowMask]

/-- What a cell that succeeds leaves as it was, where it may write memory, and how the cursor, the bit
counter, the tick counter and PHASE move: inside a frame, at the end of the transfer, or at the end
of any other frame. -/
theorem State.cell_moves {s t : State} {rx : Bool} (h : s.cell rx = .ok t) :
    (t.mem = s.mem ∨ (engineMayWrite s.params (s.base.toNat + s.done.toNat) = true
        ∧ ∃ v, t.mem = Memory.write s.mem (s.base.toNat + s.done.toNat) v))
    ∧ t.params = s.params ∧ t.br = s.br ∧ t.con = s.con ∧ t.ms = s.ms ∧ t.cfgv = s.cfgv
    ∧ t.len = s.len ∧ t.base = s.base ∧ t.pisel = s.pisel ∧ t.fault = s.fault
    ∧ t.inputs = s.inputs ∧ t.response = s.response ∧ t.hostData = s.hostData
    ∧ s.trace <+: t.trace
    ∧ ((t.phase = s.phase ∧ t.done = s.done ∧ s.bitpos.toNat ≠ s.width - 1
          ∧ t.bitpos = s.bitpos + 1#3 ∧ t.baudcnt = s.baudcnt)
      ∨ (t.phase = .enabledIdle ∧ t.done = s.done + 1#8 ∧ t.done = s.len)
      ∨ (t.phase = s.phase ∧ t.done = s.done + 1#8 ∧ t.done ≠ s.len ∧ t.bitpos = 0#3
          ∧ t.baudcnt = s.br)) := by
  rcases State.cell_ok h with ⟨h1, rfl⟩ | ⟨-, h2, h3⟩
  · exact ⟨.inl rfl, rfl, rfl, rfl, rfl, rfl, rfl, rfl, rfl, rfl, rfl, rfl, rfl, ⟨_, rfl⟩,
      .inl ⟨rfl, rfl, h1, rfl, rfl⟩⟩
  · rcases State.advance_ok h3 with ⟨h4, rfl⟩ | ⟨h4, a, -, -, rfl⟩
    · exact ⟨.inr ⟨h2, _, rfl⟩, rfl, rfl, rfl, rfl, rfl, rfl, rfl, rfl, rfl, rfl, rfl, rfl,
        by simp [State.writtenBack, State.shifted], .inr (.inl ⟨rfl, rfl, h4⟩)⟩
    · exact ⟨.inr ⟨h2, _, rfl⟩, rfl, rfl, rfl, rfl, rfl, rfl, rfl, rfl, rfl, rfl, rfl, rfl,
        by simp [State.writtenBack, State.shifted], .inr (.inr ⟨rfl, rfl, h4, rfl, rfl⟩)⟩

/-- What a TICK can do: nothing, count down, or a cell. -/
theorem onTick_cases (rx : Bool) (s : State) :
    onTick rx s = s
    ∨ (s.phase = .enabledBusy ∧ s.isMaster = true ∧ s.baudcnt ≠ 0#16
      ∧ onTick rx s = { s with baudcnt := s.baudcnt - 1#16 })
    ∨ (s.phase = .enabledBusy ∧ s.isMaster = true ∧ s.baudcnt = 0#16
      ∧ onTick rx s = s.commit ({ s with baudcnt := s.br }.cell rx)) := by
  unfold onTick
  split
  · rename_i h
    simp only [Bool.and_eq_true, State.bsy, beq_iff_eq] at h
    split
    · exact .inr (.inr ⟨h.1, h.2, ‹_›, rfl⟩)
    · exact .inr (.inl ⟨h.1, h.2, ‹_›, rfl⟩)
  · exact .inl rfl

/-- What an EXT_CELL can do: nothing, or a cell. -/
theorem onExtCell_cases (rx : Bool) (s : State) :
    onExtCell rx s = s
    ∨ (s.phase = .enabledBusy ∧ s.isMaster = false ∧ onExtCell rx s = s.commit (s.cell rx)) := by
  unfold onExtCell
  split
  · rename_i h
    simp only [Bool.and_eq_true, State.bsy, beq_iff_eq, Bool.not_eq_true'] at h
    exact .inr ⟨h.1, h.2, rfl⟩
  · exact .inl rfl

/-! ### The commands -/

/-- What a command can do: be refused, answer with PHASE or registers it names changed, start a
transfer, or raise a fault. -/
theorem exec_cases {i : Instr} {s t : State} (h : exec i s = .next t) :
    (∃ st r, t = s.answer st r)
    ∨ (∃ f, t = s.raiseFault f)
    ∨ (∃ br con m, i = .init br con m ∧ frameByteLegal s.params con = true
        ∧ t = { s.toDisabled with br := br, con := con, ms := m, cfgv := true }.answer .ok 0#16)
    ∨ (∃ sel, i = .ports sel ∧ s.phase = .disabled ∧ t = { s with pisel := sel }.answer .ok 0#16)
    ∨ (i = .enable ∧ s.phase = .disabled ∧ s.cfgv = true
        ∧ t = { s with phase := .enabledIdle }.answer .ok 0#16)
    ∨ (i = .disable ∧ t = s.toDisabled.answer .ok 0#16)
    ∨ (∃ base len, i = .talk base len ∧ s.phase = .enabledIdle ∧ len ≠ 0#8
        ∧ s.startTransfer base len = .ok t) := by
  cases i with
  | init br con m =>
    simp only [exec, execInit, Host.Outcome.next.injEq] at h
    split at h
    · exact .inr (.inr (.inl ⟨br, con, m, rfl, ‹_›, h.symm⟩))
    · exact .inl ⟨_, _, h.symm⟩
  | ports sel =>
    simp only [exec, execPorts, Host.Outcome.next.injEq] at h
    split at h
    · exact .inr (.inr (.inr (.inl ⟨sel, rfl, ‹_›, h.symm⟩)))
    all_goals
      rcases s.misuse_cases .ports with ⟨-, hm⟩ | ⟨-, hm⟩
      · exact .inr (.inl ⟨_, by rw [← h, hm]⟩)
      · exact .inl ⟨_, _, by rw [← h, hm]⟩
  | enable =>
    simp only [exec, execEnable, Host.Outcome.next.injEq] at h
    split at h
    · split at h
      · exact .inr (.inr (.inr (.inr (.inl ⟨rfl, ‹_›, ‹_›, h.symm⟩))))
      · exact .inl ⟨_, _, h.symm⟩
    all_goals exact .inl ⟨_, _, h.symm⟩
  | disable =>
    simp only [exec, execDisable, Host.Outcome.next.injEq] at h
    exact .inr (.inr (.inr (.inr (.inr (.inl ⟨rfl, h.symm⟩)))))
  | talk base len =>
    simp only [exec, execTalk, Host.Outcome.next.injEq] at h
    split at h
    · split at h
      · exact .inl ⟨_, _, h.symm⟩
      · rcases s.commit_cases (s.startTransfer base len) with ⟨u, hu, hc⟩ | ⟨f, -, hc⟩
        · refine .inr (.inr (.inr (.inr (.inr (.inr ⟨base, len, rfl, ‹_›, ‹_›, ?_⟩)))))
          rw [hu, ← h, hc]
        · exact .inr (.inl ⟨f, by rw [← h, hc]⟩)
    all_goals
      rcases s.misuse_cases .talk with ⟨-, hm⟩ | ⟨-, hm⟩
      · exact .inr (.inl ⟨_, by rw [← h, hm]⟩)
      · exact .inl ⟨_, _, by rw [← h, hm]⟩
  | busy => simp only [exec, execBusy, Host.Outcome.next.injEq] at h; exact .inl ⟨_, _, h.symm⟩
  | count => simp only [exec, execCount, Host.Outcome.next.injEq] at h; exact .inl ⟨_, _, h.symm⟩
  | encodeBaud bps f m =>
    simp only [exec, execEncodeBaud, Host.Outcome.next.injEq] at h
    split at h <;> exact .inl ⟨_, _, h.symm⟩
  | encodeFrame w o ph po d =>
    simp only [exec, execEncodeFrame, Host.Outcome.next.injEq] at h
    split at h <;> exact .inl ⟨_, _, h.symm⟩
  | selectPorts rst tsr clk =>
    simp only [exec, execSelectPorts, Host.Outcome.next.injEq] at h
    split at h <;> exact .inl ⟨_, _, h.symm⟩

/-- A TALK that starts a transfer: what it writes. -/
theorem State.startTransfer_ok {s t : State} {base : Half} {len : Byte}
    (h : s.startTransfer base len = .ok t) :
    engineMayRead s.params base.toNat = true ∧ t = { s with
      phase := .enabledBusy
      base := base
      len := len
      done := 0#8
      sr := s.byteAt base.toNat
      bitpos := 0#3
      baudcnt := s.br
      response := some ⟨.ok, 0#16⟩
      trace := s.trace ++ [.engineRead base.toNat (s.byteAt base.toNat)]
        ++ [.response ⟨.ok, 0#16⟩] } := by
  unfold State.startTransfer at h
  split at h
  · cases h
  · obtain ⟨hr, rfl⟩ := State.startFrame_ok ‹_›
    cases h; exact ⟨hr, rfl⟩

/-! ### One step -/

/-- What a step can do: nothing, or take the first event in one of the ways an event has. -/
theorem step_cases {s t : State} (h : step s = .next t) :
    (s.inputs = [] ∧ t = s)
    ∨ ∃ e rest, s.inputs = e :: rest ∧
      ((∃ w i, e = .command w ∧ s.fault = none ∧ decode w = .command i
          ∧ exec i ((s.takeInput rest).emit (.command w)) = .next t)
        ∨ (∃ w why, e = .command w ∧ s.fault = none ∧ decode w = .illegal why
          ∧ t = ((s.takeInput rest).emit (.command w)).answer .illegalCommand 0#16)
        ∨ (∃ rx, e = .tick rx ∧ s.fault = none ∧ t = onTick rx (s.takeInput rest))
        ∨ (∃ rx, e = .extCell rx ∧ s.fault = none ∧ t = onExtCell rx (s.takeInput rest))
        ∨ (∃ a, e = .hostRead a ∧ t = onHostRead a (s.takeInput rest))
        ∨ (∃ a v, e = .hostWrite a v ∧ t = onHostWrite a v (s.takeInput rest))
        ∨ (e = .reset ∧ t = (s.takeInput rest).applyReset)
        ∨ (s.fault.isSome = true ∧ e ≠ .reset ∧ t = s.takeInput rest)) := by
  unfold step at h
  split at h
  · exact .inl ⟨‹_›, by cases h; rfl⟩
  rename_i e rest hin
  refine .inr ⟨e, rest, hin, ?_⟩
  cases e with
  | command w =>
    cases hf : s.fault with
    | some f =>
      simp only [stepInput, State.takeInput_fault, hf, Option.isSome_some, if_true,
        Host.Outcome.next.injEq] at h
      simp [h]
    | none =>
      simp only [stepInput, State.takeInput_fault, hf, Option.isSome_none, Bool.false_eq_true,
        if_false, stepCommand, fetch, State.accept_eq] at h
      split at h
      · exact .inl ⟨w, _, rfl, rfl, ‹_›, h⟩
      · exact .inr (.inl ⟨w, _, rfl, rfl, ‹_›, by cases h; rfl⟩)
  | tick rx =>
    cases hf : s.fault <;> simp [stepInput, hf] at h <;> simp [h]
  | extCell rx =>
    cases hf : s.fault <;> simp [stepInput, hf] at h <;> simp [h]
  | hostRead a =>
    exact .inr (.inr (.inr (.inr (.inl ⟨a, rfl, by cases h; rfl⟩))))
  | hostWrite a v =>
    exact .inr (.inr (.inr (.inr (.inr (.inl ⟨a, v, rfl, by cases h; rfl⟩)))))
  | reset =>
    exact .inr (.inr (.inr (.inr (.inr (.inr (.inl ⟨rfl, by cases h; rfl⟩))))))

end Sys2Proof.Machine
end

