-- ==== Sys2Proof/Laws/PerInstr.lean ====
section
/-! SUPPORT. Statements about every command as syntax: the encoding of each is selected by its own row
of the opcode table (30_encoding.md R82). -/

namespace Sys2Proof.Laws.EncodingSelectsRow

/-- The row of the command's opcode is in the table and selects the command's encoding. -/
def Statement (i : Instr) : Prop :=
  ∃ r ∈ opcodeTable, r.op = i.opcode ∧ r.selects (encode i) = true

/-- A word masked to its low byte and its reserved bits, compared bit by bit. -/
theorem masked {c m v : Word64} (h : ∀ k, k < 64 → (c.getLsbD k && m.getLsbD k) = v.getLsbD k) :
    (c &&& m == v) = true := by
  simpa using BitVec.eq_of_getLsbD_eq fun k hk => by simpa using h k hk

theorem init (br : Half) (con : Byte) (m : Bit) :
    Statement (.init br con m) :=
  ⟨opcodeTable[0], by decide, rfl, masked (by
    intro k hk
    simp only [encode, BitVec.getLsbD_append, opcodeTable, List.getElem_cons_zero]
    interval_cases k <;> simp)⟩

theorem ports (sel : Byte) :
    Statement (.ports sel) :=
  ⟨opcodeTable[1], by decide, rfl, masked (by
    intro k hk
    simp only [encode, BitVec.getLsbD_append, opcodeTable, List.getElem_cons_zero,
      List.getElem_cons_succ]
    interval_cases k <;> simp)⟩

theorem enable : Statement .enable :=
  ⟨opcodeTable[2], by decide, rfl, by decide⟩

theorem disable : Statement .disable :=
  ⟨opcodeTable[3], by decide, rfl, by decide⟩

theorem talk (base : Half) (len : Byte) :
    Statement (.talk base len) :=
  ⟨opcodeTable[4], by decide, rfl, masked (by
    intro k hk
    simp only [encode, BitVec.getLsbD_append, opcodeTable, List.getElem_cons_zero,
      List.getElem_cons_succ]
    interval_cases k <;> simp)⟩

theorem busy : Statement .busy :=
  ⟨opcodeTable[5], by decide, rfl, by decide⟩

theorem count : Statement .count :=
  ⟨opcodeTable[6], by decide, rfl, by decide⟩

theorem encodeBaud (bps f : BitVec 24) (m : Bit) :
    Statement (.encodeBaud bps f m) :=
  ⟨opcodeTable[7], by decide, rfl, masked (by
    intro k hk
    simp only [encode, BitVec.getLsbD_append, opcodeTable, List.getElem_cons_zero,
      List.getElem_cons_succ]
    interval_cases k <;> simp)⟩

theorem encodeFrame (width : BitVec 4) (order phase pol duplex : Bit) :
    Statement (.encodeFrame width order phase pol duplex) :=
  ⟨opcodeTable[8], by decide, rfl, masked (by
    intro k hk
    simp only [encode, BitVec.getLsbD_append, opcodeTable, List.getElem_cons_zero,
      List.getElem_cons_succ]
    interval_cases k <;> simp)⟩

theorem selectPorts (rst tsr clk : BitVec 2) :
    Statement (.selectPorts rst tsr clk) :=
  ⟨opcodeTable[9], by decide, rfl, masked (by
    intro k hk
    simp only [encode, BitVec.getLsbD_append, opcodeTable, List.getElem_cons_zero,
      List.getElem_cons_succ]
    interval_cases k <;> simp)⟩

/-- The case split over the commands. -/
theorem all (i : Instr) : Statement i := by
  cases i with
  | init br con m => exact init br con m
  | ports sel => exact ports sel
  | enable => exact enable
  | disable => exact disable
  | talk base len => exact talk base len
  | busy => exact busy
  | count => exact count
  | encodeBaud bps f m => exact encodeBaud bps f m
  | encodeFrame width order phase pol duplex => exact encodeFrame width order phase pol duplex
  | selectPorts rst tsr clk => exact selectPorts rst tsr clk

end Sys2Proof.Laws.EncodingSelectsRow
end

