-- ==== Sys2Proof/Laws/Run.lean ====
section
/-! SUPPORT. Runs of the machine, taken apart at their last step and at any point, and what the history
of a transfer says of the states it passes (60_exceptions.md R178). -/

namespace Sys2Proof.Machine

/-- A run of one more step, of any machine: the run, then a step. -/
theorem core_run_succ (M : Host.Core) (k : Nat) (s t : M.State) :
    M.run (k + 1) s = .next t ↔ ∃ v, M.run k s = .next v ∧ M.step v = .next t := by
  induction k generalizing s with
  | zero => cases h : M.step s <;> simp [Host.Core.run, h]
  | succ k ih =>
    rw [Host.Core.run]
    cases h : M.step s with
    | next u => simp only [Host.Core.run, h]; exact ih u
    | fault r => simp [Host.Core.run, h]
    | refused r => simp [Host.Core.run, h]

/-- A run of one more step: the run, then a step. -/
theorem run_succ {k : Nat} {s t : State} :
    core.run (k + 1) s = .next t ↔ ∃ v, core.run k s = .next v ∧ step v = .next t :=
  core_run_succ core k s t

/-- A run goes to one state only. -/
theorem run_unique {k : Nat} {s t t' : State} (h : core.run k s = .next t)
    (h' : core.run k s = .next t') : t = t' := by
  rw [h] at h'; exact Host.Outcome.next.inj h'

/-- A TALK starts one transfer only. -/
theorem State.StartsTransfer.unique {s u u' : State} (h : s.StartsTransfer u)
    (h' : s.StartsTransfer u') : u = u' := by
  have he := h.stepped
  rw [h'.stepped] at he; exact (Host.Outcome.next.inj he).symm

/-- In flight, a run is Enabled-Busy where it is. -/
theorem State.InFlightFor.busy {u v : State} {j k : Nat} (h : u.InFlightFor k) (hj : j < k)
    (hv : core.run j u = .next v) : v.phase = .enabledBusy := by
  obtain ⟨w, hw, hb⟩ := h j hj
  rw [run_unique hv hw]; exact hb

/-- The state in which a transfer has ended well is the first after its TALK with R178's values. -/
theorem TransferEndedWell.first {s t : State} {k : Nat} (h : TransferEndedWell s k t) :
    ∃ u, s.StartsTransfer u ∧ core.run k u = .next t
      ∧ ∀ j v, j < k → core.run j u = .next v → ¬ v.AtGoodEnd := by
  obtain ⟨u, hs, hf, hr, -⟩ := h
  refine ⟨u, hs, hr, fun j v hj hv hg => ?_⟩
  have hb := hf.busy hj hv
  rw [hg.1] at hb; cases hb

end Sys2Proof.Machine
end

