-- ==== Sys2Proof/Tests/Slice0.lean ====
section
/-! SUPPORT. Tests of the model against spec/95_test_vectors.md (its vector names are cited), the
ill-formed terms its checks refuse, and for each statement with hypotheses a state that meets them. -/

namespace Sys2Proof.Tests

open Sys2Proof.Machine

/-! ### Helpers -/

/-- Every address. -/
def everywhere : List Region := [⟨0, 65535⟩]

/-- The example parameters of 95_test_vectors.md §2.3, every address admitted. -/
def exampleParams : Params where
  misusePolicy := .checked
  flagPos := ⟨4, 5, 6⟩
  masterBit := 1#1
  rst := .two 0x00#8 0x01#8
  tsr := .two 0x00#8 0x04#8
  clk := .three 0x00#8 0x10#8 0x20#8
  piselReset := 0x00#8
  srcFreq := 12000000
  readable := everywhere
  writable := everywhere

/-- Dis0: after reset, with the example parameters. -/
def dis0 : State := { State.reset with params := exampleParams, pisel := 0x00#8 }

/-- Dis1: configured as in LC2, Disabled. -/
def dis1 : State := { dis0 with cfgv := true, br := 11#16, con := 0x07#8, ms := 1#1 }

/-- I: Enabled-Idle, with the memory of program P1. -/
def idle : State :=
  { dis1 with phase := .enabledIdle, mem := [(0x0100, 0xAA#8), (0x0101, 0xBB#8)] }

/-- B: Enabled-Busy, right after P1's TALK. -/
def busy : State :=
  { idle with
    phase := .enabledBusy, base := 0x0100#16, len := 2#8, done := 0#8, sr := 0xAA#8,
    bitpos := 0#3, baudcnt := 11#16 }

/-- P1 just before TICK 96: seven of eight cells of frame 0 have looped back. -/
def busyLastCell : State := { busy with sr := 0x55#8, bitpos := 7#3, baudcnt := 0#16 }

/-- P4 right after its TALK: Slave, LSB-first, phase 1, polarity 1. -/
def slave : State :=
  { busy with
    br := 1#16, con := 0x67#8, ms := 0#1, base := 0x0400#16, len := 1#8, sr := 0x3C#8,
    baudcnt := 1#16, mem := [(0x0400, 0x3C#8)] }

/-- P5 after TICK 15: the byte at 0x0501 may not be written. -/
def blocked : State :=
  { busy with
    params := { exampleParams with writable := [⟨0, 0x0500⟩, ⟨0x0502, 65535⟩] }
    br := 0#16, con := 0x17#8, base := 0x0500#16, len := 2#8, done := 1#8, sr := 0x2A#8,
    bitpos := 7#3, baudcnt := 0#16, mem := [(0x0500, 0x55#8), (0x0501, 0x7E#8)] }

/-- EX10 in its last cell of frame 0: the next byte would be at 0x10000. -/
def atTop : State :=
  { busyLastCell with base := 0xFFFF#16, mem := [(0xFFFF, 0xAA#8)] }

/-- A block that has faulted. -/
def faulted : State := { busy with fault := some ⟨.memWrite, 0x0501⟩ }

/-- The same state with the MISUSE_POLICY of the original hardware. -/
def unchecked (s : State) : State :=
  { s with params := { exampleParams with misusePolicy := .fault } }

/-- The state with events waiting. -/
def withInputs (s : State) (l : List Input) : State := { s with inputs := l }

/-- The state a step answers. -/
def afterStep (s : State) : State :=
  match step s with
  | .next t => t
  | .fault _ => s
  | .refused _ => s

/-- The state after one event. -/
def onEvent (s : State) (e : Input) : State := afterStep (withInputs s [e])

/-- The response to one command word. -/
def respond (s : State) (w : Word64) : Option Response := (onEvent s (.command w)).response

/-! ### Well-formedness -/

theorem test_params_well_formed : exampleParams.wellFormed = true := by decide

theorem test_ill_formed_order_low :
    { exampleParams with flagPos := ⟨2, 5, 6⟩ : Params }.wellFormed = false := by decide
theorem test_ill_formed_order_high :
    { exampleParams with flagPos := ⟨7, 5, 6⟩ : Params }.wellFormed = false := by decide
theorem test_ill_formed_phase_low :
    { exampleParams with flagPos := ⟨4, 2, 6⟩ : Params }.wellFormed = false := by decide
theorem test_ill_formed_phase_high :
    { exampleParams with flagPos := ⟨4, 7, 6⟩ : Params }.wellFormed = false := by decide
theorem test_ill_formed_pol_low :
    { exampleParams with flagPos := ⟨4, 5, 2⟩ : Params }.wellFormed = false := by decide
theorem test_ill_formed_pol_high :
    { exampleParams with flagPos := ⟨4, 5, 7⟩ : Params }.wellFormed = false := by decide
theorem test_ill_formed_order_is_phase :
    { exampleParams with flagPos := ⟨4, 4, 6⟩ : Params }.wellFormed = false := by decide
theorem test_ill_formed_order_is_pol :
    { exampleParams with flagPos := ⟨4, 5, 4⟩ : Params }.wellFormed = false := by decide
theorem test_ill_formed_phase_is_pol :
    { exampleParams with flagPos := ⟨4, 5, 5⟩ : Params }.wellFormed = false := by decide
theorem test_ill_formed_rst_meets_tsr :
    { exampleParams with rst := .two 0x00#8 0x04#8 : Params }.wellFormed = false := by decide
theorem test_ill_formed_rst_meets_clk :
    { exampleParams with rst := .two 0x00#8 0x10#8 : Params }.wellFormed = false := by decide
theorem test_ill_formed_tsr_meets_clk :
    { exampleParams with tsr := .two 0x00#8 0x20#8 : Params }.wellFormed = false := by decide

/-- Every command is well formed; these have operands the block refuses. -/
theorem test_commands_well_formed :
    (Instr.encodeFrame 9#4 0#1 0#1 0#1 0#1).wellFormed = true
      ∧ (Instr.selectPorts 3#2 3#2 3#2).wellFormed = true := by decide

/-- Opcodes outside the map (LC16, LC17, and the neighbours of the assigned ones). -/
theorem test_unassigned_opcodes_refused :
    decode 0x0000000000000000#64 = .illegal .unassignedOpcode
      ∧ decode 0x00000000000000FF#64 = .illegal .unassignedOpcode
      ∧ decode 0x0000000000000008#64 = .illegal .unassignedOpcode
      ∧ decode 0x000000000000000F#64 = .illegal .unassignedOpcode
      ∧ decode 0x0000000000000013#64 = .illegal .unassignedOpcode := by decide

/-- A reserved bit of each layout (LC14, PR10, LC15, TE5, EB19, EF12, PR5, and bit 8 of the layouts
without operands). -/
theorem test_reserved_bits_refused :
    decode 0x0000000207000B01#64 = .illegal .reservedBit
      ∧ decode 0x0000000025000102#64 = .illegal .reservedBit
      ∧ decode 0x0000000000000103#64 = .illegal .reservedBit
      ∧ decode 0x0000000000000104#64 = .illegal .reservedBit
      ∧ decode 0x0000000101020005#64 = .illegal .reservedBit
      ∧ decode 0x0000000000000106#64 = .illegal .reservedBit
      ∧ decode 0x0000000000000107#64 = .illegal .reservedBit
      ∧ decode 0x03B71B00B71B0010#64 = .illegal .reservedBit
      ∧ decode 0x0000000000018811#64 = .illegal .reservedBit
      ∧ decode 0x0000000000004012#64 = .illegal .reservedBit := by decide

/-- Seven bytes are no command word. -/
theorem test_short_word_refused :
    (decodeBytes [0x06#8, 0#8, 0#8, 0#8, 0#8, 0#8, 0#8]).1 = .illegal .shortWord := by decide

/-! ### Decoding: a word of each command, from the layouts and §2 of the vectors -/

/-- LC2, LC5: m at bit 32, con at 31..24, br at 23..8. -/
theorem test_decode_init :
    decode 0x0000000107000B01#64 = .command (.init 11#16 0x07#8 1#1)
      ∧ decode 0x0000000001000001#64 = .command (.init 0#16 0x01#8 0#1) := by decide
/-- PR6: sel at 31..24. -/
theorem test_decode_ports : decode 0x0000000025000002#64 = .command (.ports 0x25#8) := by decide
theorem test_decode_enable : decode 0x0000000000000003#64 = .command .enable := by decide
theorem test_decode_disable : decode 0x0000000000000004#64 = .command .disable := by decide
/-- TE1: len at 31..24, base at 23..8. -/
theorem test_decode_talk :
    decode 0x0000000002010005#64 = .command (.talk 0x0100#16 2#8) := by decide
theorem test_decode_busy : decode 0x0000000000000006#64 = .command .busy := by decide
theorem test_decode_count : decode 0x0000000000000007#64 = .command .count := by decide
/-- S1, EB4: m at 56, f at 55..32, bps at 31..8. -/
theorem test_decode_encode_baud :
    decode 0x01B71B000F424010#64 = .command (.encodeBaud 1000000#24 12000000#24 1#1)
      ∧ decode 0x00B71B005B8D8010#64 = .command (.encodeBaud 6000000#24 12000000#24 0#1) := by
  decide
/-- EF6, EF7, EF1: duplex, pol, phase, order at 15..12, width at 11..8. -/
theorem test_decode_encode_frame :
    decode 0x0000000000002511#64 = .command (.encodeFrame 5#4 0#1 1#1 0#1 0#1)
      ∧ decode 0x0000000000001411#64 = .command (.encodeFrame 4#4 1#1 0#1 0#1 0#1)
      ∧ decode 0x0000000000008811#64 = .command (.encodeFrame 8#4 0#1 0#1 0#1 1#1) := by decide
/-- PR1, PR3, PR4: clk, tsr, rst at 13..12, 11..10, 9..8. -/
theorem test_decode_select_ports :
    decode 0x0000000000002512#64 = .command (.selectPorts 1#2 1#2 2#2)
      ∧ decode 0x0000000000000212#64 = .command (.selectPorts 2#2 0#2 0#2)
      ∧ decode 0x0000000000003012#64 = .command (.selectPorts 0#2 0#2 3#2) := by decide

/-- The same words from the encoder (LC2, PR6, TE1, S1, EF6, PR1). -/
theorem test_encode :
    encode (.init 11#16 0x07#8 1#1) = 0x0000000107000B01#64
      ∧ encode (.ports 0x25#8) = 0x0000000025000002#64
      ∧ encode (.talk 0x0100#16 2#8) = 0x0000000002010005#64
      ∧ encode (.encodeBaud 1000000#24 12000000#24 1#1) = 0x01B71B000F424010#64
      ∧ encode (.encodeFrame 5#4 0#1 1#1 0#1 0#1) = 0x0000000000002511#64
      ∧ encode (.selectPorts 1#2 1#2 2#2) = 0x0000000000002512#64 := by decide

/-- Byte 0 of a carried word is its low byte (20_memory.md R50). -/
theorem test_bytes_little_endian :
    decodeBytes [0x05#8, 0x00#8, 0x01#8, 0x02#8, 0#8, 0#8, 0#8, 0#8, 0x06#8]
      = (.command (.talk 0x0100#16 2#8), [0x06#8]) := by decide

theorem test_table_word :
    decodeTableWord 64 0x0000000002010005 = some (.talk 0x0100#16 2#8)
      ∧ decodeTableWord 64 0x00000000000000FF = none := by decide

/-- The word placed at reset is the one the next step runs (LC1). -/
theorem test_fetch_word :
    (afterStep (State.reset.withFetchWord 64 0x0000000000000003)).response
      = some ⟨.illegalState, 0#16⟩ := by decide

/-! ### Configuration Encoder -/

/-- S1: divisor 11, and nothing else of the block changes. -/
theorem test_encode_baud_source :
    onEvent busy (.command 0x01B71B000F424010#64)
      = { busy with
          response := some ⟨.ok, 11#16⟩
          trace := [.command 0x01B71B000F424010#64, .response ⟨.ok, 11#16⟩] } := by decide
/-- EB1, EB3, EB4, EB6, EB15, EB16: zero rate, slave ceiling, divisor range. -/
theorem test_encode_baud_limits :
    respond dis0 0x01B71B0000000010#64 = some ⟨.invalidParameter, 0#16⟩
      ∧ respond dis0 0x00B71B00B71B0010#64 = some ⟨.invalidParameter, 0#16⟩
      ∧ respond dis0 0x00B71B005B8D8010#64 = some ⟨.ok, 1#16⟩
      ∧ respond dis0 0x01B71B000000B710#64 = some ⟨.invalidParameter, 0#16⟩
      ∧ respond dis0 0x0101000000000110#64 = some ⟨.ok, 65535#16⟩
      ∧ respond dis0 0x0101000100000110#64 = some ⟨.invalidParameter, 0#16⟩ := by decide
/-- S3, EF4, EF6, EF7: the places of the flags. -/
theorem test_encode_frame_packs :
    respond busy 0x0000000000008811#64 = some ⟨.ok, 0x0087#16⟩
      ∧ respond busy 0x0000000000007811#64 = some ⟨.ok, 0x0077#16⟩
      ∧ respond busy 0x0000000000002511#64 = some ⟨.ok, 0x0024#16⟩
      ∧ respond busy 0x0000000000001411#64 = some ⟨.ok, 0x0013#16⟩ := by decide
/-- EF3, EF8, EF9, EF10, EF11: the ends of the width's range. -/
theorem test_encode_frame_widths :
    respond dis0 0x0000000000000211#64 = some ⟨.ok, 0x0001#16⟩
      ∧ respond dis0 0x0000000000000111#64 = some ⟨.invalidParameter, 0#16⟩
      ∧ respond dis0 0x0000000000000911#64 = some ⟨.invalidParameter, 0#16⟩
      ∧ respond dis0 0x0000000000000011#64 = some ⟨.invalidParameter, 0#16⟩
      ∧ respond dis0 0x000000000000FF11#64 = some ⟨.invalidParameter, 0#16⟩ := by decide

/-! ### Port Router -/

/-- PR1, PR2. -/
theorem test_select_ports_packs :
    respond idle 0x0000000000002512#64 = some ⟨.ok, 0x0025#16⟩
      ∧ respond idle 0x0000000000000012#64 = some ⟨.ok, 0x0000#16⟩ := by decide
/-- PR3, PR4. -/
theorem test_select_ports_refuses :
    respond busy 0x0000000000000212#64 = some ⟨.invalidParameter, 0#16⟩
      ∧ respond busy 0x0000000000003012#64 = some ⟨.invalidParameter, 0#16⟩ := by decide
/-- PR9: any byte, before INIT. -/
theorem test_ports_disabled :
    onEvent dis0 (.command 0x00000000FF000002#64)
      = { dis0 with
          pisel := 0xFF#8
          response := some ⟨.ok, 0#16⟩
          trace := [.command 0x00000000FF000002#64, .response ⟨.ok, 0#16⟩] } := by decide
/-- PR8, EX5. -/
theorem test_ports_enabled :
    respond busy 0x0000000025000002#64 = some ⟨.illegalState, 0#16⟩
      ∧ (onEvent busy (.command 0x0000000025000002#64)).pisel = 0x00#8
      ∧ (onEvent (unchecked idle) (.command 0x0000000001000002#64)).fault = some ⟨.misuse, 0x02⟩
      ∧ respond (unchecked idle) 0x0000000001000002#64 = none := by decide

/-! ### Lifecycle -/

/-- LC12: a transfer in flight is aborted, and the new configuration is in place. -/
theorem test_init_busy :
    onEvent { busy with done := 1#8 } (.command 0x0000000067000501#64)
      = { busy with
          phase := .disabled
          br := 5#16
          con := 0x67#8
          ms := 0#1
          done := 1#8
          response := some ⟨.ok, 0#16⟩
          trace := [.command 0x0000000067000501#64, .abort 1#8, .response ⟨.ok, 0#16⟩] } := by decide
/-- LC3, LC4, LC5: width 1 and the reserved bit refused, width 2 accepted. -/
theorem test_init_refuses :
    respond idle 0x0000000100000B01#64 = some ⟨.invalidParameter, 0#16⟩
      ∧ (onEvent idle (.command 0x000000010F000B01#64)).phase = .enabledIdle
      ∧ respond idle 0x000000010F000B01#64 = some ⟨.invalidParameter, 0#16⟩
      ∧ respond idle 0x0000000001000001#64 = some ⟨.ok, 0#16⟩ := by decide
/-- LC1, LC6. -/
theorem test_enable_disabled :
    respond dis0 0x0000000000000003#64 = some ⟨.illegalState, 0#16⟩
      ∧ (onEvent dis0 (.command 0x0000000000000003#64)).phase = .disabled
      ∧ (onEvent dis1 (.command 0x0000000000000003#64)).phase = .enabledIdle := by decide
/-- LC8: a no-op while Enabled-Busy. -/
theorem test_enable_busy :
    onEvent busy (.command 0x0000000000000003#64)
      = { busy with
          response := some ⟨.ok, 0#16⟩
          trace := [.command 0x0000000000000003#64, .response ⟨.ok, 0#16⟩] } := by decide
/-- LC11: the abort tells DONE; no register and no byte is written. -/
theorem test_disable_busy :
    onEvent { busy with done := 1#8 } (.command 0x0000000000000004#64)
      = { busy with
          phase := .disabled
          done := 1#8
          response := some ⟨.ok, 0#16⟩
          trace := [.command 0x0000000000000004#64, .abort 1#8, .response ⟨.ok, 0#16⟩] } := by decide
/-- LC9, LC10: no abort without a transfer. -/
theorem test_disable_idle :
    (onEvent idle (.command 0x0000000000000004#64)).phase = .disabled
      ∧ (onEvent dis1 (.command 0x0000000000000004#64)).trace
        = [.command 0x0000000000000004#64, .response ⟨.ok, 0#16⟩] := by decide

/-! ### Transceive Engine -/

/-- TE1. -/
theorem test_talk_starts :
    onEvent { idle with done := 5#8 } (.command 0x0000000002010005#64)
      = { busy with
          response := some ⟨.ok, 0#16⟩
          trace := [.command 0x0000000002010005#64, .engineRead 0x0100 0xAA#8,
            .response ⟨.ok, 0#16⟩] } := by decide
/-- TE2, TE3, TE4: length 0 touches nothing; misuse comes first. -/
theorem test_talk_not_started :
    (onEvent { idle with done := 5#8 } (.command 0x0000000000020005#64)).done = 5#8
      ∧ respond idle 0x0000000000020005#64 = some ⟨.ok, 0#16⟩
      ∧ respond dis1 0x0000000000020005#64 = some ⟨.illegalState, 0#16⟩
      ∧ respond busy 0x0000000001020005#64 = some ⟨.illegalState, 0#16⟩ := by decide
/-- TE6, TE7. -/
theorem test_busy :
    respond busy 0x0000000000000006#64 = some ⟨.ok, 1#16⟩
      ∧ respond idle 0x0000000000000006#64 = some ⟨.ok, 0#16⟩
      ∧ respond dis0 0x0000000000000006#64 = some ⟨.ok, 0#16⟩ := by decide
/-- TE8, and DONE after an abort (P3). -/
theorem test_count :
    respond dis0 0x0000000000000007#64 = some ⟨.ok, 0#16⟩
      ∧ respond { dis1 with done := 255#8, len := 255#8 } 0x0000000000000007#64
        = some ⟨.ok, 255#16⟩ := by decide

/-- P1, TICKs 1 and 11: BAUDCNT counts down, no cell. -/
theorem test_tick_counts :
    onEvent busy (.tick true) = { busy with baudcnt := 10#16 }
      ∧ onEvent { busy with baudcnt := 1#16 } (.tick true) = { busy with baudcnt := 0#16 } := by
  decide
/-- P1, TICK 12: CELL(0, 0, 0, 0) and the reload. -/
theorem test_tick_cell :
    onEvent { busy with baudcnt := 0#16 } (.tick false)
      = { busy with
          sr := 0x55#8
          bitpos := 1#3
          baudcnt := 11#16
          trace := [.cell 0#8 0#3 false false .shiftLeadingLatchTrailing] } := by decide
/-- P1, TICK 96: frame 0 completes and byte 1 is loaded. -/
theorem test_tick_frame :
    onEvent busyLastCell (.tick true)
      = { busy with
          sr := 0xBB#8
          done := 1#8
          draws := 1
          trace := [.cell 0#8 7#3 true true .shiftLeadingLatchTrailing, .engineWrite 0x0100 0xAA#8,
            .frameDone 0#8 0xAA#8,
            .engineRead 0x0101 0xBB#8] } := by decide
/-- P4, its last EXT_CELL, whose CELL event has the edge order of phase 1; and a TICK in Slave mode. -/
theorem test_ext_cell_ends :
    onEvent { slave with sr := 0x02#8, bitpos := 7#3 } (.extCell true)
      = { slave with
          phase := .enabledIdle
          sr := 0x81#8
          bitpos := 0#3
          done := 1#8
          mem := [(0x0400, 0x81#8)]
          draws := 1
          trace := [.cell 0#8 7#3 false true .shiftTrailingLatchLeading, .engineWrite 0x0400 0x81#8,
            .frameDone 0#8 0x81#8] }
      ∧ onEvent slave (.tick true) = slave := by decide
/-- P4, step 7, and an EXT_CELL in Master mode: ignored. -/
theorem test_ext_cell_ignored :
    onEvent { slave with phase := .enabledIdle } (.extCell true)
        = { slave with phase := .enabledIdle }
      ∧ onEvent busy (.extCell true) = busy := by decide

/-- CE1, CE2, CE3, CE5, CE6, CE7: SR after the cells of one frame. -/
theorem test_frames_shift :
    [false, false, true, true, true, true, false, false].foldl (shiftCell exampleParams 0x17#8) 0xA5#8
        = 0x3C#8
      ∧ (List.replicate 8 false).foldl (shiftCell exampleParams 0x17#8) 0x01#8 = 0x00#8
      ∧ (List.replicate 8 false).foldl (shiftCell exampleParams 0x07#8) 0x01#8 = 0x00#8
      ∧ [false, true, true, false].foldl (shiftCell exampleParams 0x13#8) 0xF9#8 = 0xF6#8
      ∧ [false, true, true, false].foldl (shiftCell exampleParams 0x03#8) 0xF9#8 = 0xF6#8
      ∧ [true, false].foldl (shiftCell exampleParams 0x01#8) 0x02#8 = 0x01#8 := by decide
/-- CE1, CE2, CE3, CE5, CE7: the first bit transmitted. -/
theorem test_first_bit :
    txBit exampleParams 0x17#8 0xA5#8 = true ∧ txBit exampleParams 0x17#8 0x01#8 = false
      ∧ txBit exampleParams 0x07#8 0x01#8 = true ∧ txBit exampleParams 0x13#8 0xF9#8 = true
      ∧ txBit exampleParams 0x01#8 0x02#8 = false := by decide

/-! ### Faults, host accesses, reset -/

/-- TE9, EX1. -/
theorem test_talk_unreadable :
    onEvent { idle with params := { exampleParams with readable := [⟨0, 0x06FF⟩] } }
        (.command 0x0000000001070005#64)
      = { idle with
          params := { exampleParams with readable := [⟨0, 0x06FF⟩] }
          fault := some ⟨.memRead, 0x0700⟩
          trace := [.command 0x0000000001070005#64] } := by decide
/-- EX6. -/
theorem test_talk_misuse :
    onEvent (unchecked busy) (.command 0x0000000001020005#64)
      = { unchecked busy with
          fault := some ⟨.misuse, 0x05⟩
          trace := [.command 0x0000000001020005#64] } := by decide
/-- EX7. -/
theorem test_enable_never_misuse :
    respond (unchecked dis0) 0x0000000000000003#64 = some ⟨.illegalState, 0#16⟩ := by decide
/-- EX2 (P5, TICK 16): the whole step is discarded. -/
theorem test_unwritable_byte :
    onEvent blocked (.tick true) = { blocked with fault := some ⟨.memWrite, 0x0501⟩ } := by decide
/-- EX10: the write before the failing read is discarded too. -/
theorem test_read_past_top :
    onEvent atTop (.tick false) = { atTop with fault := some ⟨.memRead, 0x10000⟩ } := by decide
/-- EX3. -/
theorem test_host_races :
    onEvent { slave with base := 0x0600#16 } (.hostRead 0x0600#16)
        = { slave with base := 0x0600#16, fault := some ⟨.bufferRace, 0x0600⟩ }
      ∧ onEvent busy (.hostWrite 0x0101#16 1#8)
        = { busy with fault := some ⟨.bufferRace, 0x0101⟩ } := by decide
/-- EX4, and a write. -/
theorem test_host_ordinary :
    (onEvent { slave with base := 0x0600#16 } (.hostRead 0x05FF#16)).fault = none
      ∧ (onEvent { slave with base := 0x0600#16 } (.hostRead 0x0601#16)).fault = none
      ∧ (onEvent idle (.hostRead 0x0101#16)).hostData = some 0xBB#8
      ∧ (onEvent idle (.hostWrite 0x0101#16 0x12#8)).byteAt 0x0101 = 0x12#8 := by decide
/-- EX8. -/
theorem test_faulted_block_rests :
    onEvent faulted (.command 0x0000000000000007#64) = faulted
      ∧ onEvent faulted (.tick true) = faulted ∧ onEvent faulted (.extCell true) = faulted := by
  decide
/-- EX9, RS2: RESET clears FAULT, keeps memory, and emits no ABORT. -/
theorem test_reset :
    (onEvent faulted .reset).fault = none ∧ (onEvent faulted .reset).phase = .disabled
      ∧ (onEvent faulted .reset).cfgv = false ∧ (onEvent faulted .reset).done = 0#8
      ∧ (onEvent faulted .reset).mem = faulted.mem ∧ (onEvent faulted .reset).trace = [] := by decide
/-- An illegal word (LC16) changes nothing. -/
theorem test_illegal_word :
    onEvent busy (.command 0x0000000000000000#64)
      = { busy with
          response := some ⟨.illegalCommand, 0#16⟩
          trace := [.command 0#64, .response ⟨.illegalCommand, 0#16⟩] } := by decide
/-- Writing what an unlisted byte reads as takes the byte off the list. -/
theorem test_memory_canonical :
    (onEvent idle (.hostWrite 0x0100#16 0x00#8)).mem = [(0x0101, 0xBB#8)] := by decide

/-! ### Assembler -/

theorem test_assemble_init :
    assembleLine exampleParams
        "INIT BAUD(1000000), FRAME(8, LSB, 0, 0, HALF), MASTER ; boot".toList
      = .line (.command (.init 11#16 0x87#8 1#1)) := by decide
theorem test_assemble_lines :
    assembleLine exampleParams "TALK 0x0100, 2".toList = .line (.command (.talk 0x0100#16 2#8))
      ∧ assembleLine exampleParams "TICK 192".toList = .line (.tick 192)
      ∧ assembleLine exampleParams "EXT_CELL 1".toList = .line (.extCell true)
      ∧ assembleLine exampleParams "RESET".toList = .line .reset := by decide
/-- R91 for BAUD(0); the other rejections are the model's choice (log entry 20). -/
theorem test_assemble_rejects :
    assembleLine exampleParams "INIT BAUD(0), 0x87, MASTER".toList = .rejected .operandRange
      ∧ assembleLine exampleParams "PORTS 0x100".toList = .rejected .operandRange
      ∧ assembleLine exampleParams "SELECT_PORTS 4, 0, 0".toList = .rejected .operandRange
      ∧ assembleLine exampleParams "TICK BAUD(1000000)".toList = .rejected .unknownMnemonic
      ∧ assembleLine exampleParams "HALT".toList = .rejected .unknownMnemonic := by decide
/-- S8: 9600 and 115200. -/
theorem test_baud_operand : baudOperand 9600 = some 1249 ∧ baudOperand 115200 = some 103 := by decide

/-! ### Witnesses: the hypotheses of each statement are met together -/

/-- The invariant at Disabled. -/
theorem dis1_inv : dis1.Inv :=
  ⟨by decide, by decide, by decide, by decide, by decide, by decide, by decide, by decide⟩

/-- The invariant in a transfer, at the first and at the last cell of a frame. -/
theorem busy_inv : busy.Inv :=
  ⟨by decide, by decide, by decide, by decide, by decide, by decide, by decide, by decide⟩
theorem busyLastCell_inv : busyLastCell.Inv :=
  ⟨by decide, by decide, by decide, by decide, by decide, by decide, by decide, by decide⟩

/-- The bits P4's partner sends, with its EXT_CELLs waiting. -/
def slaveBits : List Bool := [true, false, false, false, false, false, false, true]
def slaveRun : State := withInputs slave (slaveBits.map .extCell ++ [.reset])

/-- P4's buffer sent back to itself. -/
def echoBits : List Bool := [false, false, true, true, true, true, false, false]
def echoRun : State := withInputs slave (echoBits.map .extCell)

/-- P1's transfer at BR = 1, with the 32 TICKs it needs (43_transceive.md R145). -/
def masterRun : State :=
  withInputs { busy with br := 1#16, baudcnt := 1#16 } ((List.replicate 32 true).map .tick)

/-- The state after `k` steps. -/
def afterSteps (k : Nat) (s : State) : State :=
  match core.run k s with
  | .next t => t
  | .fault _ => s
  | .refused _ => s

theorem slaveRun_start : slaveRun.AtTransferStart :=
  ⟨by decide, by decide, by decide, by decide, by decide, by decide, by decide,
    by unfold State.BufferAdmitted; decide⟩
theorem echoRun_start : echoRun.AtTransferStart :=
  ⟨by decide, by decide, by decide, by decide, by decide, by decide, by decide,
    by unfold State.BufferAdmitted; decide⟩
theorem masterRun_start : masterRun.AtTransferStart :=
  ⟨by decide, by decide, by decide, by decide, by decide, by decide, by decide,
    by unfold State.BufferAdmitted; decide⟩
theorem slaveRun_events : slaveRun.TransferEvents slaveBits [.reset] :=
  .inr ⟨by decide, rfl, by decide⟩
theorem echoRun_events : echoRun.TransferEvents echoBits [] := .inr ⟨by decide, rfl, by decide⟩
theorem masterRun_events : masterRun.TransferEvents (List.replicate 32 true) [] :=
  .inl ⟨by decide, rfl, by decide⟩

theorem test_witness_EncodeDecodeRoundTrip :
    decode 0x0000000002010005#64 = .command (.talk 0x0100#16 2#8) := by decide

theorem test_witness_TableSelectsDecodedOpcode :
    (⟨.talk, 0xFFFFFFFF000000FF#64, 0x05#64⟩ : TableRow) ∈ opcodeTable := by decide

theorem test_witness_EveryWordOneCommandOrIllegal :
    (withInputs busy [.command 0xFF#64]).fault = none
      ∧ (withInputs busy [.command 0xFF#64]).inputs = .command 0xFF#64 :: []
      ∧ ∀ r ∈ opcodeTable, r.selects 0xFF#64 = false := by decide

theorem test_witness_StepRunsDecodedCommand :
    (withInputs busy [.command 0x06#64, .reset]).fault = none
      ∧ (withInputs busy [.command 0x06#64, .reset]).inputs = .command 0x06#64 :: [.reset]
      ∧ decode 0x06#64 = .command .busy := by decide

theorem test_witness_StepTakesFirstEvent :
    busy.fault = none ∧ busy.inputs = []
      ∧ (withInputs busy [.tick true, .reset]).inputs = .tick true :: [.reset]
      ∧ (withInputs busy [.extCell true, .reset]).inputs = .extCell true :: [.reset]
      ∧ (withInputs busy [.hostRead 0#16, .reset]).inputs = .hostRead 0#16 :: [.reset]
      ∧ (withInputs busy [.hostWrite 0#16 1#8, .reset]).inputs = .hostWrite 0#16 1#8 :: [.reset]
      ∧ (withInputs busy [.reset, .reset]).inputs = .reset :: [.reset] := by decide

theorem test_witness_FaultedBlockTakesNoStep :
    faulted.fault = some ⟨.memWrite, 0x0501⟩
      ∧ (withInputs faulted [.command 0x06#64]).inputs = .command 0x06#64 :: []
      ∧ (withInputs faulted [.tick true]).inputs = .tick true :: []
      ∧ (withInputs faulted [.extCell true]).inputs = .extCell true :: []
      ∧ (withInputs faulted [.hostRead 0#16]).inputs = .hostRead 0#16 :: []
      ∧ (withInputs faulted [.hostWrite 0#16 1#8]).inputs = .hostWrite 0#16 1#8 :: []
      ∧ (withInputs faulted [.reset]).inputs = .reset :: [] := by decide

theorem test_witness_FaultStickyUntilReset :
    (withInputs faulted [.tick true]).fault = some ⟨.memWrite, 0x0501⟩
      ∧ step (withInputs faulted [.tick true]) = .next faulted
      ∧ step (withInputs faulted [.reset]) = .next (afterStep (withInputs faulted [.reset]))
      ∧ (withInputs faulted [.tick true]).inputs.head? ≠ some .reset
      ∧ (withInputs faulted [.reset]).inputs.head? = some .reset :=
  ⟨rfl, rfl, rfl, by decide, rfl⟩

/-- A state, its event and the fault the step raises: EX1, EX10, EX2, EX3, EX5, EX6. -/
def faultingSteps : List (State × Input × FaultRecord) :=
  let unreadable : State := { idle with params := { exampleParams with readable := [] } }
  let talk : Input := .command 0x0000000001070005#64
  let ports : Input := .command 0x0000000001000002#64
  [ (withInputs unreadable [talk], talk, ⟨.memRead, 0x0700⟩),
    (withInputs atTop [.tick true], .tick true, ⟨.memRead, 0x10000⟩),
    (withInputs blocked [.tick true], .tick true, ⟨.memWrite, 0x0501⟩),
    (withInputs busy [.hostRead 0x0101#16], .hostRead 0x0101#16, ⟨.bufferRace, 0x0101⟩),
    (withInputs (unchecked idle) [ports], ports, ⟨.misuse, 0x02⟩),
    (withInputs (unchecked busy) [talk], talk, ⟨.misuse, 0x05⟩) ]

/-- Every fault code is raised by one of them. -/
theorem test_witness_FaultingStepChangesOnlyFault :
    ∀ c ∈ faultingSteps, c.1.fault = none ∧ c.1.inputs = [c.2.1]
      ∧ step c.1 = .next (afterStep c.1) ∧ (afterStep c.1).fault = some c.2.2 := by
  intro c h
  simp only [faultingSteps, List.mem_cons, List.not_mem_nil, or_false] at h
  rcases h with rfl | rfl | rfl | rfl | rfl | rfl
  all_goals exact ⟨rfl, rfl, rfl, by decide⟩

theorem test_witness_EveryCommandAnswersOrFaults :
    busy.fault = none ∧ (unchecked busy).fault = none := by decide

theorem test_witness_ErrorStatusChangesNothing :
    exec (.ports 1#8) idle = .next (idle.answer .illegalState 0#16)
      ∧ (idle.answer .illegalState 0#16).response = some ⟨.illegalState, 0#16⟩
      ∧ (⟨.illegalState, 0#16⟩ : Response).status ≠ .ok := ⟨rfl, rfl, by decide⟩

theorem test_witness_NoUnlistedErrors :
    (exec .enable dis0 = .next (dis0.answer .illegalState 0#16)
      ∧ (dis0.answer .illegalState 0#16).response = some ⟨.illegalState, 0#16⟩)
    ∧ (exec (.encodeFrame 1#4 0#1 0#1 0#1 0#1) dis0 = .next (dis0.answer .invalidParameter 0#16)
      ∧ (dis0.answer .invalidParameter 0#16).response = some ⟨.invalidParameter, 0#16⟩) :=
  ⟨⟨rfl, rfl⟩, ⟨rfl, rfl⟩⟩

/-- EB4, EB5: the clauses on Slave and on 12 MHz. -/
theorem test_witness_EncodeBaudResult :
    (0#1 : Bit) ≠ dis0.params.masterBit ∧ (1#1 : Bit) = dis0.params.masterBit
      ∧ (⟨.ok, 1#16⟩ : Response).status = .ok
      ∧ respond dis0 0x00B71B005B8D8010#64 = some ⟨.ok, 1#16⟩
      ∧ respond dis0 0x01B71B000000B810#64 = some ⟨.ok, 65216#16⟩
      ∧ respond dis0 0x01B71B000000B710#64 = some ⟨.invalidParameter, 0#16⟩
      ∧ respond dis0 0x01B71B00B71B0010#64 = some ⟨.ok, 0#16⟩ := by decide

/-- EB8 (not exact) and EB7 (exact), and the largest divisor (EB15). -/
theorem test_witness_RealizedRateAtLeastRequested :
    baudDivisor true 115200 exampleParams.srcFreq = some 103
      ∧ baudDivisor true 9600 exampleParams.srcFreq = some 1249
      ∧ baudDivisor true 1 { exampleParams with srcFreq := 65536 : Params }.srcFreq
        = some 65535 := by decide

theorem test_witness_EncodeFrameResult :
    exampleParams.flagPos = ⟨4, 5, 6⟩ ∧ 2 ≤ (2#4).toNat ∧ (2#4).toNat ≤ 8 ∧ 2 ≤ (8#4).toNat
      ∧ (8#4).toNat ≤ 8 := by decide

/-- At the default flag positions and at others. -/
theorem test_witness_FrameByteFields :
    exampleParams.wellFormed = true
      ∧ { exampleParams with flagPos := ⟨3, 6, 4⟩ : Params }.wellFormed = true
      ∧ 2 ≤ (2#4).toNat ∧ (8#4).toNat ≤ 8 := by decide

theorem test_witness_EncodersLeaveBlockAlone :
    (Instr.encodeBaud 1#24 1#24 1#1).opcode = .encodeBaud
      ∧ (Instr.encodeFrame 8#4 0#1 0#1 0#1 1#1).opcode = .encodeFrame
      ∧ (Instr.selectPorts 0#2 0#2 0#2).opcode = .selectPorts
      ∧ dis0.params.wellFormed = true
      ∧ exec (.encodeFrame 8#4 0#1 0#1 0#1 1#1) dis0 = .next (dis0.answer .ok 0x0087#16)
      ∧ (dis0.answer .ok 0x0087#16).response = some ⟨.ok, 0x0087#16⟩ :=
  ⟨rfl, rfl, rfl, by decide, rfl, rfl⟩

/-- The last index of each role and the first beyond it. -/
theorem test_witness_SelectPortsResult :
    ¬ (1#2).toNat ≥ exampleParams.rst.codes.length ∧ (2#2).toNat ≥ exampleParams.rst.codes.length
      ∧ ¬ (2#2).toNat ≥ exampleParams.clk.codes.length
      ∧ (3#2).toNat ≥ exampleParams.clk.codes.length := by decide

theorem test_witness_PinGroupCodesDisjoint :
    exampleParams.wellFormed = true ∧ exampleParams.rst ∈ [exampleParams.rst]
      ∧ 0x01#8 ∈ exampleParams.rst.codes ∧ 0x04#8 ∈ exampleParams.tsr.codes
      ∧ 0x20#8 ∈ exampleParams.clk.codes := by decide

/-- The three ways of PORTS: Disabled, enabled, enabled under the other policy. -/
theorem test_witness_PortsResult :
    dis0.phase = .disabled ∧ (busy.phase ≠ .disabled ∧ busy.params.misusePolicy ≠ .fault)
      ∧ ((unchecked busy).phase ≠ .disabled ∧ (unchecked busy).params.misusePolicy = .fault) := by
  decide

theorem test_witness_InitResult :
    exampleParams.flagPos = ⟨4, 5, 6⟩ ∧ (0x08#8).extractLsb' 0 3 = 0#3
      ∧ reservedBitSet exampleParams 0x0F#8 = true ∧ reservedBitSet exampleParams 0xF7#8 = false := by
  decide

theorem test_witness_LifecycleIdempotent :
    Instr.enable.opcode = .enable ∧ Instr.disable.opcode = .disable
      ∧ (Instr.init 11#16 0x07#8 1#1).opcode = .init
      ∧ exec .disable busy = .next (busy.toDisabled.answer .ok 0#16) := ⟨rfl, rfl, rfl, rfl⟩

/-- Each kind of event, on a state where it moves PHASE or could. -/
theorem test_witness_PhaseMovesByTable :
    (∀ e ∈ ([.command 0x0000000107000B01#64, .command 0x03#64, .command 0x04#64,
        .command 0x0000000002010005#64, .command 0x06#64, .command 0xFF#64, .tick true, .extCell true,
        .reset, .hostRead 0#16, .hostWrite 0#16 1#8] : List Input),
      (withInputs idle [e]).fault = none ∧ (onEvent idle e).fault = none)
    ∧ (onEvent slave (.extCell true)).fault = none
    ∧ (onEvent { busyLastCell with len := 1#8 } (.tick true)).phase = .enabledIdle := by decide

/-- Events that leave a transfer alone, host accesses beside the buffer among them. -/
theorem test_witness_OtherEventsLeaveTransferAlone :
    busy.phase = .enabledBusy ∧ busy.fault = none
      ∧ busy.Undisturbed (.command 0xFF#64) ∧ busy.Undisturbed (.command 0x06#64)
      ∧ busy.Undisturbed (.command 0x0000000025000002#64)
      ∧ busy.Undisturbed (.command 0x0000000100000B01#64)
      ∧ busy.Undisturbed (.hostRead 0x00FF#16) ∧ busy.Undisturbed (.hostWrite 0x0102#16 1#8)
      ∧ busy.Undisturbed (.extCell true) ∧ slave.Undisturbed (.tick true) := by
  refine ⟨rfl, rfl, trivial, trivial, ?_, ?_, ?_, ?_, ?_, ?_⟩
  · show exampleParams.misusePolicy = .checked; rfl
  · show frameByteLegal exampleParams _ = false; decide
  · show ¬ _; decide
  · show ¬ _; decide
  · show busy.isMaster = true; decide
  · show slave.isMaster = false; decide

theorem test_witness_ConfigurationChangesOnlyByInit :
    step (withInputs busy [.tick true]) = .next { busy with baudcnt := 10#16 }
      ∧ (Input.command 0x0000000107000B01#64).instr? = some (.init 11#16 0x07#8 1#1) :=
  ⟨rfl, by decide⟩

theorem test_witness_RoutingAndValidityWriters :
    step (withInputs dis0 [.command 0x00000000FF000002#64])
      = .next (afterStep (withInputs dis0 [.command 0x00000000FF000002#64]))
      ∧ (Input.command 0x00000000FF000002#64).instr? = some (.ports 0xFF#8) := ⟨rfl, by decide⟩

/-- Each way of TALK: misuse under both policies, length 0, a transfer, an unreadable byte. -/
theorem test_witness_TalkResult :
    (unchecked busy).phase ≠ .enabledIdle ∧ (unchecked busy).params.misusePolicy = .fault
      ∧ busy.phase ≠ .enabledIdle ∧ busy.params.misusePolicy ≠ .fault
      ∧ idle.phase = .enabledIdle ∧ (255#8 : Byte) ≠ 0#8
      ∧ engineMayRead idle.params (0xFFFF#16).toNat = true
      ∧ engineMayRead { exampleParams with readable := [] } (0xFFFF#16).toNat = false := by decide

theorem test_witness_TickLaw :
    idle.phase ≠ .enabledBusy ∧ slave.isMaster = false
      ∧ (busy.phase = .enabledBusy ∧ busy.isMaster = true ∧ busy.baudcnt ≠ 0#16)
      ∧ (busyLastCell.phase = .enabledBusy ∧ busyLastCell.isMaster = true
        ∧ busyLastCell.baudcnt = 0#16)
      ∧ { busyLastCell with baudcnt := busyLastCell.br }.cell true = .ok (onTick true busyLastCell)
      ∧ { blocked with baudcnt := blocked.br }.cell true = .error ⟨.memWrite, 0x0501⟩ :=
  ⟨by decide, by decide, by decide, by decide, rfl, rfl⟩

theorem test_witness_ExtCellLaw :
    idle.phase ≠ .enabledBusy ∧ busy.isMaster = true
      ∧ (slave.phase = .enabledBusy ∧ slave.isMaster = false)
      ∧ slave.cell true = .ok (onExtCell true slave)
      ∧ { blocked with ms := 0#1 }.cell true = .error ⟨.memWrite, 0x0501⟩ :=
  ⟨by decide, by decide, by decide, rfl, rfl⟩

/-- Both orders; bits at and around the top of an 8-bit and of a 4-bit frame. -/
theorem test_witness_ShiftRegisterBits :
    isMsbFirst exampleParams 0x13#8 = true ∧ isMsbFirst exampleParams 0x03#8 = false
      ∧ frameWidth 0x13#8 = 4 ∧ frameWidth 0x17#8 = 8
      ∧ (shiftCell exampleParams 0x13#8 0xF9#8 true).getLsbD 0 = true
      ∧ (shiftCell exampleParams 0x13#8 0xF9#8 true).getLsbD 3 = false
      ∧ (shiftCell exampleParams 0x13#8 0xF9#8 true).getLsbD 4 = true
      ∧ (shiftCell exampleParams 0x03#8 0xF9#8 false).getLsbD 3 = false
      ∧ (shiftCell exampleParams 0x03#8 0xF9#8 false).getLsbD 2 = true := by decide

/-- The first cell of a frame and the last but one. -/
theorem test_witness_CellInsideFrame :
    busy.bitpos.toNat + 1 < busy.width
      ∧ { busy with bitpos := 6#3 }.bitpos.toNat + 1 < { busy with bitpos := 6#3 }.width := by decide

/-- Each clause: a write or a reload that is not admitted, the last frame, and one before it. -/
theorem test_witness_FrameCompletion :
    (Memory.wf blocked.mem = true ∧ blocked.bitpos.toNat + 1 = blocked.width
      ∧ blocked.done.toNat < blocked.len.toNat
      ∧ engineMayWrite blocked.params (blocked.base.toNat + blocked.done.toNat) = false)
    ∧ (Memory.wf atTop.mem = true ∧ atTop.bitpos.toNat + 1 = atTop.width
      ∧ atTop.done.toNat + 1 < atTop.len.toNat
      ∧ engineMayWrite atTop.params (atTop.base.toNat + atTop.done.toNat) = true
      ∧ engineMayRead atTop.params (atTop.base.toNat + atTop.done.toNat + 1) = false)
    ∧ (Memory.wf busyLastCell.mem = true ∧ busyLastCell.bitpos.toNat + 1 = busyLastCell.width
      ∧ busyLastCell.done.toNat + 1 < busyLastCell.len.toNat
      ∧ engineMayWrite busyLastCell.params (busyLastCell.base.toNat + busyLastCell.done.toNat) = true
      ∧ engineMayRead busyLastCell.params
          (busyLastCell.base.toNat + busyLastCell.done.toNat + 1) = true)
    ∧ (let s := { atTop with len := 1#8 }
      Memory.wf s.mem = true ∧ s.bitpos.toNat + 1 = s.width ∧ s.done.toNat < s.len.toNat
        ∧ engineMayWrite s.params (s.base.toNat + s.done.toNat) = true
        ∧ ¬ s.done.toNat + 1 < s.len.toNat) := by decide

theorem test_witness_FrameExchangesBits :
    [false, true, true, false].length = frameWidth 0x13#8 ∧ 3 < frameWidth 0x13#8
      ∧ frameWidth 0x13#8 ≤ 4 := by decide

theorem test_witness_EngineIgnoresClockDuplexRouting : busy.params.wellFormed = true := by decide

/-- P1's TALK with an event after it. -/
def talkThen (e : Input) : State :=
  withInputs idle [.command 0x0000000002010005#64, e]

theorem talkThen_starts (e : Input) : (talkThen e).StartsTransfer (afterStep (talkThen e)) :=
  ⟨rfl, rfl, rfl, .command 0x0000000002010005#64, [e], 0x0100#16, 2#8, rfl, by decide⟩

theorem talkThen_inFlight (e : Input) : (afterStep (talkThen e)).InFlightFor 1 := by
  intro j hj
  obtain rfl : j = 0 := by omega
  exact ⟨_, rfl, rfl⟩

theorem talkThen_inv (e : Input) : (afterStep (talkThen e)).Inv :=
  ⟨rfl, by show exampleParams.wellFormed = true; decide,
    fun _ => by show frameByteLegal exampleParams 0x07#8 = true; decide, fun _ => rfl,
    by show (0#8).toNat ≤ (2#8).toNat; decide,
    fun _ => by show (0#8).toNat < (2#8).toNat; decide,
    fun _ => by show (0#3).toNat < frameWidth 0x07#8; decide, fun _ => le_rfl⟩

/-- Every state in flight; and a TALK followed by DISABLE, by INIT (LC12), by RESET (RS2). -/
theorem test_witness_AbortIsNoSuccess :
    (busy.Inv ∧ busy.phase = .enabledBusy ∧ frameByteLegal busy.params 0x07#8 = true)
    ∧ (∀ e : Input, (talkThen e).StartsTransfer (afterStep (talkThen e))
      ∧ (afterStep (talkThen e)).InFlightFor (0 + 1)
      ∧ core.run 0 (afterStep (talkThen e)) = .next (afterStep (talkThen e))
      ∧ (afterStep (talkThen e)).Inv ∧ (afterStep (talkThen e)).fault = none
      ∧ (afterStep (talkThen e)).inputs = [e])
    ∧ decode 0x0000000000000004#64 = .command .disable
    ∧ decode 0x0000000107000B01#64 = .command (.init 11#16 0x07#8 1#1) :=
  ⟨⟨busy_inv, by decide, by decide⟩,
    fun e => ⟨talkThen_starts e, talkThen_inFlight e, rfl, talkThen_inv e, rfl, rfl⟩,
    by decide, by decide⟩

/-- P1's TALK and a DISABLE right after it (R178): the transfer has been aborted. -/
theorem test_transfer_aborted :
    TransferAborted (talkThen (.command 0x0000000000000004#64)) 0
      (afterStep (afterStep (talkThen (.command 0x0000000000000004#64)))) :=
  ⟨_, _, talkThen_starts _, talkThen_inFlight _, rfl, rfl,
    ⟨_, _, rfl, .inl (by decide)⟩, rfl, by decide⟩

/-- P4's TALK with the transfer's events waiting. -/
def talkRun : State :=
  { slaveRun with
    phase := .enabledIdle, base := 0#16, len := 0#8, sr := 0#8, baudcnt := 0#16
    inputs := .command 0x0000000001040005#64 :: slaveRun.inputs }

theorem talkRun_starts : talkRun.StartsTransfer (afterStep talkRun) :=
  ⟨rfl, rfl, rfl, .command 0x0000000001040005#64, slaveRun.inputs, 0x0400#16, 1#8, rfl, by decide⟩

/-- P4 (R178): the transfer has ended well with its eighth EXT_CELL. -/
theorem test_transfer_ended_well :
    TransferEndedWell talkRun 8 (afterSteps 8 (afterStep talkRun)) := by
  refine ⟨_, talkRun_starts, fun j hj => ?_, rfl, by decide, by decide, by decide⟩
  refine ⟨afterSteps j (afterStep talkRun), ?_, ?_⟩ <;> interval_cases j <;> rfl

/-- Up to the top of memory. -/
theorem test_witness_TalkReachesTransferStart :
    idle.phase = .enabledIdle ∧ idle.fault = none ∧ (2#8 : Byte) ≠ 0#8
      ∧ ∀ i, i < (2#8).toNat → engineMayRead idle.params ((0xFFFE#16).toNat + i) = true
        ∧ engineMayWrite idle.params ((0xFFFE#16).toNat + i) = true := by decide

theorem test_witness_TransferEndsOnTime :
    (slaveRun.AtTransferStart ∧ slaveRun.TransferEvents slaveBits [.reset])
      ∧ (masterRun.AtTransferStart ∧ masterRun.TransferEvents (List.replicate 32 true) [])
      ∧ ((afterStep talkRun).AtTransferStart
        ∧ (afterStep talkRun).TransferEvents slaveBits [.reset]
        ∧ talkRun.StartsTransfer (afterStep talkRun)) :=
  ⟨⟨slaveRun_start, slaveRun_events⟩, ⟨masterRun_start, masterRun_events⟩,
    ⟨by decide, by decide, by decide, by decide, by decide, by decide, by decide,
      by unfold State.BufferAdmitted; decide⟩, .inr ⟨by decide, rfl, by decide⟩, talkRun_starts⟩

/-- P4's transfer. -/
theorem test_witness_TransferExchangesBuffer :
    Memory.wf slaveRun.mem = true ∧ slaveRun.AtTransferStart
      ∧ slaveRun.TransferEvents slaveBits [.reset]
      ∧ core.run slaveBits.length slaveRun = .next (afterSteps 8 slaveRun) :=
  ⟨by decide, slaveRun_start, slaveRun_events, rfl⟩
theorem test_witness_TransferEmitsCompletionEvents :
    Memory.wf slaveRun.mem = true ∧ slaveRun.AtTransferStart
      ∧ slaveRun.TransferEvents slaveBits [.reset]
      ∧ core.run slaveBits.length slaveRun = .next (afterSteps 8 slaveRun) :=
  test_witness_TransferExchangesBuffer
theorem test_witness_TransferMakesTheseAccesses :
    Memory.wf slaveRun.mem = true ∧ slaveRun.AtTransferStart
      ∧ slaveRun.TransferEvents slaveBits [.reset]
      ∧ core.run slaveBits.length slaveRun = .next (afterSteps 8 slaveRun) :=
  test_witness_TransferExchangesBuffer

/-- A cell of the event received the bit it transmitted. -/
def loopsBack : Event → Bool
  | .cell _ _ tx rx _ => rx == tx
  | _ => true

theorem test_witness_LoopbackKeepsBuffer :
    Memory.wf echoRun.mem = true ∧ echoRun.AtTransferStart ∧ echoRun.TransferEvents echoBits []
      ∧ core.run echoBits.length echoRun = .next (afterSteps 8 echoRun)
      ∧ (afterSteps 8 echoRun).trace = echoRun.trace ++ (afterSteps 8 echoRun).trace
      ∧ (∀ i j tx rx edges, Event.cell i j tx rx edges ∈ (afterSteps 8 echoRun).trace → rx = tx)
      ∧ echoRun.width = 8 := by
  refine ⟨by decide, echoRun_start, echoRun_events, rfl, rfl, fun i j tx rx edges h => ?_, by decide⟩
  have hall : ∀ e ∈ (afterSteps 8 echoRun).trace, loopsBack e = true := by decide
  simpa [loopsBack] using hall _ h

theorem test_witness_LinesAndEdgesOfConfiguration :
    isHalfDuplex busy.con = false ∧ isHalfDuplex { busy with con := 0x87#8 }.con = true := by decide

/-- The two ends of the buffer race, the addresses beside them do not. -/
theorem test_witness_HostAccessLaw :
    busy.fault = none ∧ Memory.wf busy.mem = true ∧ busy.phase = .enabledBusy
      ∧ busy.base.toNat ≤ (0x0100#16).toNat
      ∧ (0x0101#16).toNat < busy.base.toNat + busy.len.toNat
      ∧ ¬ busy.base.toNat ≤ (0x00FF#16).toNat
      ∧ ¬ (0x0102#16).toNat < busy.base.toNat + busy.len.toNat := by decide

theorem test_witness_MemoryWrittenOnlyInPlace :
    Memory.wf idle.mem = true
      ∧ step (withInputs idle [.hostWrite 0xFFFF#16 7#8])
        = .next (onEvent idle (.hostWrite 0xFFFF#16 7#8))
      ∧ (onEvent idle (.hostWrite 0xFFFF#16 7#8)).byteAt 0xFFFF ≠ idle.byteAt 0xFFFF
      ∧ step (withInputs { busyLastCell with sr := 0x54#8 } [.tick true])
        = .next (onEvent { busyLastCell with sr := 0x54#8 } (.tick true))
      ∧ (onEvent { busyLastCell with sr := 0x56#8 } (.tick true)).byteAt 0x0100
        ≠ busyLastCell.byteAt 0x0100 := ⟨by decide, rfl, by decide, rfl, by decide⟩

theorem test_witness_EqualReadsEqualMemory :
    Memory.wf busy.mem = true ∧ ∀ a, Memory.read busy.mem a = Memory.read busy.mem a :=
  ⟨by decide, fun _ => rfl⟩

/-- A block that has faulted in P5, at both ends of memory. -/
theorem test_witness_BootOrderStartsTransfer :
    frameByteLegal faulted.params 0x17#8 = true ∧ (1#8 : Byte) ≠ 0#8
      ∧ engineMayRead faulted.params (0x0000#16).toNat = true
      ∧ engineMayRead faulted.params (0xFFFF#16).toNat = true
      ∧ (withInputs faulted [.reset, .command (encode (.init 0#16 0x17#8 1#1)),
          .command (encode .enable), .command (encode (.talk 0xFFFF#16 1#8)), .reset]).inputs
        = .reset :: .command (encode (.init 0#16 0x17#8 1#1)) :: .command (encode .enable)
          :: .command (encode (.talk 0xFFFF#16 1#8)) :: [.reset] := by decide

/-- Two blocks after RESET with different dead registers. -/
theorem test_witness_NoUnspecifiedValueRead :
    (dis0.phase ≠ .disabled → dis0.cfgv = true)
      ∧ dis0.AgreeLive { dis0 with br := 3#16, con := 0xFF#8, ms := 1#1, sr := 9#8, len := 4#8 }
      ∧ step dis0 = .next dis0 :=
  ⟨by decide, ⟨rfl, rfl, rfl, rfl, rfl, rfl, rfl, rfl, rfl, rfl, rfl, rfl, by decide, by decide⟩, rfl⟩

theorem test_witness_StepKeepsInvariant :
    busyLastCell.Inv
      ∧ step (withInputs busyLastCell [.tick true]) = .next (onEvent busyLastCell (.tick true)) :=
  ⟨busyLastCell_inv, rfl⟩

theorem test_witness_TraceOnlyGrows :
    step (withInputs busy [.tick true]) = .next { busy with baudcnt := 10#16 } := rfl

/-- FRAME() at both ends of the width's range and the four combinations of two flags (EF1, EF3, EF4,
EF6, EF7), and each of its rejections. -/
theorem test_witness_PseudoOperandsAreEncoderResults :
    2 ≤ 2 ∧ 8 ≤ 8
      ∧ frameOperand exampleParams 2 .lsb 0 0 .full = some 0x01
      ∧ frameOperand exampleParams 8 .msb 1 1 .full = some 0x77
      ∧ frameOperand exampleParams 5 .lsb 1 0 .full = some 0x24
      ∧ frameOperand exampleParams 4 .msb 0 0 .full = some 0x13
      ∧ frameOperand exampleParams 8 .lsb 0 0 .half = some 0x87
      ∧ frameOperand exampleParams 1 .lsb 0 0 .full = none
      ∧ frameOperand exampleParams 9 .lsb 0 0 .full = none
      ∧ frameOperand exampleParams 8 .full 0 0 .full = none
      ∧ frameOperand exampleParams 8 .lsb 2 0 .full = none
      ∧ frameOperand exampleParams 8 .lsb 0 2 .full = none
      ∧ frameOperand exampleParams 8 .lsb 0 0 .msb = none := by decide

end Sys2Proof.Tests
end

section
/-! The scope of the model (spec/00_scope.md): which event a step takes, that every step has a next
state, and that the trace is a history. -/

namespace Sys2Proof.Machine

/-! ### The event a step takes -/

theorem step_of_inputs_nil {s : State} (h : s.inputs = []) : step s = .next s := by
  simp [step, h]

theorem step_of_inputs_cons {s : State} {e : Input} {rest : List Input}
    (h : s.inputs = e :: rest) : step s = stepInput e (s.takeInput rest) := by
  simp [step, h]

theorem stepInput_tick {s : State} (hf : s.fault = none) (rx : Bool) :
    stepInput (.tick rx) s = .next (onTick rx s) := by
  simp [stepInput, hf]

theorem stepInput_extCell {s : State} (hf : s.fault = none) (rx : Bool) :
    stepInput (.extCell rx) s = .next (onExtCell rx s) := by
  simp [stepInput, hf]

/-- Settles O7: the step is `stepInput` of the first event, read off for each kind of event. -/
theorem stepTakesFirstEvent : Obligations.StepTakesFirstEvent := by
  intro s rest hf taken
  have htaken : taken.fault = none := hf
  refine ⟨step_of_inputs_nil, fun rx h => ?tick, fun rx h => ?extCell, fun a h => ?hostRead,
    fun a v h => ?hostWrite, fun h => ?reset⟩
  case tick => exact (step_of_inputs_cons h).trans (stepInput_tick htaken rx)
  case extCell => exact (step_of_inputs_cons h).trans (stepInput_extCell htaken rx)
  case hostRead => exact step_of_inputs_cons h
  case hostWrite => exact step_of_inputs_cons h
  case reset => exact step_of_inputs_cons h

/-! ### Every step has a next state -/

/-- No command stops the model: each arm of `exec` is a next state. -/
theorem exec_next (i : Instr) (s : State) : ∃ t, exec i s = .next t := by
  cases i <;> exact ⟨_, rfl⟩

theorem stepCommand_next (w : Word64) (s : State) : ∃ t, stepCommand w s = .next t := by
  unfold stepCommand
  split
  · exact exec_next _ _
  · exact ⟨_, rfl⟩

theorem stepInput_next (e : Input) (s : State) : ∃ t, stepInput e s = .next t := by
  cases e with
  | command w =>
    simp only [stepInput]
    split
    · exact ⟨_, rfl⟩
    · exact stepCommand_next w s
  | tick rx => simp only [stepInput]; split <;> exact ⟨_, rfl⟩
  | extCell rx => simp only [stepInput]; split <;> exact ⟨_, rfl⟩
  | hostRead a => exact ⟨_, rfl⟩
  | hostWrite a v => exact ⟨_, rfl⟩
  | reset => exact ⟨_, rfl⟩

/-- Settles O11: with no event the state itself is next, and every event has a next state. -/
theorem stepAlwaysAnswers : Obligations.StepAlwaysAnswers := by
  intro s
  cases hin : s.inputs with
  | nil => exact ⟨s, step_of_inputs_nil hin⟩
  | cons e rest => rw [step_of_inputs_cons hin]; exact stepInput_next e _

/-! ### The trace is a history -/

theorem State.trace_prefix_emit (s : State) (e : Event) : s.trace <+: (s.emit e).trace :=
  List.prefix_append _ _

theorem State.trace_prefix_answer (s : State) (st : Status) (r : Half) :
    s.trace <+: (s.answer st r).trace := List.prefix_append _ _

/-- A commit keeps the trace as a history where the computation it ends does: a fault discards the
events of the step, not those before it (60_exceptions.md R163). -/
theorem State.trace_prefix_commit {s : State} {r : Except FaultRecord State}
    (h : ∀ u, r = .ok u → s.trace <+: u.trace) : s.trace <+: (s.commit r).trace := by
  rcases s.commit_cases r with ⟨u, hr, hc⟩ | ⟨f, -, hc⟩
  · rw [hc]; exact h u hr
  · rw [hc, State.raiseFault_trace]

theorem State.trace_prefix_cell {s t : State} {rx : Bool} (h : s.cell rx = .ok t) :
    s.trace <+: t.trace := by
  obtain ⟨-, -, -, -, -, -, -, -, -, -, -, -, -, htrace, -⟩ := State.cell_moves h
  exact htrace

theorem trace_prefix_onTick (rx : Bool) (s : State) : s.trace <+: (onTick rx s).trace := by
  rcases onTick_cases rx s with h | ⟨-, -, -, h⟩ | ⟨-, -, -, h⟩
  · rw [h]
  · rw [h]
  · rw [h]
    refine State.trace_prefix_commit fun u hu => ?_
    exact State.trace_prefix_cell (s := { s with baudcnt := s.br }) hu

theorem trace_prefix_onExtCell (rx : Bool) (s : State) : s.trace <+: (onExtCell rx s).trace := by
  rcases onExtCell_cases rx s with h | ⟨-, -, h⟩
  · rw [h]
  · rw [h]
    exact State.trace_prefix_commit fun u hu => State.trace_prefix_cell hu

theorem trace_prefix_onHostRead (a : Half) (s : State) :
    s.trace <+: (onHostRead a s).trace := by
  unfold onHostRead
  split
  · rw [State.raiseFault_trace]
  · exact State.trace_prefix_emit { s with hostData := some (s.byteAt a.toNat) } _

theorem trace_prefix_onHostWrite (a : Half) (v : Byte) (s : State) :
    s.trace <+: (onHostWrite a v s).trace := by
  unfold onHostWrite
  split
  · rw [State.raiseFault_trace]
  · exact State.trace_prefix_emit { s with mem := Memory.write s.mem a.toNat v } _

theorem State.trace_prefix_toDisabled (s : State) : s.trace <+: s.toDisabled.trace := by
  rw [State.toDisabled_trace]; exact List.prefix_append _ _

theorem State.trace_prefix_startTransfer {s t : State} {base : Half} {len : Byte}
    (h : s.startTransfer base len = .ok t) : s.trace <+: t.trace := by
  obtain ⟨-, rfl⟩ := State.startTransfer_ok h
  exact (List.prefix_append _ _).trans (List.prefix_append _ _)

/-- A command only appends: its engine accesses, the abort of a transfer in flight, its response. -/
theorem trace_prefix_exec {i : Instr} {s t : State} (h : exec i s = .next t) :
    s.trace <+: t.trace := by
  rcases exec_cases h with ⟨st, r, rfl⟩ | ⟨f, rfl⟩ | ⟨br, con, m, hinit, -, rfl⟩
    | ⟨sel, hports, -, rfl⟩ | ⟨henable, -, -, rfl⟩ | ⟨hdisable, rfl⟩
    | ⟨base, len, htalk, -, -, hstart⟩
  · exact s.trace_prefix_answer st r
  · rw [State.raiseFault_trace]
  · exact s.trace_prefix_toDisabled.trans (State.trace_prefix_answer _ _ _)
  · exact State.trace_prefix_answer { s with pisel := sel } _ _
  · exact State.trace_prefix_answer { s with phase := .enabledIdle } _ _
  · exact s.trace_prefix_toDisabled.trans (State.trace_prefix_answer _ _ _)
  · exact State.trace_prefix_startTransfer hstart

/-- Settles O59: taking an event keeps the trace, and each way an event has only appends to it. -/
theorem traceOnlyGrows : Obligations.TraceOnlyGrows := by
  intro s t h
  rcases step_cases h with ⟨-, rfl⟩ | ⟨e, rest, -, hevent⟩
  · exact List.prefix_refl _
  have htaken : (s.takeInput rest).trace = s.trace := State.takeInput_trace s rest
  rw [← htaken]
  rcases hevent with ⟨w, i, -, -, -, hexec⟩ | ⟨w, why, -, -, -, rfl⟩ | ⟨rx, htick, -, rfl⟩
    | ⟨rx, hextCell, -, rfl⟩ | ⟨a, hread, rfl⟩ | ⟨a, v, hwrite, rfl⟩ | ⟨hreset, rfl⟩
    | ⟨hfault, -, rfl⟩
  · exact (State.trace_prefix_emit _ _).trans (trace_prefix_exec hexec)
  · exact (State.trace_prefix_emit _ _).trans (State.trace_prefix_answer _ _ _)
  · exact trace_prefix_onTick rx _
  · exact trace_prefix_onExtCell rx _
  · exact trace_prefix_onHostRead a _
  · exact trace_prefix_onHostWrite a v _
  · rw [State.applyReset_trace]
  · exact List.prefix_refl _

end Sys2Proof.Machine
end

section
/-! The state of the block (spec/10_state.md): the invariant every step keeps, FAULT, and the writers
of CFGV and PISEL. -/

namespace Sys2Proof.Machine

/-! ### What a host access, a TICK and an EXT_CELL can do

A property holds after one of these events when it holds after each outcome the event can have. -/

/-- The end of a step has a property when every success and every fault has it. -/
theorem State.commit_induction {P : State → Prop} {s : State} {r : Except FaultRecord State}
    (hok : ∀ u, r = .ok u → P u) (hfault : ∀ f, P (s.raiseFault f)) : P (s.commit r) := by
  rcases s.commit_cases r with ⟨u, hr, hc⟩ | ⟨f, -, hc⟩
  · rw [hc]; exact hok u hr
  · rw [hc]; exact hfault f

theorem onTick_induction {P : State → Prop} {s : State} {rx : Bool} (hidle : P s)
    (hcount : s.phase = .enabledBusy → s.baudcnt ≠ 0#16 → P { s with baudcnt := s.baudcnt - 1#16 })
    (hcell : s.phase = .enabledBusy → ∀ u, { s with baudcnt := s.br }.cell rx = .ok u → P u)
    (hfault : ∀ f, P (s.raiseFault f)) : P (onTick rx s) := by
  rcases onTick_cases rx s with h | ⟨hbusy, -, hne, h⟩ | ⟨hbusy, -, -, h⟩
  · rw [h]; exact hidle
  · rw [h]; exact hcount hbusy hne
  · rw [h]; exact State.commit_induction (hcell hbusy) hfault

theorem onExtCell_induction {P : State → Prop} {s : State} {rx : Bool} (hidle : P s)
    (hcell : s.phase = .enabledBusy → ∀ u, s.cell rx = .ok u → P u)
    (hfault : ∀ f, P (s.raiseFault f)) : P (onExtCell rx s) := by
  rcases onExtCell_cases rx s with h | ⟨hbusy, -, h⟩
  · rw [h]; exact hidle
  · rw [h]; exact State.commit_induction (hcell hbusy) hfault

/-- What a host read can do: race the transfer in flight, or read the byte. -/
theorem onHostRead_cases (a : Half) (s : State) :
    (s.races a = true ∧ onHostRead a s = s.raiseFault ⟨.bufferRace, a.toNat⟩)
    ∨ (s.races a = false ∧ onHostRead a s = { s with
        hostData := some (s.byteAt a.toNat)
        trace := s.trace ++ [.hostRead a (s.byteAt a.toNat)] }) := by
  cases h : s.races a
  · exact .inr ⟨rfl, by simp [onHostRead, h, State.emit]⟩
  · exact .inl ⟨rfl, by simp [onHostRead, h]⟩

/-- What a host write can do: race the transfer in flight, or write the byte. -/
theorem onHostWrite_cases (a : Half) (v : Byte) (s : State) :
    (s.races a = true ∧ onHostWrite a v s = s.raiseFault ⟨.bufferRace, a.toNat⟩)
    ∨ (s.races a = false ∧ onHostWrite a v s = { s with
        mem := Memory.write s.mem a.toNat v
        trace := s.trace ++ [.hostWrite a v] }) := by
  cases h : s.races a
  · exact .inr ⟨rfl, by simp [onHostWrite, h, State.emit]⟩
  · exact .inl ⟨rfl, by simp [onHostWrite, h]⟩

/-! ### The invariant: updates of no register it names, and blocks that are not busy -/

theorem State.Inv.emit {s : State} (h : s.Inv) (e : Event) : (s.emit e).Inv := { h with }

theorem State.Inv.answer {s : State} (h : s.Inv) (st : Status) (r : Half) : (s.answer st r).Inv :=
  { h with }

theorem State.Inv.raiseFault {s : State} (h : s.Inv) (f : FaultRecord) : (s.raiseFault f).Inv :=
  { h with }

theorem State.Inv.takeInput {s : State} (h : s.Inv) (rest : List Input) :
    (s.takeInput rest).Inv := { h with }

/-- Disabled, only memory, the parameters, an accepted configuration and DONE are bound: the clauses of
Enabled-Busy say nothing. -/
theorem State.inv_of_disabled {s : State} (hphase : s.phase = .disabled)
    (hmem : Memory.wf s.mem = true) (hparams : s.params.wellFormed = true)
    (hcon : s.cfgv = true → frameByteLegal s.params s.con = true)
    (hdone : s.done.toNat ≤ s.len.toNat) : s.Inv where
  mem_wf := hmem
  params_wf := hparams
  con_legal := hcon
  enabled_cfgv hen := absurd hphase hen
  done_le := hdone
  busy_done hbusy := by simp [hphase] at hbusy
  busy_bitpos hbusy := by simp [hphase] at hbusy
  busy_baudcnt hbusy := by simp [hphase] at hbusy

theorem State.Inv.toDisabled {s : State} (h : s.Inv) : s.toDisabled.Inv :=
  State.inv_of_disabled s.toDisabled_phase (by simpa using h.mem_wf) (by simpa using h.params_wf)
    (by simpa using h.con_legal) (by simpa using h.done_le)

/-- RESET draws LEN, and DONE ≤ LEN holds whatever is drawn, since DONE is 0. -/
theorem State.Inv.applyReset {s : State} (h : s.Inv) : s.applyReset.Inv :=
  State.inv_of_disabled rfl h.mem_wf h.params_wf nofun (Nat.zero_le _)

/-! ### The invariant: the state after reset -/

theorem RoleCodes.codes_within (mask : Byte) (r : RoleCodes) :
    (r.within mask).codes = r.codes.map (· &&& mask) := by
  cases r <;> rfl

/-- Codes kept to disjoint masks are disjoint (41_port_router.md R110). -/
theorem RoleCodes.disjoint_within {m n : Byte} (h : m &&& n = 0#8) (a b : RoleCodes) :
    (a.within m).disjoint (b.within n) = true := by
  have hbits (x y : Byte) : x &&& m &&& (y &&& n) = 0#8 :=
    calc x &&& m &&& (y &&& n) = x &&& y &&& (m &&& n) := by ac_rfl
      _ = 0#8 := by rw [h, BitVec.and_zero]
  simp [RoleCodes.disjoint, RoleCodes.codes_within, hbits]

/-- The three roles' masks are disjoint in pairs: a bit of an earlier one is taken out of the later. -/
theorem roleMasks_disjoint (rst tsr clk : Byte) :
    rst &&& (tsr &&& ~~~rst) = 0#8 ∧ rst &&& (clk &&& ~~~rst &&& ~~~tsr) = 0#8
      ∧ tsr &&& ~~~rst &&& (clk &&& ~~~rst &&& ~~~tsr) = 0#8 := by
  refine ⟨?_, ?_, ?_⟩
  all_goals
    ext k hk
    cases hr : rst[k] <;> cases ht : tsr[k] <;> simp [hr, ht]

/-- The parameters after reset meet D9 and R110 whatever the OPEN constants are: each role's mask has
the bits of the roles before it taken out. -/
theorem Config.params_wellFormed : Config.params.wellFormed = true := by
  obtain ⟨hrt, hrc, htc⟩ := roleMasks_disjoint Config.rstBits Config.tsrBits Config.clkBits
  have hflags : Config.params.flagPos.wellFormed = true := by decide
  simp only [Params.wellFormed, hflags, Bool.true_and, Bool.and_eq_true]
  exact ⟨⟨RoleCodes.disjoint_within hrt _ _, RoleCodes.disjoint_within hrc _ _⟩,
    RoleCodes.disjoint_within htc _ _⟩

/-- Settles O58: the block is Disabled after reset, with nothing in memory and DONE 0. -/
theorem resetMeetsInvariant : Obligations.ResetMeetsInvariant := fun _ =>
  State.inv_of_disabled rfl State.reset_mem_wf Config.params_wellFormed nofun (Nat.zero_le _)

/-- Settles O53: each value is the one `State.reset` writes down. -/
theorem resetStateValues : Obligations.ResetStateValues :=
  ⟨rfl, rfl, rfl, rfl, rfl, rfl⟩

/-! ### The invariant: the events -/

/-- The engine writes below 2^16 only (20_memory.md R52). -/
theorem lt_of_engineMayWrite {p : Params} {a : Nat} (h : engineMayWrite p a = true) :
    a < 2 ^ 16 := by
  simp only [engineMayWrite, Bool.and_eq_true, decide_eq_true_eq] at h
  exact h.1

/-- A cell of a block in flight keeps memory canonical: a write-back was admitted. -/
theorem State.cell_mem_wf {s t : State} {rx : Bool} (hmem : Memory.wf s.mem = true)
    (h : s.cell rx = .ok t) : Memory.wf t.mem = true := by
  obtain ⟨hsame | ⟨hadmitted, v, hwritten⟩, -⟩ := State.cell_moves h
  · rw [hsame]; exact hmem
  · rw [hwritten]; exact Memory.write_wf v hmem (lt_of_engineMayWrite hadmitted)

/-- A cell leaves the configuration as it is, so of the invariant only its counters are in question. -/
theorem State.Inv.cell_of_counters {s t : State} {rx : Bool} (hs : s.Inv)
    (hbusy : s.phase = .enabledBusy) (h : s.cell rx = .ok t) (hdone : t.done.toNat ≤ t.len.toNat)
    (hcounters : t.phase = .enabledBusy → t.done.toNat < t.len.toNat
      ∧ t.bitpos.toNat < t.width ∧ t.baudcnt.toNat ≤ t.br.toNat) : t.Inv := by
  obtain ⟨-, hparams, -, hcon, -, hcfgv, -⟩ := State.cell_moves h
  have hset : s.cfgv = true := hs.enabled_cfgv (by simp [hbusy])
  exact {
    mem_wf := State.cell_mem_wf hs.mem_wf h
    params_wf := by rw [hparams]; exact hs.params_wf
    con_legal := fun _ => by rw [hparams, hcon]; exact hs.con_legal hset
    enabled_cfgv := fun _ => by rw [hcfgv, hset]
    done_le := hdone
    busy_done := fun hb => (hcounters hb).1
    busy_bitpos := fun hb => (hcounters hb).2.1
    busy_baudcnt := fun hb => (hcounters hb).2.2 }

/-- A cell keeps the counters in range: inside a frame BITPOS stays below w, and at the end of a frame
DONE < LEN lets DONE + 1 reach LEN only where the transfer ends (43_transceive.md R138, R139). -/
theorem State.Inv.cell {s t : State} {rx : Bool} (hs : s.Inv) (hbusy : s.phase = .enabledBusy)
    (h : s.cell rx = .ok t) : t.Inv := by
  obtain ⟨-, -, hbr, hcon, -, -, hlen, -, -, -, -, -, -, -, hmove⟩ := State.cell_moves h
  have hdone := hs.busy_done hbusy
  rcases hmove with ⟨-, hd, hinside, hbp, hbc⟩ | ⟨hidle, -, hend⟩ | ⟨-, hd, hmore, hbp, hbc⟩
  · refine hs.cell_of_counters hbusy h (by rw [hd, hlen]; exact hs.done_le) fun _ => ⟨?_, ?_, ?_⟩
    · rw [hd, hlen]; exact hdone
    · have hbit := hs.busy_bitpos hbusy
      have hwidth : t.width = s.width := by simp only [State.width, hcon]
      have hle := s.width_le
      rw [hbp, hwidth, BitVec.toNat_add_of_lt (by simp; omega)]
      simp; omega
    · rw [hbc, hbr]; exact hs.busy_baudcnt hbusy
  · refine hs.cell_of_counters hbusy h (by rw [hend, hlen]) fun hb => ?_
    simp [hidle] at hb
  · have hlt : t.done.toNat < t.len.toNat := by
      rw [hlen]; bv_omega
    refine hs.cell_of_counters hbusy h hlt.le fun _ => ⟨hlt, ?_, ?_⟩
    · rw [hbp]; exact t.width_pos
    · rw [hbc, hbr]

theorem State.Inv.onTick {s : State} (h : s.Inv) (rx : Bool) : (onTick rx s).Inv := by
  refine onTick_induction h (fun hbusy hne => ?count) (fun hbusy u hu => ?cell) h.raiseFault
  case count =>
    have hle := h.busy_baudcnt hbusy
    refine { h with busy_baudcnt := fun _ => ?_ }
    show (s.baudcnt - 1#16).toNat ≤ s.br.toNat
    bv_omega
  case cell =>
    have hreload : { s with baudcnt := s.br }.Inv := { h with busy_baudcnt := fun _ => le_rfl }
    exact hreload.cell hbusy hu

theorem State.Inv.onExtCell {s : State} (h : s.Inv) (rx : Bool) : (onExtCell rx s).Inv :=
  onExtCell_induction h (fun hbusy _ hu => h.cell hbusy hu) h.raiseFault

theorem State.Inv.onHostRead {s : State} (h : s.Inv) (a : Half) : (onHostRead a s).Inv := by
  rcases onHostRead_cases a s with ⟨-, heq⟩ | ⟨-, heq⟩
  · rw [heq]; exact h.raiseFault _
  · rw [heq]; exact { h with }

theorem State.Inv.onHostWrite {s : State} (h : s.Inv) (a : Half) (v : Byte) :
    (onHostWrite a v s).Inv := by
  rcases onHostWrite_cases a v s with ⟨-, heq⟩ | ⟨-, heq⟩
  · rw [heq]; exact h.raiseFault _
  · rw [heq]; exact { h with mem_wf := Memory.write_wf v h.mem_wf a.isLt }

/-- A transfer starts with DONE = 0 < LEN, BITPOS = 0 and BAUDCNT = BR (43_transceive.md R130, R133). -/
theorem State.Inv.startTransfer {s t : State} {base : Half} {len : Byte} (h : s.Inv)
    (hidle : s.phase = .enabledIdle) (hlen : len ≠ 0#8) (hstart : s.startTransfer base len = .ok t) :
    t.Inv := by
  obtain ⟨-, rfl⟩ := State.startTransfer_ok hstart
  have hpos : 0 < len.toNat := by bv_omega
  exact { h with
    enabled_cfgv := fun _ => h.enabled_cfgv (by simp [hidle])
    done_le := Nat.zero_le _
    busy_done := fun _ => hpos
    busy_bitpos := fun _ => State.width_pos s
    busy_baudcnt := fun _ => le_rfl }

theorem State.Inv.enable {s : State} (h : s.Inv) (hcfgv : s.cfgv = true) :
    { s with phase := .enabledIdle }.Inv :=
  { h with
    enabled_cfgv := fun _ => hcfgv
    busy_done := fun hbusy => by cases hbusy
    busy_bitpos := fun hbusy => by cases hbusy
    busy_baudcnt := fun hbusy => by cases hbusy }

theorem State.Inv.exec {i : Instr} {s t : State} (h : s.Inv) (hexec : exec i s = .next t) :
    t.Inv := by
  rcases exec_cases hexec with ⟨st, r, rfl⟩ | ⟨f, rfl⟩ | ⟨br, con, m, -, hlegal, rfl⟩
    | ⟨sel, -, -, rfl⟩ | ⟨-, -, hcfgv, rfl⟩ | ⟨-, rfl⟩ | ⟨base, len, -, hidle, hlen, hstart⟩
  · exact h.answer st r
  · exact h.raiseFault f
  · refine State.Inv.answer ?_ _ _
    exact State.inv_of_disabled rfl h.toDisabled.mem_wf h.toDisabled.params_wf
      (fun _ => by simpa using hlegal) h.toDisabled.done_le
  · exact State.Inv.answer (s := { s with pisel := sel }) { h with } _ _
  · exact (h.enable hcfgv).answer _ _
  · exact h.toDisabled.answer _ _
  · exact h.startTransfer hidle hlen hstart

/-- Settles O57: taking an event keeps the invariant, and each way an event has keeps it. -/
theorem stepKeepsInvariant : Obligations.StepKeepsInvariant := by
  intro s t hs h
  rcases step_cases h with ⟨-, rfl⟩ | ⟨e, rest, -, hevent⟩
  · exact hs
  have htaken := hs.takeInput rest
  rcases hevent with ⟨w, i, -, -, -, hexec⟩ | ⟨w, why, -, -, -, rfl⟩ | ⟨rx, -, -, rfl⟩
    | ⟨rx, -, -, rfl⟩ | ⟨a, -, rfl⟩ | ⟨a, v, -, rfl⟩ | ⟨-, rfl⟩ | ⟨-, -, rfl⟩
  · exact (htaken.emit _).exec hexec
  · exact (htaken.emit _).answer _ _
  · exact htaken.onTick rx
  · exact htaken.onExtCell rx
  · exact htaken.onHostRead a
  · exact htaken.onHostWrite a v
  · exact htaken.applyReset
  · exact htaken

/-! ### FAULT is sticky -/

/-- A faulted block checks host accesses no longer (log entry 8). -/
theorem State.races_of_fault {s : State} {f : FaultRecord} (h : s.fault = some f) (a : Half) :
    s.races a = false := by
  simp [State.races, h]

theorem onHostRead_fault_of_fault {s : State} {f : FaultRecord} (h : s.fault = some f) (a : Half) :
    (onHostRead a s).fault = some f := by
  rcases onHostRead_cases a s with ⟨hrace, -⟩ | ⟨-, heq⟩
  · simp [State.races_of_fault h a] at hrace
  · rw [heq]; exact h

theorem onHostWrite_fault_of_fault {s : State} {f : FaultRecord} (h : s.fault = some f) (a : Half)
    (v : Byte) : (onHostWrite a v s).fault = some f := by
  rcases onHostWrite_cases a v s with ⟨hrace, -⟩ | ⟨-, heq⟩
  · simp [State.races_of_fault h a] at hrace
  · rw [heq]; exact h

/-- A step of a faulted block clears FAULT, and is a RESET, or keeps FAULT, and is not. -/
theorem step_fault_of_fault {s t : State} {f : FaultRecord} (hf : s.fault = some f)
    (h : step s = .next t) :
    (s.inputs.head? = some .reset ∧ t.fault = none)
    ∨ (s.inputs.head? ≠ some .reset ∧ t.fault = some f) := by
  rcases step_cases h with ⟨hin, rfl⟩ | ⟨e, rest, hin, hevent⟩
  · exact .inr ⟨by simp [hin], hf⟩
  have htaken : (s.takeInput rest).fault = some f := hf
  simp only [hin, List.head?_cons, Option.some.injEq, ne_eq]
  rcases hevent with ⟨w, i, -, hnone, -⟩ | ⟨w, why, -, hnone, -⟩ | ⟨rx, -, hnone, -⟩
    | ⟨rx, -, hnone, -⟩ | ⟨a, rfl, rfl⟩ | ⟨a, v, rfl, rfl⟩ | ⟨rfl, rfl⟩ | ⟨-, hne, rfl⟩
  · simp [hf] at hnone
  · simp [hf] at hnone
  · simp [hf] at hnone
  · simp [hf] at hnone
  · exact .inr ⟨nofun, onHostRead_fault_of_fault htaken a⟩
  · exact .inr ⟨nofun, onHostWrite_fault_of_fault htaken a v⟩
  · exact .inl ⟨rfl, rfl⟩
  · exact .inr ⟨hne, htaken⟩

/-- Settles O9: the two kinds of step of a faulted block exclude each other. -/
theorem faultStickyUntilReset : Obligations.FaultStickyUntilReset := by
  refine ⟨rfl, fun s t f hf h => ?_⟩
  rcases step_fault_of_fault hf h with ⟨hreset, hnone⟩ | ⟨hne, hsome⟩
  · exact ⟨fun _ => hnone, fun hne => absurd hreset hne⟩
  · exact ⟨fun hreset => absurd hreset hne, fun _ => hsome⟩

/-! ### The writers of CFGV and PISEL -/

/-- CFGV, PISEL and the parameters are the same in both states. -/
structure State.SameRouting (s t : State) : Prop where
  cfgv : t.cfgv = s.cfgv
  pisel : t.pisel = s.pisel
  params : t.params = s.params

theorem State.SameRouting.of_cell {s t : State} {rx : Bool} (h : s.cell rx = .ok t) :
    s.SameRouting t := by
  obtain ⟨-, hparams, -, -, -, hcfgv, -, -, hpisel, -⟩ := State.cell_moves h
  exact ⟨hcfgv, hpisel, hparams⟩

theorem State.SameRouting.of_onTick (rx : Bool) (s : State) : s.SameRouting (onTick rx s) := by
  refine onTick_induction ⟨rfl, rfl, rfl⟩ (fun _ _ => ⟨rfl, rfl, rfl⟩) (fun _ u hu => ?_)
    fun _ => ⟨rfl, rfl, rfl⟩
  have hcell := State.SameRouting.of_cell hu
  exact ⟨hcell.cfgv, hcell.pisel, hcell.params⟩

theorem State.SameRouting.of_onExtCell (rx : Bool) (s : State) : s.SameRouting (onExtCell rx s) :=
  onExtCell_induction ⟨rfl, rfl, rfl⟩ (fun _ _ => State.SameRouting.of_cell)
    fun _ => ⟨rfl, rfl, rfl⟩

theorem State.SameRouting.of_onHostRead (a : Half) (s : State) :
    s.SameRouting (onHostRead a s) := by
  rcases onHostRead_cases a s with ⟨-, heq⟩ | ⟨-, heq⟩ <;> rw [heq] <;> exact ⟨rfl, rfl, rfl⟩

theorem State.SameRouting.of_onHostWrite (a : Half) (v : Byte) (s : State) :
    s.SameRouting (onHostWrite a v s) := by
  rcases onHostWrite_cases a v s with ⟨-, heq⟩ | ⟨-, heq⟩ <;> rw [heq] <;> exact ⟨rfl, rfl, rfl⟩

/-- Among the commands only INIT writes CFGV and only PORTS writes PISEL. -/
theorem exec_routing {i : Instr} {s t : State} (h : exec i s = .next t) :
    s.SameRouting t
    ∨ (∃ br con m, i = .init br con m ∧ t.cfgv = true ∧ t.pisel = s.pisel ∧ t.params = s.params)
    ∨ (i = .ports t.pisel ∧ s.phase = .disabled ∧ t.cfgv = s.cfgv ∧ t.params = s.params) := by
  rcases exec_cases h with ⟨st, r, rfl⟩ | ⟨f, rfl⟩ | ⟨br, con, m, rfl, -, rfl⟩
    | ⟨sel, rfl, hdis, rfl⟩ | ⟨-, -, -, rfl⟩ | ⟨-, rfl⟩ | ⟨base, len, -, -, -, hstart⟩
  · exact .inl ⟨rfl, rfl, rfl⟩
  · exact .inl ⟨rfl, rfl, rfl⟩
  · exact .inr (.inl ⟨br, con, m, rfl, rfl, s.toDisabled_pisel, s.toDisabled_params⟩)
  · exact .inr (.inr ⟨rfl, hdis, rfl, rfl⟩)
  · exact .inl ⟨rfl, rfl, rfl⟩
  · exact .inl ⟨s.toDisabled_cfgv, s.toDisabled_pisel, s.toDisabled_params⟩
  · obtain ⟨-, rfl⟩ := State.startTransfer_ok hstart
    exact .inl ⟨rfl, rfl, rfl⟩

theorem Input.instr?_command {w : Word64} {i : Instr} (h : decode w = .command i) :
    (Input.command w).instr? = some i := by
  simp [Input.instr?, h]

/-- A step keeps CFGV, PISEL and the parameters unless it is an INIT, a PORTS or a RESET. -/
theorem step_routing {s t : State} (h : step s = .next t) :
    s.SameRouting t
    ∨ (∃ e rest br con m, s.inputs = e :: rest ∧ e.instr? = some (.init br con m)
        ∧ t.cfgv = true ∧ t.pisel = s.pisel ∧ t.params = s.params)
    ∨ (∃ e rest, s.inputs = e :: rest ∧ e.instr? = some (.ports t.pisel)
        ∧ s.phase = .disabled ∧ t.cfgv = s.cfgv ∧ t.params = s.params)
    ∨ (s.inputs.head? = some .reset ∧ t.cfgv = false ∧ t.pisel = s.params.piselReset
        ∧ t.params = s.params) := by
  rcases step_cases h with ⟨-, rfl⟩ | ⟨e, rest, hin, hevent⟩
  · exact .inl ⟨rfl, rfl, rfl⟩
  have huntake {u : State} (hu : (s.takeInput rest).SameRouting u) : s.SameRouting u :=
    ⟨hu.cfgv, hu.pisel, hu.params⟩
  rcases hevent with ⟨w, i, rfl, -, hdecode, hexec⟩ | ⟨w, why, -, -, -, rfl⟩ | ⟨rx, -, -, rfl⟩
    | ⟨rx, -, -, rfl⟩ | ⟨a, -, rfl⟩ | ⟨a, v, -, rfl⟩ | ⟨rfl, rfl⟩ | ⟨-, -, rfl⟩
  · have hinstr := Input.instr?_command hdecode
    rcases exec_routing hexec with ⟨hcfgv, hpisel, hparams⟩
      | ⟨br, con, m, rfl, hcfgv, hpisel, hparams⟩ | ⟨rfl, hdis, hcfgv, hparams⟩
    · exact .inl ⟨hcfgv, hpisel, hparams⟩
    · exact .inr (.inl ⟨_, rest, br, con, m, hin, hinstr, hcfgv, hpisel, hparams⟩)
    · exact .inr (.inr (.inl ⟨_, rest, hin, hinstr, hdis, hcfgv, hparams⟩))
  · exact .inl ⟨rfl, rfl, rfl⟩
  · exact .inl (huntake (State.SameRouting.of_onTick rx _))
  · exact .inl (huntake (State.SameRouting.of_onExtCell rx _))
  · exact .inl (huntake (State.SameRouting.of_onHostRead a _))
  · exact .inl (huntake (State.SameRouting.of_onHostWrite a v _))
  · exact .inr (.inr (.inr ⟨by simp [hin], rfl, rfl, rfl⟩))
  · exact .inl ⟨rfl, rfl, rfl⟩

/-- Settles O31, from the four kinds of step there are for these registers. -/
theorem routingAndValidityWriters : Obligations.RoutingAndValidityWriters := by
  intro s t h
  rcases step_routing h with ⟨hcfgv, hpisel, hparams⟩
    | ⟨e, rest, br, con, m, hin, hinit, hcfgv, hpisel, hparams⟩
    | ⟨e, rest, hin, hports, hdis, hcfgv, hparams⟩ | ⟨hreset, hcfgv, hpisel, hparams⟩
  · exact ⟨.inl hcfgv, .inl hpisel, hparams⟩
  · exact ⟨.inr (.inl ⟨hcfgv, e, rest, br, con, m, hin, hinit⟩), .inl hpisel, hparams⟩
  · exact ⟨.inl hcfgv, .inr (.inl ⟨hdis, e, rest, hin, hports⟩), hparams⟩
  · exact ⟨.inr (.inr ⟨hcfgv, hreset⟩), .inr (.inr ⟨hpisel, hreset⟩), hparams⟩

end Sys2Proof.Machine
end

section
/-! Buffer memory (spec/20_memory.md): canonical memories are equal when they read alike, the host's
accesses, and the one byte an event can change. -/

namespace Sys2Proof.Machine

/-! ### Canonical memories -/

theorem Memory.wfFrom_cons {lo k : Nat} {b : Byte} {m : Memory} :
    Memory.wfFrom lo ((k, b) :: m) = true
      ↔ lo ≤ k ∧ k < 2 ^ 16 ∧ b ≠ Memory.unlisted ∧ Memory.wfFrom (k + 1) m = true := by
  simp [Memory.wfFrom, and_assoc]

theorem Memory.read_cons_same (k : Nat) (b : Byte) (m : Memory) :
    Memory.read ((k, b) :: m) k = b := by
  simp [Memory.read]

theorem Memory.read_cons_other {k a : Nat} (b : Byte) (m : Memory) (h : a ≠ k) :
    Memory.read ((k, b) :: m) a = Memory.read m a := by
  simp [Memory.read, h.symm]

/-- A canonical memory that reads like one whose first entry is at `k` starts no later than at `k`:
below its own first entry it lists nothing, and the byte at `k` is listed. -/
theorem Memory.head_le_of_read_eq {lo lo' k k' : Nat} {b b' : Byte} {m m' : Memory}
    (hm : Memory.wfFrom lo ((k, b) :: m) = true) (hm' : Memory.wfFrom lo' ((k', b') :: m') = true)
    (h : ∀ a, Memory.read ((k, b) :: m) a = Memory.read ((k', b') :: m') a) : k' ≤ k := by
  obtain ⟨-, -, hb, -⟩ := Memory.wfFrom_cons.mp hm
  obtain ⟨-, htail⟩ := Memory.wfFrom_cons.mp hm'
  by_contra hlt
  have habove : Memory.wfFrom k' ((k', b') :: m') = true := Memory.wfFrom_cons.mpr ⟨le_rfl, htail⟩
  have hnone := Memory.read_below habove (Nat.lt_of_not_le hlt)
  rw [← h k, Memory.read_cons_same] at hnone
  exact hb hnone

/-- A canonical memory that lists a byte does not read like the empty one. -/
theorem Memory.not_read_eq_nil {lo k : Nat} {b : Byte} {m : Memory}
    (hm : Memory.wfFrom lo ((k, b) :: m) = true) :
    ¬ ∀ a, Memory.read ((k, b) :: m) a = Memory.read [] a := by
  obtain ⟨-, -, hb, -⟩ := Memory.wfFrom_cons.mp hm
  intro h
  have hk := h k
  rw [Memory.read_cons_same] at hk
  exact hb hk

theorem Memory.eq_of_read_eq {lo : Nat} {m m' : Memory} (hm : Memory.wfFrom lo m = true)
    (hm' : Memory.wfFrom lo m' = true) (h : ∀ a, Memory.read m a = Memory.read m' a) : m = m' := by
  induction m generalizing lo m' with
  | nil =>
    cases m' with
    | nil => rfl
    | cons c' m' => exact absurd (fun a => (h a).symm) (Memory.not_read_eq_nil hm')
  | cons c m ih =>
    cases m' with
    | nil => exact absurd h (Memory.not_read_eq_nil hm)
    | cons c' m' =>
      obtain ⟨k, b⟩ := c
      obtain ⟨k', b'⟩ := c'
      obtain rfl : k = k' := le_antisymm
        (Memory.head_le_of_read_eq hm' hm fun a => (h a).symm) (Memory.head_le_of_read_eq hm hm' h)
      obtain rfl : b = b' := by simpa only [Memory.read_cons_same] using h k
      obtain ⟨-, -, -, htail⟩ := Memory.wfFrom_cons.mp hm
      obtain ⟨-, -, -, htail'⟩ := Memory.wfFrom_cons.mp hm'
      have hread (a : Nat) : Memory.read m a = Memory.read m' a := by
        rcases eq_or_ne a k with rfl | hne
        · rw [Memory.read_below htail (Nat.lt_succ_self a),
            Memory.read_below htail' (Nat.lt_succ_self a)]
        · simpa only [Memory.read_cons_other b _ hne] using h a
      rw [ih htail htail' hread]

/-- Settles O52, by induction on both lists: the first entries agree, and so do the tails. -/
theorem equalReadsEqualMemory : Obligations.EqualReadsEqualMemory :=
  fun _ _ hm hm' h => Memory.eq_of_read_eq hm hm' h

/-! ### The host's accesses -/

/-- Without a fault a host access races exactly in the buffer of the transfer in flight. -/
theorem State.races_iff {s : State} (hf : s.fault = none) (a : Half) :
    s.races a = true
      ↔ s.phase = .enabledBusy ∧ s.base.toNat ≤ a.toNat ∧ a.toNat < s.base.toNat + s.len.toNat := by
  simp [State.races, hf, and_assoc]

theorem onHostRead_of_races {s : State} {a : Half} (h : s.races a = true) :
    onHostRead a s = s.raiseFault ⟨.bufferRace, a.toNat⟩ := if_pos h

theorem onHostWrite_of_races {s : State} {a : Half} (h : s.races a = true) (v : Byte) :
    onHostWrite a v s = s.raiseFault ⟨.bufferRace, a.toNat⟩ := if_pos h

theorem onHostRead_of_not_races {s : State} {a : Half} (h : s.races a = false) :
    onHostRead a s
      = { s with hostData := some (s.byteAt a.toNat) }.emit (.hostRead a (s.byteAt a.toNat)) :=
  if_neg (Bool.eq_false_iff.mp h)

theorem onHostWrite_of_not_races {s : State} {a : Half} (h : s.races a = false) (v : Byte) :
    onHostWrite a v s = { s with mem := Memory.write s.mem a.toNat v }.emit (.hostWrite a v) :=
  if_neg (Bool.eq_false_iff.mp h)

/-- Settles O50: an access that races is not performed, and any other is the ordinary one. -/
theorem hostAccessLaw : Obligations.HostAccessLaw := by
  intro s a v hf hmem
  split
  case isTrue hin =>
    have hrace := (State.races_iff hf a).mpr hin
    exact ⟨onHostRead_of_races hrace, onHostWrite_of_races hrace v⟩
  case isFalse hout =>
    have hrace : s.races a = false := by simpa using mt (State.races_iff hf a).mp hout
    rw [onHostWrite_of_not_races hrace]
    exact ⟨onHostRead_of_not_races hrace, Memory.read_write_same v hmem,
      fun b hb => Memory.read_write_other s.mem v hb, rfl⟩

/-! ### The byte an event can change -/

/-- Memory is as it was, or the engine has written the byte of the frame in flight, where it may. -/
def State.WritesFrameByteOnly (s t : State) : Prop :=
  t.mem = s.mem
    ∨ (s.phase = .enabledBusy ∧ engineMayWrite s.params (s.base.toNat + s.done.toNat) = true
      ∧ ∃ v, t.mem = Memory.write s.mem (s.base.toNat + s.done.toNat) v)

theorem State.WritesFrameByteOnly.of_cell {s t : State} {rx : Bool} (hbusy : s.phase = .enabledBusy)
    (h : s.cell rx = .ok t) : s.WritesFrameByteOnly t := by
  obtain ⟨hsame | ⟨hadmitted, hwritten⟩, -⟩ := State.cell_moves h
  · exact .inl hsame
  · exact .inr ⟨hbusy, hadmitted, hwritten⟩

theorem State.WritesFrameByteOnly.of_onTick (rx : Bool) (s : State) :
    s.WritesFrameByteOnly (onTick rx s) :=
  onTick_induction (.inl rfl) (fun _ _ => .inl rfl)
    (fun hbusy _ hu => State.WritesFrameByteOnly.of_cell (s := { s with baudcnt := s.br }) hbusy hu)
    fun _ => .inl rfl

theorem State.WritesFrameByteOnly.of_onExtCell (rx : Bool) (s : State) :
    s.WritesFrameByteOnly (onExtCell rx s) :=
  onExtCell_induction (.inl rfl) (fun hbusy _ => State.WritesFrameByteOnly.of_cell hbusy)
    fun _ => .inl rfl

/-- The byte that reads differently is the one the engine has written. -/
theorem State.WritesFrameByteOnly.changed {s t : State} {a : Nat} (h : s.WritesFrameByteOnly t)
    (ha : t.byteAt a ≠ s.byteAt a) :
    s.phase = .enabledBusy ∧ a = s.base.toNat + s.done.toNat ∧ engineMayWrite s.params a = true
      ∧ a < 2 ^ 16 := by
  rcases h with hsame | ⟨hbusy, hadmitted, v, hwritten⟩
  · simp [State.byteAt, hsame] at ha
  · obtain rfl : a = s.base.toNat + s.done.toNat := by
      by_contra hne
      simp [State.byteAt, hwritten, Memory.read_write_other s.mem v hne] at ha
    exact ⟨hbusy, rfl, hadmitted, lt_of_engineMayWrite hadmitted⟩

/-- No command writes memory. -/
theorem exec_mem {i : Instr} {s t : State} (h : exec i s = .next t) : t.mem = s.mem := by
  rcases exec_cases h with ⟨st, r, rfl⟩ | ⟨f, rfl⟩ | ⟨br, con, m, -, -, rfl⟩ | ⟨sel, -, -, rfl⟩
    | ⟨-, -, -, rfl⟩ | ⟨-, rfl⟩ | ⟨base, len, -, -, -, hstart⟩
  · rfl
  · rfl
  · exact s.toDisabled_mem
  · rfl
  · rfl
  · exact s.toDisabled_mem
  · obtain ⟨-, rfl⟩ := State.startTransfer_ok hstart
    rfl

/-- The byte a host access changes is the one the host has written. -/
theorem onHostWrite_changed {s : State} {a : Nat} {b : Half} {v : Byte}
    (hmem : Memory.wf s.mem = true) (ha : (onHostWrite b v s).byteAt a ≠ s.byteAt a) :
    a = b.toNat ∧ (onHostWrite b v s).byteAt a = v := by
  rcases onHostWrite_cases b v s with ⟨-, heq⟩ | ⟨-, heq⟩
  · rw [heq] at ha
    exact absurd rfl ha
  · rw [heq] at ha ⊢
    obtain rfl : a = b.toNat := by
      by_contra hne
      exact ha (Memory.read_write_other s.mem v hne)
    exact ⟨rfl, Memory.read_write_same v hmem⟩

theorem onHostRead_mem (a : Half) (s : State) : (onHostRead a s).mem = s.mem := by
  rcases onHostRead_cases a s with ⟨-, heq⟩ | ⟨-, heq⟩
  · rw [heq]; rfl
  · rw [heq]

/-- Settles O51: of the ways an event has, only a host write and an engine event touch memory. -/
theorem memoryWrittenOnlyInPlace : Obligations.MemoryWrittenOnlyInPlace := by
  intro s t a hmem h ha
  rcases step_cases h with ⟨-, rfl⟩ | ⟨e, rest, hin, hevent⟩
  · exact absurd rfl ha
  refine ⟨e, rest, hin, ?_⟩
  have hchanged : t.mem ≠ s.mem := fun hsame => ha (by simp only [State.byteAt, hsame])
  rcases hevent with ⟨w, i, -, -, -, hexec⟩ | ⟨w, why, -, -, -, rfl⟩ | ⟨rx, rfl, -, rfl⟩
    | ⟨rx, rfl, -, rfl⟩ | ⟨b, -, rfl⟩ | ⟨b, v, rfl, rfl⟩ | ⟨-, rfl⟩ | ⟨-, -, rfl⟩
  · exact absurd (exec_mem hexec) hchanged
  · exact absurd rfl hchanged
  · exact .inr ⟨rfl, (State.WritesFrameByteOnly.of_onTick rx (s.takeInput rest)).changed ha⟩
  · exact .inr ⟨rfl, (State.WritesFrameByteOnly.of_onExtCell rx (s.takeInput rest)).changed ha⟩
  · exact absurd (onHostRead_mem b (s.takeInput rest)) hchanged
  · exact .inl ⟨b, v, rfl, onHostWrite_changed (s := s.takeInput rest) hmem ha⟩
  · exact absurd rfl hchanged
  · exact absurd rfl hchanged

end Sys2Proof.Machine
end

section
/-! A transfer event by event (spec/43_transceive.md R136-R139, R143): from its start, with just the
events it needs, the counters tell after each of them how many have happened. -/

namespace Sys2Proof.Machine

/-! ### One cell -/

/-- What the last cell of a frame does, with the byte `v` written back (43_transceive.md R139). -/
structure State.CompletesFrame (s : State) (rx : Bool) (v : Byte) (t : State) : Prop where
  done : t.done = s.done + 1#8
  bitpos : t.bitpos = 0#3
  phase : t.phase = if t.done = s.len then .enabledIdle else s.phase
  baudcnt : t.baudcnt = if t.done = s.len then s.baudcnt else s.br
  mem : t.mem = Memory.write s.mem (s.base.toNat + s.done.toNat) v
  trace : t.trace = s.trace
    ++ [.cell s.done s.bitpos (txBit s.params s.con s.sr) rx (edgeOrder s.params s.con),
      .engineWrite (s.base.toNat + s.done.toNat) v, .frameDone s.done v]
    ++ if t.done = s.len then []
      else [.engineRead (s.base.toNat + t.done.toNat) (t.byteAt (s.base.toNat + t.done.toNat))]

theorem State.completesFrame_of_advance {s t : State} {rx : Bool}
    (h : (s.shifted rx).writtenBack.advance = .ok t) :
    s.CompletesFrame rx (s.shifted rx).writeBack t := by
  rcases State.advance_ok h with ⟨hlast, rfl⟩ | ⟨hmore, a, rfl, -, rfl⟩
  · have hlast : s.done + 1#8 = s.len := hlast
    constructor <;> simp [hlast, State.writtenBack, State.shifted]
  · have hmore : s.done + 1#8 ≠ s.len := hmore
    constructor <;> simp [hmore, State.writtenBack, State.shifted, State.byteAt]

/-- A cell of a frame moves BITPOS inside it or completes it. -/
theorem State.cell_inside_or_completes {s t : State} {rx : Bool} (hbit : s.bitpos.toNat < s.width)
    (h : s.cell rx = .ok t) :
    (s.bitpos.toNat + 1 < s.width ∧ t = { s.shifted rx with bitpos := s.bitpos + 1#3 })
    ∨ (s.bitpos.toNat + 1 = s.width ∧ s.CompletesFrame rx (s.shifted rx).writeBack t) := by
  rcases State.cell_ok h with ⟨hne, heq⟩ | ⟨hlast, -, hadvance⟩
  · exact .inl ⟨by omega, heq⟩
  · exact .inr ⟨by omega, State.completesFrame_of_advance hadvance⟩

/-- In a buffer that is admitted no cell of a frame in flight faults (20_memory.md R52). -/
theorem State.cell_succeeds {s : State} (hadm : s.BufferAdmitted)
    (hdone : s.done.toNat < s.len.toNat) (rx : Bool) : ∃ t, s.cell rx = .ok t := by
  unfold State.cell
  split
  · cases hframe : (s.shifted rx).frameComplete with
    | ok t => exact ⟨t, rfl⟩
    | error f =>
      rcases State.frameComplete_error hframe with ⟨hdenied, -⟩ | hadvance
      · have hwrite : engineMayWrite s.params (s.base.toNat + s.done.toNat) = false := hdenied
        rw [(hadm _ hdone).2] at hwrite
        cases hwrite
      · obtain ⟨hmore, hdenied, -⟩ := State.advance_error hadvance
        have hmore : s.done + 1#8 ≠ s.len := hmore
        have hread : engineMayRead s.params (s.base.toNat + (s.done + 1#8).toNat) = false := hdenied
        have hnext : (s.done + 1#8).toNat < s.len.toNat := by bv_omega
        rw [(hadm _ hnext).1] at hread
        cases hread
  · exact ⟨_, rfl⟩

/-- A cell of a frame in flight that finds BAUDCNT reloaded is one step of the count `DONE·w + BITPOS`,
and leaves all memory but the frame's byte alone. -/
theorem State.cell_advances {s t : State} {rx : Bool} (hbusy : s.phase = .enabledBusy)
    (hdone : s.done.toNat < s.len.toNat) (hbit : s.bitpos.toNat < s.width)
    (hbaud : s.baudcnt = s.br) (h : s.cell rx = .ok t) :
    t.phase = (if t.done = s.len then .enabledIdle else .enabledBusy)
    ∧ t.bitpos.toNat < s.width
    ∧ t.done.toNat * s.width + t.bitpos.toNat = s.done.toNat * s.width + s.bitpos.toNat + 1
    ∧ t.baudcnt = s.br
    ∧ s.done.toNat ≤ t.done.toNat
    ∧ ∀ a, a < s.base.toNat ∨ s.base.toNat + t.done.toNat ≤ a → t.byteAt a = s.byteAt a := by
  rcases State.cell_inside_or_completes hbit h with ⟨hinside, rfl⟩ | ⟨hend, hframe⟩
  · have hne : s.done ≠ s.len := by rintro heq; simp [heq] at hdone
    have hnext : (s.bitpos + 1#3).toNat = s.bitpos.toNat + 1 := by
      have hle := s.width_le
      rw [BitVec.toNat_add_of_lt (by simp; omega)]; rfl
    refine ⟨?_, ?_, ?_, hbaud, le_rfl, fun _ _ => rfl⟩
    · show s.phase = if s.done = s.len then .enabledIdle else .enabledBusy
      rw [if_neg hne, hbusy]
    · exact hnext.trans_lt hinside
    · exact congrArg (s.done.toNat * s.width + ·) hnext
  · have hnext : t.done.toNat = s.done.toNat + 1 := by rw [hframe.done]; bv_omega
    refine ⟨by rw [hframe.phase, hbusy], by rw [hframe.bitpos]; exact s.width_pos, ?_, ?_,
      by omega, fun a ha => ?_⟩
    · rw [hnext, hframe.bitpos, Nat.add_one_mul, add_assoc _ s.bitpos.toNat, hend]; rfl
    · rw [hframe.baudcnt, hbaud, ite_self]
    · rw [State.byteAt, hframe.mem]
      exact Memory.read_write_other _ _ (by omega)

/-! ### One event of the engine's mode -/

/-- The event that moves the engine in the mode the block is in. -/
def State.engineInput (s : State) (rx : Bool) : Input :=
  if s.isMaster then .tick rx else .extCell rx

/-- What waits after the first `k` events of a transfer. -/
def State.eventsFrom (s : State) (l : List Bool) (rest : List Input) (k : Nat) : List Input :=
  (l.drop k).map s.engineInput ++ rest

theorem State.eventsFrom_of_lt (s : State) {l : List Bool} (rest : List Input) {k : Nat}
    (hk : k < l.length) :
    s.eventsFrom l rest k = s.engineInput l[k] :: s.eventsFrom l rest (k + 1) := by
  rw [State.eventsFrom, List.drop_eq_getElem_cons hk]; rfl

theorem State.eventsPerCell_pos (s : State) : 0 < s.eventsPerCell := by
  unfold State.eventsPerCell
  split <;> omega

/-- Both modes in one: the events of a transfer are `n·w` cells' worth of the mode's events. -/
theorem State.TransferEvents.eq {s : State} {l : List Bool} {rest : List Input}
    (h : s.TransferEvents l rest) :
    s.inputs = s.eventsFrom l rest 0 ∧ l.length = s.len.toNat * s.width * s.eventsPerCell := by
  rcases h with ⟨hmode, hin, hlen⟩ | ⟨hmode, hin, hlen⟩
  · have hevents : s.engineInput = Input.tick := by funext rx; simp [State.engineInput, hmode]
    simp [State.eventsFrom, State.eventsPerCell, hmode, hevents, hin, hlen]
  · have hevents : s.engineInput = Input.extCell := by funext rx; simp [State.engineInput, hmode]
    simp [State.eventsFrom, State.eventsPerCell, hmode, hevents, hin, hlen]

/-- An event of the engine's mode, in flight, counts a TICK down or is a cell with BAUDCNT reloaded. In
Slave mode, where BAUDCNT is BR throughout, the reload changes nothing. -/
theorem step_engineInput {s t : State} {rx : Bool} {rest : List Input} (hf : s.fault = none)
    (hbusy : s.phase = .enabledBusy) (hslave : s.isMaster = false → s.baudcnt = s.br)
    (hin : s.inputs = s.engineInput rx :: rest) (h : step s = .next t) :
    (s.isMaster = true ∧ s.baudcnt ≠ 0#16
      ∧ t = { s.takeInput rest with baudcnt := s.baudcnt - 1#16 })
    ∨ ((s.isMaster = true → s.baudcnt = 0#16)
      ∧ t = (s.takeInput rest).commit ({ s.takeInput rest with baudcnt := s.br }.cell rx)) := by
  have hb : (s.takeInput rest).bsy = true := by simpa using hbusy
  rw [step_of_inputs_cons hin] at h
  cases hm : s.isMaster with
  | true =>
    have hm' : (s.takeInput rest).isMaster = true := hm
    rw [State.engineInput, hm, if_pos rfl, stepInput_tick (s := s.takeInput rest) hf] at h
    obtain rfl := Host.Outcome.next.inj h
    by_cases hz : s.baudcnt = 0#16
    · exact .inr ⟨fun _ => hz, by simp [onTick, hb, hm', hz]⟩
    · exact .inl ⟨rfl, hz, by simp [onTick, hb, hm', hz]⟩
  | false =>
    have hm' : (s.takeInput rest).isMaster = false := hm
    rw [State.engineInput, hm, if_neg nofun, stepInput_extCell (s := s.takeInput rest) hf] at h
    obtain rfl := Host.Outcome.next.inj h
    refine .inr ⟨nofun, ?_⟩
    rw [← hslave hm, onExtCell, hb, hm']; rfl

/-! ### The state after `k` events -/

/-- `u` is as the first `k` events of a transfer leave the block, the transfer having started at `s`
with `l` the bits of its events: so many cells have happened, the next one is so many TICKs away, the
configuration is as it was and so is the memory outside the frames that are done. -/
structure State.AfterEvents (s : State) (l : List Bool) (rest : List Input) (k : Nat) (u : State) :
    Prop where
  inputs : u.inputs = s.eventsFrom l rest k
  fault : u.fault = none
  params : u.params = s.params
  br : u.br = s.br
  con : u.con = s.con
  ms : u.ms = s.ms
  cfgv : u.cfgv = s.cfgv
  pisel : u.pisel = s.pisel
  base : u.base = s.base
  len : u.len = s.len
  phase : u.phase = if u.done = s.len then .enabledIdle else .enabledBusy
  bitpos_lt : u.bitpos.toNat < s.width
  cells : u.done.toNat * s.width + u.bitpos.toNat = k / s.eventsPerCell
  baudcnt : u.baudcnt.toNat + k % s.eventsPerCell = s.br.toNat
  mem_wf : Memory.wf s.mem = true → Memory.wf u.mem = true
  untouched : ∀ a, a < s.base.toNat ∨ s.base.toNat + u.done.toNat ≤ a → u.byteAt a = s.byteAt a

section
variable {s u t : State} {l : List Bool} {rest : List Input} {k : Nat}

theorem State.AfterEvents.start (hs : s.AtTransferStart) (hev : s.TransferEvents l rest) :
    s.AfterEvents l rest 0 s where
  inputs := hev.eq.1
  fault := hs.no_fault
  params := rfl
  br := rfl
  con := rfl
  ms := rfl
  cfgv := rfl
  pisel := rfl
  base := rfl
  len := rfl
  phase := by rw [hs.done_zero, if_neg hs.len_pos.symm, hs.busy]
  bitpos_lt := by rw [hs.bitpos_zero]; exact s.width_pos
  cells := by simp [hs.done_zero, hs.bitpos_zero]
  baudcnt := by simp [hs.baudcnt_br]
  mem_wf := id
  untouched _ _ := rfl

theorem State.AfterEvents.width (h : s.AfterEvents l rest k u) : u.width = s.width := by
  simp only [State.width, h.con]

theorem State.AfterEvents.isMaster (h : s.AfterEvents l rest k u) : u.isMaster = s.isMaster := by
  simp only [State.isMaster, h.params, h.ms]

theorem State.AfterEvents.engineInput (h : s.AfterEvents l rest k u) :
    u.engineInput = s.engineInput := by
  funext rx; simp only [State.engineInput, h.isMaster]

theorem State.AfterEvents.bufferAdmitted (h : s.AfterEvents l rest k u) (hs : s.AtTransferStart) :
    u.BufferAdmitted := by
  simpa only [State.BufferAdmitted, h.params, h.base, h.len] using hs.admitted

/-- In Slave mode BAUDCNT stays at BR. -/
theorem State.AfterEvents.slave_baudcnt (h : s.AfterEvents l rest k u) (hm : s.isMaster = false) :
    u.baudcnt = s.br := by
  have hb := h.baudcnt
  simp only [State.eventsPerCell, hm, Bool.false_eq_true, if_false, Nat.mod_one, add_zero] at hb
  exact BitVec.eq_of_toNat_eq hb

/-- Before the last event of a transfer there is a frame to do. -/
theorem State.AfterEvents.done_lt (h : s.AfterEvents l rest k u) (hev : s.TransferEvents l rest)
    (hk : k < l.length) : u.done.toNat < s.len.toNat := by
  rw [hev.eq.2] at hk
  have hcells : k / s.eventsPerCell < s.len.toNat * s.width :=
    (Nat.div_lt_iff_lt_mul s.eventsPerCell_pos).mpr hk
  rw [← h.cells] at hcells
  exact lt_of_mul_lt_mul_right (lt_of_le_of_lt (Nat.le_add_right _ _) hcells) (Nat.zero_le _)

/-- After the last event of a transfer every frame is done. -/
theorem State.AfterEvents.done_eq (h : s.AfterEvents l rest l.length u)
    (hev : s.TransferEvents l rest) : u.done = s.len := by
  have hcells := h.cells
  rw [hev.eq.2, Nat.mul_div_cancel _ s.eventsPerCell_pos] at hcells
  have hbit := h.bitpos_lt
  refine BitVec.eq_of_toNat_eq ?_
  calc u.done.toNat = (u.bitpos.toNat + u.done.toNat * s.width) / s.width := by
        rw [Nat.add_mul_div_right _ _ s.width_pos, Nat.div_eq_of_lt hbit, Nat.zero_add]
    _ = s.len.toNat := by
        rw [Nat.add_comm, hcells, Nat.mul_div_cancel _ s.width_pos]

/-- Before its last event a transfer is in flight. -/
theorem State.AfterEvents.busy (h : s.AfterEvents l rest k u) (hdone : u.done.toNat < s.len.toNat) :
    u.phase = .enabledBusy := by
  rw [h.phase, if_neg (by rintro heq; simp [heq] at hdone)]

/-- The block as a cell finds it: event `k` is taken and BAUDCNT reloaded. -/
def State.atCell (s : State) (l : List Bool) (rest : List Input) (k : Nat) (u : State) : State :=
  { u.takeInput (s.eventsFrom l rest (k + 1)) with baudcnt := s.br }

@[simp] theorem State.atCell_done : (s.atCell l rest k u).done = u.done := rfl

@[simp] theorem State.atCell_bitpos : (s.atCell l rest k u).bitpos = u.bitpos := rfl

@[simp] theorem State.atCell_base : (s.atCell l rest k u).base = u.base := rfl

@[simp] theorem State.atCell_len : (s.atCell l rest k u).len = u.len := rfl

@[simp] theorem State.atCell_mem : (s.atCell l rest k u).mem = u.mem := rfl

@[simp] theorem State.atCell_width : (s.atCell l rest k u).width = u.width := rfl

/-- Event `k` of a transfer is a TICK that counts down, or, every `eventsPerCell`-th time, a cell. -/
theorem State.AfterEvents.step_cases (h : s.AfterEvents l rest k u) (hs : s.AtTransferStart)
    (hev : s.TransferEvents l rest) (hk : k < l.length) (hstep : step u = .next t) :
    (k % s.eventsPerCell + 1 < s.eventsPerCell ∧ u.baudcnt ≠ 0#16
      ∧ t = { u.takeInput (s.eventsFrom l rest (k + 1)) with baudcnt := u.baudcnt - 1#16 })
    ∨ (k % s.eventsPerCell + 1 = s.eventsPerCell ∧ (s.atCell l rest k u).cell l[k] = .ok t) := by
  have hdone := h.done_lt hev hk
  have hin : u.inputs = u.engineInput l[k] :: s.eventsFrom l rest (k + 1) := by
    rw [h.inputs, h.engineInput, s.eventsFrom_of_lt rest hk]
  have hslave (hm : u.isMaster = false) : u.baudcnt = u.br := by
    rw [h.br, h.slave_baudcnt (h.isMaster ▸ hm)]
  have hbaud := h.baudcnt
  rcases step_engineInput h.fault (h.busy hdone) hslave hin hstep with
    ⟨hm, hne, rfl⟩ | ⟨hzero, rfl⟩
  · have hper : s.eventsPerCell = s.br.toNat + 1 := by
      simp [State.eventsPerCell, ← h.isMaster, hm]
    have hpos : 0 < u.baudcnt.toNat := by bv_omega
    exact .inl ⟨by omega, hne, rfl⟩
  · have hper : k % s.eventsPerCell + 1 = s.eventsPerCell := by
      cases hm : s.isMaster with
      | true =>
        have hz : u.baudcnt.toNat = 0 := by rw [hzero (h.isMaster.trans hm)]; rfl
        have hper : s.eventsPerCell = s.br.toNat + 1 := by simp [State.eventsPerCell, hm]
        omega
      | false => simp [State.eventsPerCell, hm, Nat.mod_one]
    obtain ⟨v, hv⟩ := State.cell_succeeds (s := s.atCell l rest k u) (h.bufferAdmitted hs)
      (by simpa [h.len] using hdone) l[k]
    have hcell : { u.takeInput (s.eventsFrom l rest (k + 1)) with baudcnt := u.br }
        = s.atCell l rest k u := by rw [State.atCell, h.br]
    refine .inr ⟨hper, ?_⟩
    rw [hcell, hv]; rfl

/-! ### The next event -/

theorem div_mod_succ_of_lt {k e : Nat} (h : k % e + 1 < e) :
    (k + 1) / e = k / e ∧ (k + 1) % e = k % e + 1 := by
  have hk := Nat.mod_add_div k e
  exact (Nat.div_mod_unique (by omega)).mpr ⟨by omega, h⟩

theorem div_mod_succ_of_eq {k e : Nat} (h : k % e + 1 = e) :
    (k + 1) / e = k / e + 1 ∧ (k + 1) % e = 0 := by
  have hk := Nat.mod_add_div k e
  exact (Nat.div_mod_unique (by omega)).mpr ⟨by rw [Nat.mul_add_one]; omega, by omega⟩

/-- A TICK that counts down is an event inside a cell. -/
theorem State.AfterEvents.count (h : s.AfterEvents l rest k u)
    (hinside : k % s.eventsPerCell + 1 < s.eventsPerCell) (hne : u.baudcnt ≠ 0#16) :
    s.AfterEvents l rest (k + 1)
      { u.takeInput (s.eventsFrom l rest (k + 1)) with baudcnt := u.baudcnt - 1#16 } := by
  obtain ⟨hdiv, hmod⟩ := div_mod_succ_of_lt hinside
  have hbaud := h.baudcnt
  exact { h with
    inputs := rfl
    cells := h.cells.trans hdiv.symm
    baudcnt := by
      show (u.baudcnt - 1#16).toNat + (k + 1) % s.eventsPerCell = s.br.toNat
      rw [hmod]; bv_omega }

/-- A cell happens at the last of its events. -/
theorem State.AfterEvents.cell (h : s.AfterEvents l rest k u) (hdone : u.done.toNat < s.len.toNat)
    (hlast : k % s.eventsPerCell + 1 = s.eventsPerCell) {rx : Bool}
    (hcell : (s.atCell l rest k u).cell rx = .ok t) : s.AfterEvents l rest (k + 1) t := by
  obtain ⟨hdiv, hmod⟩ := div_mod_succ_of_eq hlast
  have hwidth : (s.atCell l rest k u).width = s.width := by rw [State.atCell_width, h.width]
  obtain ⟨hphase, hbit, hcells, hbaud, hle, huntouched⟩ := State.cell_advances
    (s := s.atCell l rest k u) (h.busy hdone)
    (by simpa [h.len] using hdone)
    (by simpa [hwidth] using h.bitpos_lt) h.br.symm hcell
  obtain ⟨-, hparams, hbr, hcon, hms, hcfgv, hlen, hbase, hpisel, hfault, hinputs, -⟩ :=
    State.cell_moves hcell
  rw [hwidth] at hbit hcells
  exact {
    inputs := hinputs
    fault := hfault.trans h.fault
    params := hparams.trans h.params
    br := hbr.trans h.br
    con := hcon.trans h.con
    ms := hms.trans h.ms
    cfgv := hcfgv.trans h.cfgv
    pisel := hpisel.trans h.pisel
    base := hbase.trans h.base
    len := hlen.trans h.len
    phase := by rw [hphase, ← h.len]; rfl
    bitpos_lt := hbit
    cells := by rw [hcells, State.atCell_done, State.atCell_bitpos, h.cells, hdiv]
    baudcnt := by rw [hbaud, hmod]; exact congrArg BitVec.toNat h.br
    mem_wf := fun hmem => State.cell_mem_wf (by rw [State.atCell_mem]; exact h.mem_wf hmem) hcell
    untouched := fun a ha => by
      rw [State.atCell_base, h.base] at huntouched
      rw [State.atCell_done] at hle
      exact (huntouched a ha).trans (h.untouched a (ha.imp_right fun hge => by omega)) }

/-- The next event of a transfer leaves the block as that many events do. -/
theorem State.AfterEvents.step (h : s.AfterEvents l rest k u) (hs : s.AtTransferStart)
    (hev : s.TransferEvents l rest) (hk : k < l.length) (hstep : step u = .next t) :
    s.AfterEvents l rest (k + 1) t := by
  rcases h.step_cases hs hev hk hstep with ⟨hinside, hne, rfl⟩ | ⟨hlast, hcell⟩
  · exact h.count hinside hne
  · exact h.cell (h.done_lt hev hk) hlast hcell

/-- What holds at the start of a transfer and is kept by each of its events holds of every state of its
run, together with what `AfterEvents` says. -/
theorem State.transfer_induction {P : State → Prop} (hs : s.AtTransferStart)
    (hev : s.TransferEvents l rest) (hstart : P s)
    (hstep : ∀ k u v, k < l.length → s.AfterEvents l rest k u →
      s.AfterEvents l rest (k + 1) v → step u = .next v → P u → P v)
    (hk : k ≤ l.length) (hrun : core.run k s = .next t) : s.AfterEvents l rest k t ∧ P t := by
  induction k generalizing t with
  | zero =>
    obtain rfl := Host.Outcome.next.inj hrun
    exact ⟨State.AfterEvents.start hs hev, hstart⟩
  | succ k ih =>
    obtain ⟨u, hu, hlast⟩ := run_succ.mp hrun
    obtain ⟨hafter, hP⟩ := ih (by omega) hu
    have hnext := hafter.step hs hev hk hlast
    exact ⟨hnext, hstep k u t hk hafter hnext hlast hP⟩

end

end Sys2Proof.Machine
end

section
/-! The engine's accesses in a transfer (spec/20_memory.md R57): the frames done log theirs, and at the
end all are done. -/

namespace Sys2Proof.Machine

/-- The accesses of frame `i` of a transfer from `s`, as they are with the memory of `t`: the byte
written back, and the next byte read, as it was at the start. -/
def State.frameAccesses (s t : State) (i : Nat) : List Event :=
  .engineWrite (s.base.toNat + i) (t.byteAt (s.base.toNat + i))
    :: (if i + 1 < s.len.toNat then
        [.engineRead (s.base.toNat + (i + 1)) (s.byteAt (s.base.toNat + (i + 1)))]
      else [])

/-- The engine's accesses since `s` are those of the frames done. -/
def State.AccessesLogged (s u : State) : Prop :=
  ∃ es, u.trace = s.trace ++ es
    ∧ es.filter Event.isEngineAccess = (List.range u.done.toNat).flatMap (s.frameAccesses u)

section
variable {s u t : State} {l : List Bool} {rest : List Input} {k : Nat}

theorem State.frameAccesses_congr {i : Nat}
    (h : t.byteAt (s.base.toNat + i) = u.byteAt (s.base.toNat + i)) :
    s.frameAccesses t i = s.frameAccesses u i := by
  rw [State.frameAccesses, State.frameAccesses, h]

/-- Events that are no accesses of the engine and leave DONE and memory alone keep the log. -/
theorem State.AccessesLogged.append {es : List Event} (h : s.AccessesLogged u)
    (htrace : t.trace = u.trace ++ es) (hes : es.filter Event.isEngineAccess = [])
    (hdone : t.done = u.done) (hmem : t.mem = u.mem) : s.AccessesLogged t := by
  obtain ⟨es₀, htrace₀, hes₀⟩ := h
  refine ⟨es₀ ++ es, by rw [htrace, htrace₀, List.append_assoc], ?_⟩
  rw [List.filter_append, hes, hes₀, List.append_nil, hdone]
  exact List.flatMap_congr fun i _ => State.frameAccesses_congr (by simp only [State.byteAt, hmem])

/-- The end of a frame logs the accesses of that frame. -/
theorem State.AccessesLogged.completes {v : Byte} {rx : Bool} {c : State}
    (h : s.AccessesLogged c) (hmem : Memory.wf c.mem = true)
    (hbase : c.base = s.base) (hlen : c.len = s.len) (hdone : c.done.toNat < s.len.toNat)
    (hframe : c.CompletesFrame rx v t)
    (hahead : t.byteAt (s.base.toNat + t.done.toNat) = s.byteAt (s.base.toNat + t.done.toNat)) :
    s.AccessesLogged t := by
  obtain ⟨es, htrace, hes⟩ := h
  have hnext : t.done.toNat = c.done.toNat + 1 := by rw [hframe.done]; bv_omega
  rw [hnext] at hahead
  have hlast : t.done = s.len ↔ ¬ c.done.toNat + 1 < s.len.toNat := by
    rw [← BitVec.toNat_inj, hnext]; omega
  have hwritten : t.byteAt (s.base.toNat + c.done.toNat) = v := by
    rw [State.byteAt, hframe.mem, hbase]
    exact Memory.read_write_same v hmem
  have hothers : ∀ i ∈ List.range c.done.toNat, s.frameAccesses c i = s.frameAccesses t i := by
    intro i hi
    have hne : s.base.toNat + i ≠ s.base.toNat + c.done.toNat := by
      have := List.mem_range.mp hi
      omega
    refine State.frameAccesses_congr ?_
    rw [State.byteAt, State.byteAt, hframe.mem, hbase, Memory.read_write_other _ _ hne]
  refine ⟨_, by rw [hframe.trace, htrace, List.append_assoc, List.append_assoc], ?_⟩
  rw [List.filter_append, hes, hnext, List.range_succ, List.flatMap_append,
    List.flatMap_congr hothers, List.flatMap_singleton, State.frameAccesses, hwritten, hbase, hlen,
    hahead]
  by_cases hend : c.done.toNat + 1 < s.len.toNat
  · rw [if_neg (by rw [hlast]; exact not_not_intro hend), if_pos hend]; rfl
  · rw [if_pos (hlast.mpr hend), if_neg hend]; rfl

/-- Each event of a transfer keeps the log: inside a frame nothing is accessed. -/
theorem State.AccessesLogged.step (hmem : Memory.wf s.mem = true) (hs : s.AtTransferStart)
    (hev : s.TransferEvents l rest) (hk : k < l.length) (hu : s.AfterEvents l rest k u)
    (ht : s.AfterEvents l rest (k + 1) t) (hstep : step u = .next t) (h : s.AccessesLogged u) :
    s.AccessesLogged t := by
  rcases hu.step_cases hs hev hk hstep with ⟨-, -, rfl⟩ | ⟨-, hcell⟩
  · exact h.append (es := []) (List.append_nil _).symm rfl rfl rfl
  have hbit : (s.atCell l rest k u).bitpos.toNat < (s.atCell l rest k u).width := by
    simpa [hu.width] using hu.bitpos_lt
  rcases State.cell_inside_or_completes hbit hcell with ⟨-, rfl⟩ | ⟨-, hframe⟩
  · exact h.append rfl rfl rfl rfl
  · exact State.AccessesLogged.completes (c := s.atCell l rest k u) h (hu.mem_wf hmem) hu.base hu.len
      (hu.done_lt hev hk) hframe (ht.untouched _ (.inr le_rfl))

end

/-- Settles O47: the log of the frames done is kept by every event, and at the end all are done. -/
theorem transferMakesTheseAccesses : Obligations.TransferMakesTheseAccesses := by
  intro s t l rest hmem hs hev hrun
  have hstart : s.AccessesLogged s := ⟨[], (List.append_nil _).symm, by simp [hs.done_zero]⟩
  obtain ⟨hafter, es, htrace, hes⟩ := State.transfer_induction (P := s.AccessesLogged) hs hev hstart
    (fun _ _ _ hk hu hv hstep hlog => hlog.step hmem hs hev hk hu hv hstep) le_rfl hrun
  rw [hafter.done_eq hev] at hes
  exact ⟨es, htrace, hes⟩

end Sys2Proof.Machine
end

section
/-! The command words (spec/30_encoding.md R70-R84): the decoder and the encoder undo each other, and the
rows of the opcode table select what the decoder accepts. -/

namespace Sys2Proof

/-! ### Fields of a word laid out by concatenation -/

theorem extractLsb'_append_low {v w s n : Nat} (x : BitVec v) (y : BitVec w) (h : s + n ≤ w) :
    (x ++ y).extractLsb' s n = y.extractLsb' s n :=
  BitVec.eq_of_getLsbD_eq fun k hk => by
    simp [BitVec.getLsbD_append, hk, show s + k < w by omega]

theorem extractLsb'_append_high {v w s n : Nat} (x : BitVec v) (y : BitVec w) (h : w ≤ s) :
    (x ++ y).extractLsb' s n = x.extractLsb' (s - w) n :=
  BitVec.eq_of_getLsbD_eq fun k hk => by
    simp [BitVec.getLsbD_append, hk, show ¬ s + k < w by omega,
      show s + k - w = s - w + k by omega]

/-! ### The decoder -/

theorem opcodeOf_eq_some_iff {b : Byte} {op : Opcode} : opcodeOf b = some op ↔ b = op.code := by
  constructor
  · intro h
    unfold opcodeOf at h
    split_ifs at h <;> cases h <;> assumption
  · rintro rfl
    cases op <;> rfl

@[simp] theorem opcode_operandsOf (c : Word64) (op : Opcode) : (operandsOf c op).opcode = op := by
  cases op <;> rfl

/-- A word decodes to a command when it has the opcode's low byte, clear reserved bits, and the
command's operands in its fields. -/
theorem decode_eq_command_iff {c : Word64} {i : Instr} :
    decode c = .command i ↔ c.extractLsb' 0 8 = i.opcode.code
      ∧ reservedClear c i.opcode = true ∧ operandsOf c i.opcode = i := by
  rw [← opcodeOf_eq_some_iff]
  constructor
  · intro h
    unfold decode at h
    split at h
    · cases h
    · rename_i op hop
      split at h
      · rename_i hclear
        cases h
        rw [opcode_operandsOf]
        exact ⟨hop, hclear, rfl⟩
      · cases h
  · rintro ⟨hop, hclear, hi⟩
    simp only [decode, hop, hclear, if_true, hi]

/-! ### The encoder, field by field -/

theorem lowByte_encode (i : Instr) : (encode i).extractLsb' 0 8 = i.opcode.code := by
  cases i <;> exact (extractLsb'_append_low _ _ (by decide)).trans BitVec.extractLsb'_eq_self

theorem reservedClear_encode (i : Instr) : reservedClear (encode i) i.opcode = true := by
  cases i <;>
    simp (disch := decide) only [encode, Instr.opcode, reservedClear, extractLsb'_append_low,
      extractLsb'_append_high, BitVec.extractLsb'_zero, Nat.reduceSub, beq_self_eq_true,
      Bool.and_self]

theorem operandsOf_encode (i : Instr) : operandsOf (encode i) i.opcode = i := by
  cases i <;>
    simp (disch := decide) only [encode, Instr.opcode, operandsOf, extractLsb'_append_low,
      extractLsb'_append_high, BitVec.extractLsb'_eq_self, Nat.reduceSub]

/-- Settles O2: each part of the encoded word is what the decoder looks for. -/
theorem decodeEncodeRoundTrip : Obligations.DecodeEncodeRoundTrip := fun i =>
  decode_eq_command_iff.mpr ⟨lowByte_encode i, reservedClear_encode i, operandsOf_encode i⟩

/-- The low byte, the operand fields and the reserved bits of a word make up the whole word: read as
parts of it, they join again from bit 0 to bit 63. -/
theorem encode_operandsOf {c : Word64} {op : Opcode} (hop : c.extractLsb' 0 8 = op.code)
    (hclear : reservedClear c op = true) : encode (operandsOf c op) = c := by
  cases op
  all_goals
    simp only [reservedClear, Bool.and_eq_true, beq_iff_eq, Opcode.code] at hop hclear
    simp (disch := rfl) only [operandsOf, encode, ← hop, ← hclear,
      BitVec.extractLsb'_append_extractLsb'_eq_extractLsb']
    exact BitVec.extractLsb'_eq_self

/-- Settles O3: the word's own parts are the operands it decodes to. -/
theorem encodeDecodeRoundTrip : Obligations.EncodeDecodeRoundTrip := by
  intro c i h
  obtain ⟨hop, hclear, hi⟩ := decode_eq_command_iff.mp h
  rw [← hi, encode_operandsOf hop hclear]

/-! ### The opcode table -/

theorem opcodeTable_value : ∀ r ∈ opcodeTable, r.value = r.op.code.setWidth 64 := by decide

theorem opcodeTable_mask :
    ∀ r ∈ opcodeTable, ∀ k, k < 64 → r.mask.getLsbD k = (decide (k < 8) || !r.op.hasField k) := by
  decide

theorem opcodeTable_row_unique : ∀ r ∈ opcodeTable, ∀ r' ∈ opcodeTable, r.op = r'.op → r = r' := by
  decide

theorem exists_row_of_opcode (op : Opcode) : ∃ r ∈ opcodeTable, r.op = op := by
  cases op <;> decide

/-- The bits of no operand field are the reserved bits the decoder checks. -/
theorem reservedClear_of_bits {c : Word64} {op : Opcode}
    (h : ∀ k, 8 ≤ k → k < 64 → op.hasField k = false → c.getLsbD k = false) :
    reservedClear c op = true := by
  have clear (s n : Nat)
      (hres : ∀ k, k < n → 8 ≤ s + k ∧ s + k < 64 ∧ op.hasField (s + k) = false) :
      (c.extractLsb' s n == 0#n) = true := by
    refine beq_iff_eq.mpr (BitVec.eq_of_getLsbD_eq fun k hk => ?_)
    obtain ⟨hlow, hhigh, hfield⟩ := hres k hk
    simp [h (s + k) hlow hhigh hfield]
  cases op
  case ports => simp [reservedClear, clear 8 16 (by decide), clear 32 32 (by decide)]
  all_goals exact clear _ _ (by decide)

theorem TableRow.selects_iff_bits {r : TableRow} {c : Word64} :
    r.selects c = true
      ↔ ∀ k, k < 64 → (c.getLsbD k && r.mask.getLsbD k) = r.value.getLsbD k := by
  simp [TableRow.selects, BitVec.eq_of_getLsbD_eq_iff]

/-- A row that selects a word compares its low byte and every bit of no operand field. -/
theorem TableRow.bit_of_selects {r : TableRow} (hr : r ∈ opcodeTable) {c : Word64}
    (h : r.selects c = true) {k : Nat} (hk : k < 64) (hres : k < 8 ∨ r.op.hasField k = false) :
    c.getLsbD k = r.op.code.getLsbD k := by
  have hmask : r.mask.getLsbD k = true := by
    rw [opcodeTable_mask r hr k hk]
    rcases hres with hlow | hfield <;> simp [*]
  have hbit := TableRow.selects_iff_bits.mp h k hk
  rw [hmask, Bool.and_true, opcodeTable_value r hr] at hbit
  simpa [hk] using hbit

theorem TableRow.selects_iff {r : TableRow} (hr : r ∈ opcodeTable) {c : Word64} :
    r.selects c = true ↔ ∃ i, decode c = .command i ∧ i.opcode = r.op := by
  constructor
  · intro h
    have hop : c.extractLsb' 0 8 = r.op.code := BitVec.eq_of_getLsbD_eq fun k hk => by
      simpa [hk] using TableRow.bit_of_selects hr h (by omega) (.inl hk)
    have hclear : reservedClear c r.op = true := reservedClear_of_bits fun k hlow hk hfield =>
      (TableRow.bit_of_selects hr h hk (.inr hfield)).trans (BitVec.getLsbD_of_ge _ _ hlow)
    exact ⟨operandsOf c r.op, decode_eq_command_iff.mpr (by simp [hop, hclear]), by simp⟩
  · rintro ⟨i, hi, hop⟩
    obtain ⟨r', hr', hop', hsel⟩ := Laws.EncodingSelectsRow.all i
    rwa [opcodeTable_row_unique r hr r' hr' (hop.symm.trans hop'.symm),
      ← encodeDecodeRoundTrip c i hi]

/-- Settles O4: match and mask row by row; the selecting row compares the bits the decoder checks. -/
theorem tableSelectsDecodedOpcode : Obligations.TableSelectsDecodedOpcode := fun r hr =>
  ⟨opcodeTable_value r hr, opcodeTable_mask r hr, fun _ => TableRow.selects_iff hr⟩

/-- A word that decodes to a command selects the row of its opcode and no other. -/
theorem exists_unique_row_of_command {c : Word64} {i : Instr} (h : decode c = .command i) :
    ∃ r ∈ opcodeTable, r.op = i.opcode ∧ r.selects c = true
      ∧ ∀ r' ∈ opcodeTable, r'.selects c = true → r' = r := by
  obtain ⟨r, hr, hop⟩ := exists_row_of_opcode i.opcode
  refine ⟨r, hr, hop, (TableRow.selects_iff hr).mpr ⟨i, h, hop.symm⟩, fun r' hr' hsel => ?_⟩
  obtain ⟨j, hj, hop'⟩ := (TableRow.selects_iff hr').mp hsel
  obtain rfl : i = j := Decoded.command.inj (h.symm.trans hj)
  exact opcodeTable_row_unique r' hr' r hr (hop'.symm.trans hop.symm)

theorem decode_illegal_iff {c : Word64} :
    (∃ why, decode c = .illegal why) ↔ ∀ r ∈ opcodeTable, r.selects c = false := by
  constructor
  · rintro ⟨why, h⟩ r hr
    refine Bool.eq_false_iff.mpr fun hsel => ?_
    obtain ⟨i, hi, -⟩ := (TableRow.selects_iff hr).mp hsel
    rw [h] at hi; cases hi
  · intro h
    cases hdec : decode c with
    | illegal why => exact ⟨why, rfl⟩
    | command i =>
      obtain ⟨r, hr, -, hsel, -⟩ := exists_unique_row_of_command hdec
      rw [h r hr] at hsel; cases hsel

/-- Settles O1: the six words, decoded. -/
theorem sampleWordsDecode : Obligations.SampleWordsDecode := by
  unfold Obligations.SampleWordsDecode
  decide

end Sys2Proof
end

section
/-! A step on a command word (spec/30_encoding.md R83, R84): the decoded command runs, an illegal word is
answered, and every command ends in a response or a fault. -/

namespace Sys2Proof.Machine

/-! ### The command word at the head of the events -/

theorem stepInput_command {s : State} (hf : s.fault = none) (w : Word64) :
    stepInput (.command w) s = stepCommand w s := by
  simp [stepInput, hf]

theorem stepCommand_of_command {w : Word64} {i : Instr} (h : decode w = .command i) (s : State) :
    stepCommand w s = exec i (s.accept w) := by
  simp [stepCommand, fetch, h]

theorem stepCommand_of_illegal {w : Word64} {why : DecodeError} (h : decode w = .illegal why)
    (s : State) : stepCommand w s = .next (onIllegal (s.accept w)) := by
  simp [stepCommand, fetch, h]

theorem step_of_inputs_command {s : State} {w : Word64} {rest : List Input} (hf : s.fault = none)
    (hin : s.inputs = .command w :: rest) : step s = stepCommand w (s.takeInput rest) :=
  (step_of_inputs_cons hin).trans (stepInput_command (s := s.takeInput rest) hf w)

/-- Settles O6: the step is `stepCommand` of the word, which runs what the word decodes to. -/
theorem stepRunsDecodedCommand : Obligations.StepRunsDecodedCommand := by
  intro s w i rest hf hin hdec
  rw [step_of_inputs_command hf hin, stepCommand_of_command hdec]
  rfl

/-- Settles O5: a command's word selects the one row of its opcode; a word no row selects is illegal,
and the step answers it. -/
theorem everyWordOneCommandOrIllegal : Obligations.EveryWordOneCommandOrIllegal := by
  refine ⟨fun c => ?_, fun s c rest hf hin hnone => ?_⟩
  · cases hdec : decode c with
    | command i =>
      obtain ⟨r, hr, hop, hsel, honly⟩ := exists_unique_row_of_command hdec
      exact .inl ⟨r, hr, hsel, honly, i, rfl, hop.symm⟩
    | illegal why => exact .inr ⟨decode_illegal_iff.mp ⟨why, hdec⟩, why, rfl⟩
  · obtain ⟨why, hdec⟩ := decode_illegal_iff.mpr hnone
    rw [step_of_inputs_command hf hin, stepCommand_of_illegal hdec]
    simp [State.answer, State.emit, State.takeInput, State.clearOutputs]

/-! ### Every command answers or faults -/

/-- The end R83 and R192 allow a command: a response, last in the trace, or a fault and none. -/
def State.AnsweredOrFaulted (t : State) : Prop :=
  (t.fault = none ∧ ∃ r, t.response = some r ∧ t.trace.getLast? = some (.response r))
    ∨ (t.fault.isSome = true ∧ t.response = none)

theorem State.answeredOrFaulted_answer {s : State} (hf : s.fault = none) (st : Status) (r : Half) :
    (s.answer st r).AnsweredOrFaulted :=
  .inl ⟨hf, _, rfl, by simp⟩

theorem State.answeredOrFaulted_raiseFault (s : State) (f : FaultRecord) :
    (s.raiseFault f).AnsweredOrFaulted :=
  .inr ⟨rfl, rfl⟩

theorem State.answeredOrFaulted_startTransfer {s t : State} {base : Half} {len : Byte}
    (hf : s.fault = none) (h : s.startTransfer base len = .ok t) : t.AnsweredOrFaulted := by
  obtain ⟨-, rfl⟩ := State.startTransfer_ok h
  exact .inl ⟨hf, _, rfl, by simp⟩

theorem exec_answeredOrFaulted {i : Instr} {s t : State} (hf : s.fault = none)
    (h : exec i s = .next t) : t.AnsweredOrFaulted := by
  rcases exec_cases h with ⟨st, r, rfl⟩ | ⟨f, rfl⟩ | ⟨br, con, m, -, -, rfl⟩ | ⟨sel, -, -, rfl⟩
    | ⟨-, -, -, rfl⟩ | ⟨-, rfl⟩ | ⟨base, len, -, -, -, hstart⟩
  · exact State.answeredOrFaulted_answer hf st r
  · exact s.answeredOrFaulted_raiseFault f
  · exact State.answeredOrFaulted_answer (s.toDisabled_fault.trans hf) _ _
  · exact State.answeredOrFaulted_answer hf _ _
  · exact State.answeredOrFaulted_answer hf _ _
  · exact State.answeredOrFaulted_answer (s.toDisabled_fault.trans hf) _ _
  · exact State.answeredOrFaulted_startTransfer hf hstart

/-- Settles O12: `exec` has a next state, and each way a command can end is a response or a fault. -/
theorem everyCommandAnswersOrFaults : Obligations.EveryCommandAnswersOrFaults := by
  intro i s hf
  obtain ⟨t, ht⟩ := exec_next i s
  exact ⟨t, ht, exec_answeredOrFaulted hf ht⟩

end Sys2Proof.Machine
end

section
/-! The pseudo-operands of the assembler (spec/30_encoding.md R91, R92) and the encoder commands they stand
for (spec/40_config_encoder.md R100, R103). -/

namespace Sys2Proof.Machine

/-! ### The encoder commands, case by case -/

theorem exec_encodeBaud_of_some {s : State} {bps f : BitVec 24} {m : Bit} {d : Nat}
    (h : baudDivisor (isMasterBit s.params m) bps.toNat f.toNat = some d) :
    exec (.encodeBaud bps f m) s = .next (s.answer .ok (BitVec.ofNat 16 d)) := by
  simp [exec, execEncodeBaud, h]

theorem exec_encodeBaud_of_none {s : State} {bps f : BitVec 24} {m : Bit}
    (h : baudDivisor (isMasterBit s.params m) bps.toNat f.toNat = none) :
    exec (.encodeBaud bps f m) s = .next (s.answer .invalidParameter 0#16) := by
  simp [exec, execEncodeBaud, h]

theorem exec_encodeFrame_of_width {s : State} {width : BitVec 4} (hlow : 2 ≤ width.toNat)
    (hhigh : width.toNat ≤ 8) (o ph po d : Bit) :
    exec (.encodeFrame width o ph po d) s
      = .next (s.answer .ok ((packFrame s.params width o ph po d).setWidth 16)) := by
  simp [exec, execEncodeFrame, Nat.not_lt.mpr hlow, Nat.not_lt.mpr hhigh]

/-! ### BAUD() -/

/-- In Master mode the ceiling of the rate is the source frequency itself (R100). -/
theorem baudDivisor_master_eq_some_iff {bps f d : Nat} :
    baudDivisor true bps f = some d ↔ 1 ≤ bps ∧ bps ≤ f ∧ d = f / bps - 1 ∧ d ≤ 65535 := by
  simp only [baudDivisor, reduceCtorEq, true_and, false_and, if_false]
  split_ifs with hzero hceiling hfits
  · simp [hzero]
  · simp; omega
  · simp; omega
  · simp; omega

/-- MASTER_BIT is the mode bit that means Master. -/
@[simp] theorem isMasterBit_masterBit (p : Params) : isMasterBit p p.masterBit = true := by
  simp [isMasterBit]

theorem baudOperand_of_baudDivisor (p : Params) (bps : BitVec 24) :
    baudDivisor (isMasterBit p p.masterBit) bps.toNat (12000000#24).toNat
      = baudOperand bps.toNat := by
  rw [isMasterBit_masterBit]
  rfl

theorem encodeBaud_answers_baudOperand (bps : BitVec 24) (s : State) :
    ∃ t, exec (.encodeBaud bps 12000000#24 s.params.masterBit) s = .next t
      ∧ t.response = some (match baudOperand bps.toNat with
        | some d => ⟨.ok, BitVec.ofNat 16 d⟩
        | none => ⟨.invalidParameter, 0#16⟩) := by
  have heq := baudOperand_of_baudDivisor s.params bps
  cases hop : baudOperand bps.toNat with
  | some d => exact ⟨_, exec_encodeBaud_of_some (heq.trans hop), rfl⟩
  | none => exact ⟨_, exec_encodeBaud_of_none (heq.trans hop), rfl⟩

/-! ### FRAME() -/

theorem fitField_toNat {w : Nat} (b : BitVec w) : fitField w b.toNat = some b := by
  simp [fitField, b.isLt]

theorem lt_of_fitField {w n : Nat} {b : BitVec w} (h : fitField w n = some b) : n < 2 ^ w := by
  unfold fitField at h
  split at h
  · assumption
  · cases h

theorem orderOperand_of_bit (o : Bit) :
    orderOperand (.name (if o = 1#1 then .msb else .lsb)) = some o := by
  revert o; decide

theorem duplexOperand_of_bit (d : Bit) :
    duplexOperand (.name (if d = 1#1 then .half else .full)) = some d := by
  revert d; decide

theorem order_of_orderOperand {k : Keyword} {o : Bit} (h : orderOperand (.name k) = some o) :
    k = .lsb ∨ k = .msb := by
  cases k <;> simp [orderOperand] at h ⊢

theorem duplex_of_duplexOperand {k : Keyword} {d : Bit} (h : duplexOperand (.name k) = some d) :
    k = .full ∨ k = .half := by
  cases k <;> simp [duplexOperand] at h ⊢

/-- FRAME(...) has a value when the width is in range and every other operand is a value of its
field, and then it is their packed byte. -/
theorem frameOperand_eq_some_iff {p : Params} {width : Nat} {order duplex : Keyword}
    {phase pol v : Nat} :
    frameOperand p width order phase pol duplex = some v ↔ 2 ≤ width ∧ width ≤ 8
      ∧ ∃ o ph po d, orderOperand (.name order) = some o ∧ fitField 1 phase = some ph
        ∧ fitField 1 pol = some po ∧ duplexOperand (.name duplex) = some d
        ∧ (packFrame p (BitVec.ofNat 4 width) o ph po d).toNat = v := by
  unfold frameOperand
  split
  case isTrue hwidth => simp; omega
  case isFalse hwidth =>
    split
    case h_1 o ph po d ho hph hpo hd => simp [ho, hph, hpo, hd]; omega
    case h_2 hnone =>
      simp only [reduceCtorEq, false_iff]
      rintro ⟨-, -, o, ph, po, d, ho, hph, hpo, hd, -⟩
      exact hnone o ph po d ho hph hpo hd

/-- Settles O60: both pseudo-operands run the checks and the arithmetic of their encoder command. -/
theorem pseudoOperandsAreEncoderResults : Obligations.PseudoOperandsAreEncoderResults := by
  refine ⟨fun bps d => baudDivisor_master_eq_some_iff, encodeBaud_answers_baudOperand, by decide,
    by decide, fun p width o ph po d hlow hhigh => ?packed, fun s width o ph po d hlow hhigh => ?exec,
    fun p width order duplex phase pol v h => ?rejected⟩
  case packed =>
    exact frameOperand_eq_some_iff.mpr ⟨hlow, hhigh, o, ph, po, d, orderOperand_of_bit o,
      fitField_toNat ph, fitField_toNat po, duplexOperand_of_bit d, rfl⟩
  case exec =>
    have hwidth : (BitVec.ofNat 4 width).toNat = width := by simp; omega
    exact ⟨_, exec_encodeFrame_of_width (by omega) (by omega) o ph po d, rfl⟩
  case rejected =>
    obtain ⟨hlow, hhigh, o, ph, po, d, horder, hphase, hpol, hduplex, -⟩ :=
      frameOperand_eq_some_iff.mp h
    exact ⟨hlow, hhigh, order_of_orderOperand horder, lt_of_fitField hphase, lt_of_fitField hpol,
      duplex_of_duplexOperand hduplex⟩

end Sys2Proof.Machine
end

section
/-! The Configuration Encoder (spec/40_config_encoder.md): what ENCODE_BAUD and ENCODE_FRAME answer, the
rate a divisor realizes, and the fields of a packed frame byte. -/

namespace Sys2Proof.Machine

/-! ### ENCODE_BAUD (R100, R101) -/

/-- The response ENCODE_BAUD gives for a divisor, or for its refusal (R100). -/
def divisorResponse : Option Nat → Response
  | some d => ⟨.ok, BitVec.ofNat 16 d⟩
  | none => ⟨.invalidParameter, 0#16⟩

theorem divisorResponse_status_eq_ok_iff {o : Option Nat} :
    (divisorResponse o).status = .ok ↔ ∃ d, o = some d := by
  cases o <;> simp [divisorResponse]

/-- The checks of R100 in the rule's order, each with its response. -/
theorem divisorResponse_baudDivisor (master : Bool) (bps f : Nat) :
    divisorResponse (baudDivisor master bps f) =
      if bps = 0 then ⟨.invalidParameter, 0#16⟩
      else if master = true ∧ f < bps then ⟨.invalidParameter, 0#16⟩
      else if master = false ∧ f < 2 * bps then ⟨.invalidParameter, 0#16⟩
      else if 65535 < f / bps - 1 then ⟨.invalidParameter, 0#16⟩
      else ⟨.ok, BitVec.ofNat 16 (f / bps - 1)⟩ := by
  unfold baudDivisor
  split_ifs <;> rfl

theorem exec_encodeBaud (bps f : BitVec 24) (m : Bit) (s : State) :
    let r := divisorResponse (baudDivisor (isMasterBit s.params m) bps.toNat f.toNat)
    exec (.encodeBaud bps f m) s = .next (s.answer r.status r.result) := by
  cases hdiv : baudDivisor (isMasterBit s.params m) bps.toNat f.toNat with
  | some d => exact exec_encodeBaud_of_some hdiv
  | none => exact exec_encodeBaud_of_none hdiv

theorem isMasterBit_eq_true_iff {p : Params} {m : Bit} :
    isMasterBit p m = true ↔ m = p.masterBit := by
  simp [isMasterBit]

theorem isMasterBit_eq_false_iff {p : Params} {m : Bit} :
    isMasterBit p m = false ↔ m ≠ p.masterBit := by
  simp [isMasterBit]

/-- In Slave mode the ceiling of the rate is half the source frequency (R100). -/
theorem baudDivisor_slave_eq_some_iff {bps f d : Nat} :
    baudDivisor false bps f = some d ↔ 1 ≤ bps ∧ 2 * bps ≤ f ∧ d = f / bps - 1 ∧ d ≤ 65535 := by
  simp only [baudDivisor, reduceCtorEq, true_and, false_and, if_false]
  split_ifs <;> simp only [false_iff, Option.some.injEq] <;> omega

/-- In either mode an accepted rate has a quotient of at least 1, so `d + 1` is the quotient itself. -/
theorem baudDivisor_some {master : Bool} {bps f d : Nat} (h : baudDivisor master bps f = some d) :
    0 < bps ∧ d + 1 = f / bps ∧ d ≤ 65535 := by
  have hquotient : 0 < bps → bps ≤ f → 0 < f / bps := fun hpos hle => Nat.div_pos hle hpos
  cases master with
  | true =>
    obtain ⟨hpos, hle, hd, hfits⟩ := baudDivisor_master_eq_some_iff.mp h
    have := hquotient hpos hle
    omega
  | false =>
    obtain ⟨hpos, hle, hd, hfits⟩ := baudDivisor_slave_eq_some_iff.mp h
    have := hquotient hpos (by omega)
    omega

theorem one_le_of_baudDivisor_slave {bps f d : Nat} (h : baudDivisor false bps f = some d) :
    1 ≤ d := by
  obtain ⟨hpos, hle, hd, -⟩ := baudDivisor_slave_eq_some_iff.mp h
  have : 2 ≤ f / bps := (Nat.le_div_iff_mul_le hpos).mpr hle
  omega

/-- At 12 MHz the divisor of a rate below 184 does not fit 16 bits (R100's corner case). -/
theorem exists_baudDivisor_master_12MHz_iff {bps : Nat} :
    (∃ d, baudDivisor true bps 12000000 = some d) ↔ 184 ≤ bps ∧ bps ≤ 12000000 := by
  have hfits (hpos : 1 ≤ bps) : 12000000 / bps < 65537 ↔ 12000000 < 65537 * bps :=
    Nat.div_lt_iff_lt_mul hpos
  simp only [baudDivisor_master_eq_some_iff]
  constructor
  · rintro ⟨d, hpos, hle, hd, hmax⟩
    have := (hfits hpos).mp (by omega)
    omega
  · rintro ⟨hlow, hle⟩
    have := (hfits (by omega)).mpr (by omega)
    exact ⟨_, by omega, hle, rfl, by omega⟩

/-- Settles O15: the answer is the divisor's response, and each clause is a fact about the divisor. -/
theorem encodeBaudResult : Obligations.EncodeBaudResult := by
  refine ⟨fun bps f m s => ?_, by decide⟩
  intro r
  have hr : r = divisorResponse (baudDivisor (isMasterBit s.params m) bps.toNat f.toNat) := by
    have hzero : bps = 0#24 ↔ bps.toNat = 0 := BitVec.toNat_eq
    simp only [r, hzero, divisorResponse_baudDivisor, isMasterBit_eq_true_iff,
      isMasterBit_eq_false_iff, gt_iff_lt]
  rw [hr]
  refine ⟨exec_encodeBaud bps f m s, fun hslave hok => ?slave, fun hmaster hf => ?master⟩
  case slave =>
    obtain ⟨d, hd⟩ := divisorResponse_status_eq_ok_iff.mp hok
    rw [hd]
    rw [isMasterBit_eq_false_iff.mpr hslave] at hd
    obtain ⟨-, -, hfits⟩ := baudDivisor_some hd
    calc 1 ≤ d := one_le_of_baudDivisor_slave hd
      _ = (BitVec.ofNat 16 d).toNat := by rw [BitVec.toNat_ofNat, Nat.mod_eq_of_lt (by omega)]
  case master =>
    rw [divisorResponse_status_eq_ok_iff, isMasterBit_eq_true_iff.mpr hmaster, hf]
    exact exists_baudDivisor_master_12MHz_iff

/-! ### The realized rate (R102) -/

theorem realizedRate_ofNat (p : Params) {d : Nat} (h : d ≤ 65535) :
    realizedRate p (BitVec.ofNat 16 d) = (p.srcFreq : ℚ) / ((d + 1 : ℕ) : ℚ) := by
  simp [realizedRate, Nat.mod_eq_of_lt (show d < 65536 by omega)]

/-- Settles O16: the rate is `f / q` for the quotient `q = f / bps` of the natural numbers, and
`bps * q ≤ f`, with equality exactly when `bps` divides `f`. -/
theorem realizedRateAtLeastRequested : Obligations.RealizedRateAtLeastRequested := by
  intro p master bps d h
  obtain ⟨-, hd, hfits⟩ := baudDivisor_some h
  have hq : (0 : ℚ) < ((p.srcFreq / bps : ℕ) : ℚ) := by rw [← hd]; positivity
  rw [realizedRate_ofNat p hfits, hd]
  constructor
  · rw [le_div_iff₀ hq]
    exact_mod_cast Nat.mul_div_le p.srcFreq bps
  · rw [div_eq_iff hq.ne', eq_comm, ← Nat.mul_div_eq_iff_dvd]
    norm_cast

/-! ### ENCODE_FRAME (R103) -/

theorem exec_encodeFrame_of_not_width {s : State} {width : BitVec 4}
    (h : width.toNat < 2 ∨ 8 < width.toNat) (o ph po d : Bit) :
    exec (.encodeFrame width o ph po d) s = .next (s.answer .invalidParameter 0#16) := by
  simp only [exec, execEncodeFrame, if_pos h, State.refuse_eq]

theorem toNat_width_sub_one {width : BitVec 4} (hlow : 2 ≤ width.toNat) :
    (width.setWidth 8 - 1#8).toNat = width.toNat - 1 := by
  bv_omega

/-- A flag shifted inside the byte loses nothing. -/
theorem toNat_flag (b : Bit) {k : Nat} (hk : k < 8) :
    (b.setWidth 8 <<< k).toNat = b.toNat <<< k := by
  have hfits : b.toNat <<< k < 2 ^ 8 := by
    calc b.toNat <<< k = b.toNat * 2 ^ k := Nat.shiftLeft_eq ..
      _ ≤ 1 * 2 ^ k := Nat.mul_le_mul_right _ (Nat.le_of_lt_succ b.isLt)
      _ < 2 ^ 8 := by rw [one_mul]; exact Nat.pow_lt_pow_right (by decide) hk
  rw [BitVec.toNat_shiftLeft, BitVec.toNat_setWidth_of_le (by decide), Nat.mod_eq_of_lt hfits]

/-- A flag above every bit of a number is added to it. -/
theorem or_flag_eq_add {n k : Nat} (h : n < 2 ^ k) (b : Bit) :
    n ||| b.toNat <<< k = n + 2 ^ k * b.toNat := by
  rw [Nat.or_comm, ← Nat.shiftLeft_add_eq_or_of_lt h, Nat.shiftLeft_eq]
  ring

/-- At the default positions every field lies above the ones before it (R103). -/
theorem toNat_packFrame_default {p : Params} {width : BitVec 4} (hflags : p.flagPos = ⟨4, 5, 6⟩)
    (hlow : 2 ≤ width.toNat) (hhigh : width.toNat ≤ 8) (o ph po d : Bit) :
    (packFrame p width o ph po d).toNat
      = (width.toNat - 1) + 16 * o.toNat + 32 * ph.toNat + 64 * po.toNat + 128 * d.toNat := by
  have ho := o.isLt
  have hph := ph.isLt
  have hpo := po.isLt
  simp (disch := omega) only [packFrame, hflags, BitVec.toNat_or, toNat_width_sub_one, toNat_flag,
    or_flag_eq_add, Nat.reducePow]

/-! ### The bits of a packed byte (R104) -/

theorem FlagPos.wellFormed_iff {q : FlagPos} :
    q.wellFormed = true ↔ (3 ≤ q.order ∧ q.order ≤ 6) ∧ (3 ≤ q.phase ∧ q.phase ≤ 6)
      ∧ (3 ≤ q.pol ∧ q.pol ≤ 6) ∧ q.order ≠ q.phase ∧ q.order ≠ q.pol ∧ q.phase ≠ q.pol := by
  simp [FlagPos.wellFormed, and_assoc]

theorem Params.flagPos_wellFormed {p : Params} (h : p.wellFormed = true) :
    p.flagPos.wellFormed = true := by
  simp only [Params.wellFormed, Bool.and_eq_true] at h
  exact h.1.1.1

theorem getLsbD_flag (b : Bit) {k : Nat} (hk : k < 8) (n : Nat) :
    (b.setWidth 8 <<< n).getLsbD k = (decide (k = n) && b.getLsbD 0) := by
  rw [BitVec.getLsbD_shiftLeft, BitVec.getLsbD_setWidth]
  rcases lt_trichotomy k n with hlt | rfl | hgt
  · simp [hlt, hlt.ne]
  · simp [hk]
  · simp [hgt.ne', BitVec.getLsbD_of_ge b (k - n) (by omega)]

/-- Each bit of the byte is the width field's or a flag's, whichever positions the flags have. -/
theorem getLsbD_packFrame (p : Params) (width : BitVec 4) (o ph po d : Bit) {k : Nat} (hk : k < 8) :
    (packFrame p width o ph po d).getLsbD k
      = ((width.setWidth 8 - 1#8).getLsbD k || (decide (k = p.flagPos.order) && o.getLsbD 0)
        || (decide (k = p.flagPos.phase) && ph.getLsbD 0)
        || (decide (k = p.flagPos.pol) && po.getLsbD 0) || (decide (k = 7) && d.getLsbD 0)) := by
  simp only [packFrame, BitVec.getLsbD_or, getLsbD_flag _ hk]

/-- From bit 3 up the byte has the flags only. -/
theorem getLsbD_packFrame_flags (p : Params) {width : BitVec 4} (hlow : 2 ≤ width.toNat)
    (hhigh : width.toNat ≤ 8) (o ph po d : Bit) {k : Nat} (hk3 : 3 ≤ k) (hk8 : k < 8) :
    (packFrame p width o ph po d).getLsbD k
      = ((decide (k = p.flagPos.order) && o.getLsbD 0)
        || (decide (k = p.flagPos.phase) && ph.getLsbD 0)
        || (decide (k = p.flagPos.pol) && po.getLsbD 0) || (decide (k = 7) && d.getLsbD 0)) := by
  have hwidth : (width.setWidth 8 - 1#8).toNat < 2 ^ k :=
    calc (width.setWidth 8 - 1#8).toNat = width.toNat - 1 := toNat_width_sub_one hlow
      _ < 2 ^ 3 := by omega
      _ ≤ 2 ^ k := Nat.pow_le_pow_right (by decide) hk3
  rw [getLsbD_packFrame p width o ph po d hk8, BitVec.getLsbD, Nat.testBit_lt_two_pow hwidth,
    Bool.false_or]

/-- Below bit 3 the byte has no flag: its width field is the width minus 1. -/
theorem conW_packFrame {p : Params} (hp : p.flagPos.wellFormed = true) (width : BitVec 4)
    (o ph po d : Bit) :
    conW (packFrame p width o ph po d) = (width.setWidth 8 - 1#8).setWidth 3 := by
  obtain ⟨horder, hphase, hpol, -⟩ := FlagPos.wellFormed_iff.mp hp
  refine BitVec.eq_of_getLsbD_eq fun k hk => ?_
  have hno (n : Nat) (hn : 3 ≤ n) : k ≠ n := by omega
  rw [conW, BitVec.getLsbD_extractLsb', BitVec.getLsbD_setWidth, Nat.zero_add,
    getLsbD_packFrame p width o ph po d (by omega)]
  simp [hno _ horder.1, hno _ hphase.1, hno _ hpol.1, hno 7]

theorem frameWidth_packFrame {p : Params} {width : BitVec 4} (hp : p.flagPos.wellFormed = true)
    (hlow : 2 ≤ width.toNat) (hhigh : width.toNat ≤ 8) (o ph po d : Bit) :
    frameWidth (packFrame p width o ph po d) = width.toNat := by
  rw [frameWidth, conW_packFrame hp, BitVec.toNat_setWidth, toNat_width_sub_one hlow]
  omega

/-- The reserved bit is the one of 3..6 that no flag has. -/
theorem reservedBitSet_packFrame (p : Params) {width : BitVec 4} (hlow : 2 ≤ width.toNat)
    (hhigh : width.toNat ≤ 8) (o ph po d : Bit) :
    reservedBitSet p (packFrame p width o ph po d) = false := by
  refine List.any_eq_false.mpr fun k hk => ?_
  have hrange : 3 ≤ k ∧ k ≤ 6 := by
    simp only [List.mem_cons, List.not_mem_nil, or_false] at hk; omega
  rw [getLsbD_packFrame_flags p hlow hhigh o ph po d hrange.1 (by omega)]
  have hduplex : k ≠ 7 := by omega
  simp only [Bool.and_eq_true, bne_iff_ne]
  rintro ⟨⟨⟨hset, horder⟩, hphase⟩, hpol⟩
  simp [horder, hphase, hpol, hduplex] at hset

theorem frameByteLegal_iff {p : Params} {con : Byte} :
    frameByteLegal p con = true ↔ 2 ≤ frameWidth con ∧ reservedBitSet p con = false := by
  have hwidth : conW con ≠ 0#3 ↔ 2 ≤ frameWidth con := by
    rw [frameWidth]; bv_omega
  simp [frameByteLegal, hwidth]

theorem frameByteLegal_packFrame {p : Params} {width : BitVec 4} (hp : p.flagPos.wellFormed = true)
    (hlow : 2 ≤ width.toNat) (hhigh : width.toNat ≤ 8) (o ph po d : Bit) :
    frameByteLegal p (packFrame p width o ph po d) = true :=
  frameByteLegal_iff.mpr ⟨by rwa [frameWidth_packFrame hp hlow hhigh],
    reservedBitSet_packFrame p hlow hhigh o ph po d⟩

/-- Settles O17: the two cases of the width, and the byte at the default positions. -/
theorem encodeFrameResult : Obligations.EncodeFrameResult := by
  refine ⟨fun width o ph po d s => ?exec, fun p width o ph po d hflags hlow hhigh => ⟨?value, ?bit3⟩⟩
  case exec =>
    intro r
    by_cases hrefused : width.toNat < 2 ∨ 8 < width.toNat
    · rw [show r = ⟨.invalidParameter, 0#16⟩ from if_pos hrefused]
      exact exec_encodeFrame_of_not_width hrefused o ph po d
    · rw [show r = ⟨.ok, _⟩ from if_neg hrefused]
      exact exec_encodeFrame_of_width (by omega) (by omega) o ph po d
  case value => exact toNat_packFrame_default hflags hlow hhigh o ph po d
  case bit3 =>
    rw [getLsbD_packFrame_flags p hlow hhigh o ph po d (by decide) (by decide), hflags]
    simp

/-- Settles O18: the fields and the reserved bit, and each flag at its own position, which no other
flag has. -/
theorem frameByteFields : Obligations.FrameByteFields := by
  intro p width o ph po d hp hlow hhigh v
  have hflags := Params.flagPos_wellFormed hp
  obtain ⟨horder, hphase, hpol, hop, hopo, hppo⟩ := FlagPos.wellFormed_iff.mp hflags
  have hbit {k : Nat} := getLsbD_packFrame_flags p hlow hhigh o ph po d (k := k)
  have hduplex {k : Nat} (hk : k ≤ 6) : k ≠ 7 := by omega
  refine ⟨frameWidth_packFrame hflags hlow hhigh o ph po d,
    reservedBitSet_packFrame p hlow hhigh o ph po d, ?order, ?phase, ?pol, ?duplex,
    frameByteLegal_packFrame hflags hlow hhigh o ph po d⟩
  case order => simp [v, hbit horder.1 (by omega), hop, hopo, hduplex horder.2]
  case phase => simp [v, hbit hphase.1 (by omega), hop.symm, hppo, hduplex hphase.2]
  case pol => simp [v, hbit hpol.1 (by omega), hopo.symm, hppo.symm, hduplex hpol.2]
  case duplex =>
    rw [hbit (by decide) (by decide)]
    simp [(hduplex horder.2).symm, (hduplex hphase.2).symm, (hduplex hpol.2).symm]

/-! ### No partial configuration (R105) -/

/-- An encoder command only answers. -/
theorem exec_encoder_answers {i : Instr} (s : State)
    (h : i.opcode = .encodeBaud ∨ i.opcode = .encodeFrame ∨ i.opcode = .selectPorts) :
    ∃ st r, exec i s = .next (s.answer st r) := by
  cases i with
  | encodeBaud bps f m => exact ⟨_, _, exec_encodeBaud bps f m s⟩
  | encodeFrame width o ph po d =>
    by_cases hrefused : width.toNat < 2 ∨ 8 < width.toNat
    · exact ⟨_, _, exec_encodeFrame_of_not_width hrefused o ph po d⟩
    · exact ⟨_, _, exec_encodeFrame_of_width (by omega) (by omega) o ph po d⟩
  | selectPorts rst tsr clk =>
    simp only [exec, execSelectPorts]
    split <;> exact ⟨_, _, rfl⟩
  | _ => simp [Instr.opcode] at h

theorem exec_encodeFrame_ok {width : BitVec 4} {o ph po d : Bit} {s t : State} {v : Half}
    (h : exec (.encodeFrame width o ph po d) s = .next t) (hok : t.response = some ⟨.ok, v⟩) :
    (2 ≤ width.toNat ∧ width.toNat ≤ 8) ∧ v = (packFrame s.params width o ph po d).setWidth 16
      ∧ t.params = s.params := by
  by_cases hrefused : width.toNat < 2 ∨ 8 < width.toNat
  · rw [exec_encodeFrame_of_not_width hrefused] at h
    cases h
    simp at hok
  · rw [exec_encodeFrame_of_width (by omega) (by omega)] at h
    cases h
    simp only [State.answer_response, Option.some.injEq, Response.mk.injEq, true_and] at hok
    exact ⟨by omega, hok.symm, rfl⟩

theorem exec_init_of_legal {s : State} {con : Byte} (h : frameByteLegal s.params con = true)
    (br : Half) (m : Bit) :
    exec (.init br con m) s
      = .next ({ s.toDisabled with br := br, con := con, ms := m, cfgv := true }.answer .ok 0#16) := by
  simp only [exec, execInit, if_pos h]

/-- Settles O19: an encoder command only answers, and the byte ENCODE_FRAME answers is a packed one. -/
theorem encodersLeaveBlockAlone : Obligations.EncodersLeaveBlockAlone := by
  refine ⟨fun i s hop => ?frame, fun width o ph po d br m s t v hp hexec hok => ?init⟩
  case frame =>
    obtain ⟨st, r, h⟩ := exec_encoder_answers s hop
    exact ⟨_, h, rfl⟩
  case init =>
    obtain ⟨⟨hlow, hhigh⟩, rfl, hparams⟩ := exec_encodeFrame_ok hexec hok
    have hlegal := frameByteLegal_packFrame (Params.flagPos_wellFormed hp) hlow hhigh o ph po d
    rw [BitVec.setWidth_setWidth_of_le _ (by decide), BitVec.setWidth_eq]
    exact ⟨_, exec_init_of_legal (hparams ▸ hlegal) br m, rfl⟩

end Sys2Proof.Machine
end

section
/-! The Port Router (spec/41_port_router.md): the codes of the pin groups, what SELECT_PORTS answers, and
what PORTS does in each phase. -/

namespace Sys2Proof.Machine

/-! ### The pin groups of a role (R110) -/

theorem RoleCodes.length_codes (r : RoleCodes) : r.codes.length = 2 ∨ r.codes.length = 3 := by
  cases r with
  | two => exact .inl rfl
  | three => exact .inr rfl

/-- Index 3 is beyond every role's groups. -/
theorem RoleCodes.length_codes_le_three (r : RoleCodes) : r.codes.length ≤ 3 := by
  have hlen := RoleCodes.length_codes r
  omega

theorem RoleCodes.disjoint_iff {a b : RoleCodes} :
    a.disjoint b = true ↔ ∀ x ∈ a.codes, ∀ y ∈ b.codes, x &&& y = 0#8 := by
  simp only [RoleCodes.disjoint, List.all_eq_true, beq_iff_eq]

/-- Settles O21: disjointness is what `wellFormed` checks, and a role has 2 or 3 groups by its type. -/
theorem pinGroupCodesDisjoint : Obligations.PinGroupCodesDisjoint := by
  refine ⟨Config.params_wellFormed, fun p hp => ?_⟩
  simp only [Params.wellFormed, Bool.and_eq_true, RoleCodes.disjoint_iff] at hp
  obtain ⟨⟨⟨-, hrstTsr⟩, hrstClk⟩, htsrClk⟩ := hp
  exact ⟨hrstTsr, hrstClk, htsrClk, fun r _ => RoleCodes.length_codes r⟩

/-! ### SELECT_PORTS (R111) -/

/-- The code of a group is the entry of the role's list at the group's index. -/
theorem pinGroupCode_eq_getElem? (r : RoleCodes) (g : BitVec 2) :
    pinGroupCode r g = r.codes[g.toNat]? := by
  obtain rfl | rfl | rfl | rfl : g = 0#2 ∨ g = 1#2 ∨ g = 2#2 ∨ g = 3#2 := by bv_omega
  all_goals cases r <;> rfl

theorem pinGroupCode_of_length_le {r : RoleCodes} {g : BitVec 2} (h : r.codes.length ≤ g.toNat) :
    pinGroupCode r g = none := by
  rw [pinGroupCode_eq_getElem?, List.getElem?_eq_none h]

theorem pinGroupCode_of_lt {r : RoleCodes} {g : BitVec 2} (h : g.toNat < r.codes.length) :
    pinGroupCode r g = some (r.codes.getD g.toNat 0#8) := by
  rw [pinGroupCode_eq_getElem?, List.getElem?_eq_getElem h, List.getD_eq_getElem _ _ h]

theorem portSelection_of_length_le {p : Params} {rst tsr clk : BitVec 2}
    (h : p.rst.codes.length ≤ rst.toNat ∨ p.tsr.codes.length ≤ tsr.toNat
      ∨ p.clk.codes.length ≤ clk.toNat) : portSelection p rst tsr clk = none := by
  rcases h with hrst | htsr | hclk
  · simp [portSelection, pinGroupCode_of_length_le hrst]
  · simp [portSelection, pinGroupCode_of_length_le htsr]
  · simp [portSelection, pinGroupCode_of_length_le hclk]

theorem portSelection_of_lt {p : Params} {rst tsr clk : BitVec 2}
    (hrst : rst.toNat < p.rst.codes.length) (htsr : tsr.toNat < p.tsr.codes.length)
    (hclk : clk.toNat < p.clk.codes.length) :
    portSelection p rst tsr clk = some (p.rst.codes.getD rst.toNat 0#8
      ||| p.tsr.codes.getD tsr.toNat 0#8 ||| p.clk.codes.getD clk.toNat 0#8) := by
  simp only [portSelection, pinGroupCode_of_lt hrst, pinGroupCode_of_lt htsr,
    pinGroupCode_of_lt hclk]

theorem exec_selectPorts_of_none {s : State} {rst tsr clk : BitVec 2}
    (h : portSelection s.params rst tsr clk = none) :
    exec (.selectPorts rst tsr clk) s = .next (s.answer .invalidParameter 0#16) := by
  simp only [exec, execSelectPorts, h, State.refuse_eq]

theorem exec_selectPorts_of_some {s : State} {rst tsr clk : BitVec 2} {sel : Byte}
    (h : portSelection s.params rst tsr clk = some sel) :
    exec (.selectPorts rst tsr clk) s = .next (s.answer .ok (sel.setWidth 16)) := by
  simp only [exec, execSelectPorts, h]

/-- Settles O20: there is a selection unless an index is beyond its role's groups, as index 3
always is. -/
theorem selectPortsResult : Obligations.SelectPortsResult := by
  intro rst tsr clk s r
  by_cases hbeyond : rst.toNat ≥ s.params.rst.codes.length
      ∨ tsr.toNat ≥ s.params.tsr.codes.length ∨ clk.toNat ≥ s.params.clk.codes.length
  · rw [show r = ⟨.invalidParameter, 0#16⟩ from if_pos hbeyond]
    exact ⟨exec_selectPorts_of_none (portSelection_of_length_le hbeyond), fun _ => rfl⟩
  · rw [show r = ⟨.ok, _⟩ from if_neg hbeyond]
    simp only [not_or, ge_iff_le, not_le] at hbeyond
    obtain ⟨hrst, htsr, hclk⟩ := hbeyond
    refine ⟨exec_selectPorts_of_some (portSelection_of_lt hrst htsr hclk), ?_⟩
    rintro (rfl | rfl | rfl)
    · exact absurd hrst (RoleCodes.length_codes_le_three _).not_gt
    · exact absurd htsr (RoleCodes.length_codes_le_three _).not_gt
    · exact absurd hclk (RoleCodes.length_codes_le_three _).not_gt

/-! ### PORTS (R112) -/

theorem exec_ports_of_disabled {s : State} (h : s.phase = .disabled) (sel : Byte) :
    exec (.ports sel) s = .next ({ s with pisel := sel }.answer .ok 0#16) := by
  simp only [exec, execPorts, h]

theorem exec_ports_of_enabled {s : State} (h : s.phase ≠ .disabled) (sel : Byte) :
    exec (.ports sel) s = .next (s.misuse .ports) := by
  cases hphase : s.phase with
  | disabled => exact absurd hphase h
  | enabledIdle => simp only [exec, execPorts, hphase]
  | enabledBusy => simp only [exec, execPorts, hphase]

/-- Settles O22: the write in Disabled, and the two readings of the misuse while enabled. -/
theorem portsResult : Obligations.PortsResult := by
  intro sel s
  by_cases hdis : s.phase = .disabled
  · rw [if_pos hdis]
    exact exec_ports_of_disabled hdis sel
  · rw [if_neg hdis, exec_ports_of_enabled hdis]
    rcases s.misuse_cases .ports with ⟨hpolicy, hmisuse⟩ | ⟨hpolicy, hmisuse⟩
    · rw [hmisuse, if_pos hpolicy]
      rfl
    · rw [hmisuse, if_neg (by simp [hpolicy])]
      rfl

end Sys2Proof.Machine
end

section
/-! The Lifecycle Controller (spec/42_lifecycle.md): what INIT, ENABLE and DISABLE do in each phase, how
PHASE moves over every event, which events leave a transfer in flight alone, and who writes the
configuration. -/

namespace Sys2Proof.Machine

/-- A command goes to one state only. -/
theorem exec_unique {i : Instr} {s t t' : State} (h : exec i s = .next t) (h' : exec i s = .next t') :
    t = t' := Host.Outcome.next.inj (h.symm.trans h')

/-! ### Leaving for Disabled (R123, 43_transceive.md R134) -/

theorem State.toDisabled_eq (s : State) : s.toDisabled = { s with
    phase := .disabled
    trace := s.trace ++ (if s.phase = .enabledBusy then [.abort s.done] else []) } := by
  cases hphase : s.phase <;> simp [State.toDisabled, State.bsy, hphase, State.emit]

theorem State.toDisabled_of_disabled {s : State} (h : s.phase = .disabled) : s.toDisabled = s := by
  have hsame : { s with phase := .disabled } = s := by rw [← h]
  simp [State.toDisabled, State.bsy, h, hsame]

/-! ### INIT, ENABLE and DISABLE (R121-R123) -/

theorem frameByteLegal_eq_false_iff {p : Params} {con : Byte} :
    frameByteLegal p con = false ↔ con.extractLsb' 0 3 = 0#3 ∨ reservedBitSet p con = true := by
  rw [frameByteLegal, Bool.and_eq_false_iff, bne_eq_false_iff_eq, Bool.not_eq_false', conW]

theorem exec_init_of_illegal {s : State} {con : Byte} (h : frameByteLegal s.params con = false)
    (br : Half) (m : Bit) :
    exec (.init br con m) s = .next (s.answer .invalidParameter 0#16) := by
  simp [exec, execInit, h]

theorem exec_enable_of_unconfigured {s : State} (hdis : s.phase = .disabled)
    (hcfgv : s.cfgv = false) : exec .enable s = .next (s.answer .illegalState 0#16) := by
  simp [exec, execEnable, hdis, hcfgv]

theorem exec_enable_of_configured {s : State} (hdis : s.phase = .disabled) (hcfgv : s.cfgv = true) :
    exec .enable s = .next ({ s with phase := .enabledIdle }.answer .ok 0#16) := by
  simp [exec, execEnable, hdis, hcfgv]

theorem exec_enable_of_enabled {s : State} (hen : s.phase ≠ .disabled) :
    exec .enable s = .next (s.answer .ok 0#16) := by
  cases hphase : s.phase with
  | disabled => exact absurd hphase hen
  | enabledIdle => simp only [exec, execEnable, hphase]
  | enabledBusy => simp only [exec, execEnable, hphase]

theorem exec_disable (s : State) : exec .disable s = .next (s.toDisabled.answer .ok 0#16) := rfl

/-- Settles O23: the refused and the accepted frame byte, and the reserved bit, which is the bit of
3..6 that the default positions 4, 5, 6 leave. -/
theorem initResult : Obligations.InitResult := by
  refine ⟨fun br con m s => ?exec, fun p con hflags => ?reserved⟩
  case exec =>
    cases hlegal : frameByteLegal s.params con with
    | false =>
      rw [if_pos (frameByteLegal_eq_false_iff.mp hlegal)]
      exact exec_init_of_illegal hlegal br m
    | true =>
      rw [if_neg (by rw [← frameByteLegal_eq_false_iff, hlegal]; decide),
        exec_init_of_legal hlegal, State.toDisabled_eq]
      rfl
  case reserved => simp [reservedBitSet, hflags]

/-- Settles O24: the two cases of Disabled, by CFGV, and the no-op while enabled. -/
theorem enableResult : Obligations.EnableResult := by
  intro s r
  by_cases hdis : s.phase = .disabled
  · cases hcfgv : s.cfgv with
    | false =>
      rw [exec_enable_of_unconfigured hdis hcfgv]
      simp [r, hdis, hcfgv, State.answer]
    | true =>
      rw [exec_enable_of_configured hdis hcfgv]
      simp [r, hdis, hcfgv, State.answer]
  · rw [exec_enable_of_enabled hdis]
    simp [r, hdis, State.answer]

/-- Settles O25: DISABLE answers after leaving for Disabled. -/
theorem disableResult : Obligations.DisableResult := by
  intro s
  rw [exec_disable, State.toDisabled_eq]
  rfl

/-! ### Idempotence (R124) -/

/-- Issued at `t`, the command only answers again, with the response `t` already holds. -/
def State.AnswersAgain (i : Instr) (t : State) : Prop :=
  ∃ st r, t.response = some ⟨st, r⟩ ∧ exec i t = .next (t.answer st r)

theorem State.answersAgain_enable {s t : State} (h : exec .enable s = .next t) :
    t.AnswersAgain .enable := by
  by_cases hdis : s.phase = .disabled
  · cases hcfgv : s.cfgv with
    | false =>
      obtain rfl := exec_unique (exec_enable_of_unconfigured hdis hcfgv) h
      exact ⟨_, _, rfl, exec_enable_of_unconfigured hdis hcfgv⟩
    | true =>
      obtain rfl := exec_unique (exec_enable_of_configured hdis hcfgv) h
      exact ⟨_, _, rfl, exec_enable_of_enabled (by simp)⟩
  · obtain rfl := exec_unique (exec_enable_of_enabled hdis) h
    exact ⟨_, _, rfl, exec_enable_of_enabled hdis⟩

theorem State.answersAgain_disable {s t : State} (h : exec .disable s = .next t) :
    t.AnswersAgain .disable := by
  obtain rfl := exec_unique (exec_disable s) h
  refine ⟨_, _, rfl, ?_⟩
  rw [exec_disable, State.toDisabled_of_disabled (by simp)]

theorem State.answersAgain_init {br : Half} {con : Byte} {m : Bit} {s t : State}
    (h : exec (.init br con m) s = .next t) : t.AnswersAgain (.init br con m) := by
  cases hlegal : frameByteLegal s.params con with
  | false =>
    obtain rfl := exec_unique (exec_init_of_illegal hlegal br m) h
    exact ⟨_, _, rfl, exec_init_of_illegal (by simpa using hlegal) br m⟩
  | true =>
    obtain rfl := exec_unique (exec_init_of_legal hlegal br m) h
    refine ⟨_, _, rfl, ?_⟩
    rw [exec_init_of_legal (by simpa using hlegal), State.toDisabled_of_disabled (by simp)]
    rfl

/-- Settles O26: each of the three commands, where it has led, only answers again. -/
theorem lifecycleIdempotent : Obligations.LifecycleIdempotent := by
  intro i s t hop h
  have hagain : t.AnswersAgain i := by
    cases i with
    | init br con m => exact State.answersAgain_init h
    | enable => exact State.answersAgain_enable h
    | disable => exact State.answersAgain_disable h
    | _ => simp [Instr.opcode] at hop
  obtain ⟨st, r, hresponse, hexec⟩ := hagain
  exact ⟨_, hresponse, hexec⟩

/-! ### PHASE over the commands (R120) -/

theorem exec_talk_of_not_idle {s : State} (h : s.phase ≠ .enabledIdle) (base : Half) (len : Byte) :
    exec (.talk base len) s = .next (s.misuse .talk) := by
  cases hphase : s.phase with
  | disabled => simp only [exec, execTalk, hphase]
  | enabledIdle => exact absurd hphase h
  | enabledBusy => simp only [exec, execTalk, hphase]

theorem exec_talk_of_len_zero {s : State} (h : s.phase = .enabledIdle) (base : Half) :
    exec (.talk base 0#8) s = .next (s.answer .ok 0#16) := by
  simp [exec, execTalk, h]

theorem exec_talk_of_idle {s : State} (h : s.phase = .enabledIdle) (base : Half) {len : Byte}
    (hlen : len ≠ 0#8) :
    exec (.talk base len) s = .next (s.commit (s.startTransfer base len)) := by
  simp [exec, execTalk, h, hlen]

/-- BUSY, COUNT and the encoder commands only answer, in every phase. -/
theorem exec_readOnly_answers {i : Instr} (s : State)
    (h : i.opcode = .busy ∨ i.opcode = .count ∨ i.opcode = .encodeBaud ∨ i.opcode = .encodeFrame
      ∨ i.opcode = .selectPorts) : ∃ st r, exec i s = .next (s.answer st r) := by
  rcases h with hbusy | hcount | hencoder
  · cases i <;> cases hbusy
    exact ⟨_, _, rfl⟩
  · cases i <;> cases hcount
    exact ⟨_, _, rfl⟩
  · exact exec_encoder_answers s hencoder

theorem exec_readOnly_phase {i : Instr} {s t : State} (h : exec i s = .next t)
    (hop : i.opcode = .busy ∨ i.opcode = .count ∨ i.opcode = .encodeBaud ∨ i.opcode = .encodeFrame
      ∨ i.opcode = .selectPorts) : t.phase = s.phase := by
  obtain ⟨st, r, hanswer⟩ := exec_readOnly_answers s hop
  obtain rfl := exec_unique hanswer h
  rfl

/-- A misuse that raises no fault is refused, with PHASE unchanged. -/
theorem State.misuse_of_no_fault {s : State} {op : Opcode} (h : (s.misuse op).fault = none) :
    s.misuse op = s.answer .illegalState 0#16 := by
  rcases s.misuse_cases op with ⟨-, hfault⟩ | ⟨-, hrefused⟩
  · simp [hfault] at h
  · exact hrefused

theorem exec_init_phase {br : Half} {con : Byte} {m : Bit} {s t : State}
    (h : exec (.init br con m) s = .next t) :
    t.phase = if frameByteLegal s.params con then .disabled else s.phase := by
  cases hlegal : frameByteLegal s.params con with
  | false =>
    obtain rfl := exec_unique (exec_init_of_illegal hlegal br m) h
    simp
  | true =>
    obtain rfl := exec_unique (exec_init_of_legal hlegal br m) h
    simp

theorem exec_ports_phase {sel : Byte} {s t : State} (h : exec (.ports sel) s = .next t)
    (hf : t.fault = none) :
    t.phase = s.phase ∧ (s.phase ≠ .disabled → t.response = some ⟨.illegalState, 0#16⟩) := by
  by_cases hdis : s.phase = .disabled
  · obtain rfl := exec_unique (exec_ports_of_disabled hdis sel) h
    exact ⟨rfl, fun hen => absurd hdis hen⟩
  · obtain rfl := exec_unique (exec_ports_of_enabled hdis sel) h
    rw [State.misuse_of_no_fault hf]
    exact ⟨rfl, fun _ => rfl⟩

theorem exec_enable_phase {s t : State} (h : exec .enable s = .next t) :
    t.phase = (if s.phase = .disabled ∧ s.cfgv = true then .enabledIdle else s.phase)
      ∧ (s.phase = .disabled → s.cfgv = false → t.response = some ⟨.illegalState, 0#16⟩) := by
  obtain rfl := exec_unique (enableResult s) h
  exact ⟨rfl, fun hdis hcfgv => by simp [hdis, hcfgv]⟩

theorem exec_disable_phase {s t : State} (h : exec .disable s = .next t) : t.phase = .disabled := by
  obtain rfl := exec_unique (exec_disable s) h
  rfl

theorem exec_talk_phase {base : Half} {len : Byte} {s t : State}
    (h : exec (.talk base len) s = .next t) (hf : t.fault = none) :
    t.phase = (if s.phase = .enabledIdle ∧ len ≠ 0#8 then .enabledBusy else s.phase)
      ∧ (s.phase ≠ .enabledIdle → t.response = some ⟨.illegalState, 0#16⟩) := by
  by_cases hidle : s.phase = .enabledIdle
  · refine ⟨?_, fun hne => absurd hidle hne⟩
    by_cases hlen : len = 0#8
    · subst hlen
      obtain rfl := exec_unique (exec_talk_of_len_zero hidle base) h
      simp
    · obtain rfl := exec_unique (exec_talk_of_idle hidle base hlen) h
      rw [if_pos ⟨hidle, hlen⟩]
      rcases s.commit_cases (s.startTransfer base len) with ⟨u, hstart, hcommit⟩ | ⟨f, -, hcommit⟩
      · obtain ⟨-, rfl⟩ := State.startTransfer_ok hstart
        rw [hcommit]
      · simp [hcommit] at hf
  · obtain rfl := exec_unique (exec_talk_of_not_idle hidle base len) h
    rw [State.misuse_of_no_fault hf, if_neg fun hstarts => hidle hstarts.1]
    exact ⟨rfl, fun _ => rfl⟩

/-- The command's row of R120's table, for a command that raises no fault. -/
def State.MovesPhaseBy (s : State) (i : Instr) (t : State) : Prop :=
  match i with
  | .init _ con _ => t.phase = if frameByteLegal s.params con then .disabled else s.phase
  | .ports _ =>
    t.phase = s.phase ∧ (s.phase ≠ .disabled → t.response = some ⟨.illegalState, 0#16⟩)
  | .enable =>
    t.phase = (if s.phase = .disabled ∧ s.cfgv = true then .enabledIdle else s.phase)
      ∧ (s.phase = .disabled → s.cfgv = false → t.response = some ⟨.illegalState, 0#16⟩)
  | .disable => t.phase = .disabled
  | .talk _ len =>
    t.phase = (if s.phase = .enabledIdle ∧ len ≠ 0#8 then .enabledBusy else s.phase)
      ∧ (s.phase ≠ .enabledIdle → t.response = some ⟨.illegalState, 0#16⟩)
  | _ => t.phase = s.phase

theorem exec_movesPhaseBy {i : Instr} {s t : State} (h : exec i s = .next t) (hf : t.fault = none) :
    s.MovesPhaseBy i t := by
  cases i with
  | init br con m => exact exec_init_phase h
  | ports sel => exact exec_ports_phase h hf
  | enable => exact exec_enable_phase h
  | disable => exact exec_disable_phase h
  | talk base len => exact exec_talk_phase h hf
  | _ => exact exec_readOnly_phase h (by simp [Instr.opcode])

/-! ### PHASE over the other events (R120) -/

/-- PHASE moves from `s` to `t` as an engine event moves it: to Enabled-Idle when the last frame is
complete, and not at all otherwise. -/
def State.EngineMovesPhase (s t : State) : Prop :=
  t.phase = if s.phase = .enabledBusy ∧ s.done ≠ s.len ∧ t.done = s.len then .enabledIdle
    else s.phase

theorem State.engineMovesPhase_of_done_eq {s t : State} (hphase : t.phase = s.phase)
    (hdone : t.done = s.done) : s.EngineMovesPhase t := by
  rw [State.EngineMovesPhase, hdone, if_neg fun hlast => hlast.2.1 hlast.2.2]
  exact hphase

theorem State.engineMovesPhase_cell {s t : State} {rx : Bool} (hbusy : s.phase = .enabledBusy)
    (h : s.cell rx = .ok t) : s.EngineMovesPhase t := by
  obtain ⟨-, -, -, -, -, -, -, -, -, -, -, -, -, -, hmove⟩ := State.cell_moves h
  rcases hmove with ⟨hphase, hdone, -⟩ | ⟨hidle, hdone, hlast⟩ | ⟨hphase, -, hmore, -⟩
  · exact State.engineMovesPhase_of_done_eq hphase hdone
  · have hbefore : s.done ≠ s.len := by bv_omega
    rw [State.EngineMovesPhase, if_pos ⟨hbusy, hbefore, hlast⟩]
    exact hidle
  · rw [State.EngineMovesPhase, if_neg fun hlast => hmore hlast.2.2]
    exact hphase

theorem State.engineMovesPhase_onTick (rx : Bool) (s : State) : s.EngineMovesPhase (onTick rx s) :=
  onTick_induction (State.engineMovesPhase_of_done_eq rfl rfl)
    (fun _ _ => State.engineMovesPhase_of_done_eq rfl rfl)
    (fun hbusy _ hu => State.engineMovesPhase_cell (s := { s with baudcnt := s.br }) hbusy hu)
    fun _ => State.engineMovesPhase_of_done_eq rfl rfl

theorem State.engineMovesPhase_onExtCell (rx : Bool) (s : State) :
    s.EngineMovesPhase (onExtCell rx s) :=
  onExtCell_induction (State.engineMovesPhase_of_done_eq rfl rfl)
    (fun hbusy _ => State.engineMovesPhase_cell hbusy)
    fun _ => State.engineMovesPhase_of_done_eq rfl rfl

theorem onHostRead_phase (a : Half) (s : State) : (onHostRead a s).phase = s.phase := by
  rcases onHostRead_cases a s with ⟨-, heq⟩ | ⟨-, heq⟩
  · rw [heq]; rfl
  · rw [heq]

theorem onHostWrite_phase (a : Half) (v : Byte) (s : State) :
    (onHostWrite a v s).phase = s.phase := by
  rcases onHostWrite_cases a v s with ⟨-, heq⟩ | ⟨-, heq⟩
  · rw [heq]; rfl
  · rw [heq]

/-- Settles O28: each kind of event moves PHASE by its own law, and each command by its own row. -/
theorem phaseMovesByTable : Obligations.PhaseMovesByTable := by
  intro s t e rest hf hin h hft
  rcases step_cases h with ⟨hnil, -⟩ | ⟨e', rest', hin', hevent⟩
  · simp [hin] at hnil
  obtain ⟨rfl, rfl⟩ : e = e' ∧ rest = rest' := by simpa [hin] using hin'
  rcases hevent with ⟨w, i, rfl, -, hdecode, hexec⟩ | ⟨w, why, rfl, -, hdecode, rfl⟩
    | ⟨rx, rfl, -, rfl⟩ | ⟨rx, rfl, -, rfl⟩ | ⟨a, rfl, rfl⟩ | ⟨a, v, rfl, rfl⟩ | ⟨rfl, rfl⟩
    | ⟨hfaulted, -⟩
  · dsimp only
    rw [hdecode]
    have hmoves := exec_movesPhaseBy (s := (s.takeInput rest).emit (.command w)) hexec hft
    cases i <;> exact hmoves
  · dsimp only
    rw [hdecode]
    rfl
  · exact State.engineMovesPhase_onTick rx (s.takeInput rest)
  · exact State.engineMovesPhase_onExtCell rx (s.takeInput rest)
  · exact onHostRead_phase a (s.takeInput rest)
  · exact onHostWrite_phase a v (s.takeInput rest)
  · rfl
  · simp [hf] at hfaulted

/-! ### Events that leave a transfer alone -/

/-- `t` differs from `s` at most in the response, the host's byte, the trace, and memory outside the
buffer of the transfer in flight. -/
def State.TransferUntouched (s t : State) : Prop :=
  t = { s with mem := t.mem, response := t.response, hostData := t.hostData, trace := t.trace }
    ∧ ∀ i, i < s.len.toNat → t.byteAt (s.base.toNat + i) = s.byteAt (s.base.toNat + i)

/-- An undisturbing command of a block in flight only answers. -/
theorem exec_answers_of_undisturbed {s : State} {w : Word64} {i : Instr}
    (hbusy : s.phase = .enabledBusy) (hdecode : decode w = .command i)
    (h : s.Undisturbed (.command w)) : ∃ st r, exec i s = .next (s.answer st r) := by
  simp only [State.Undisturbed, hdecode] at h
  cases i with
  | init br con m => exact ⟨_, _, exec_init_of_illegal h br m⟩
  | ports sel =>
    rw [exec_ports_of_enabled (by simp [hbusy])]
    exact ⟨.illegalState, 0#16, by simp [State.misuse, h]⟩
  | enable => exact ⟨_, _, exec_enable_of_enabled (by simp [hbusy])⟩
  | disable => exact h.elim
  | talk base len =>
    rw [exec_talk_of_not_idle (by simp [hbusy])]
    exact ⟨.illegalState, 0#16, by simp [State.misuse, h]⟩
  | _ => exact exec_readOnly_answers s (by simp [Instr.opcode])

theorem onTick_of_slave {s : State} (h : s.isMaster = false) (rx : Bool) : onTick rx s = s := by
  simp [onTick, h]

theorem onExtCell_of_master {s : State} (h : s.isMaster = true) (rx : Bool) :
    onExtCell rx s = s := by
  simp [onExtCell, h]

theorem State.races_eq_false {s : State} (hf : s.fault = none) {a : Half}
    (h : ¬ (s.base.toNat ≤ a.toNat ∧ a.toNat < s.base.toNat + s.len.toNat)) :
    s.races a = false :=
  Bool.eq_false_iff.mpr fun hrace => h ((State.races_iff hf a).mp hrace).2

theorem State.transferUntouched_onHostRead {s : State} (hf : s.fault = none) {a : Half}
    (h : s.Undisturbed (.hostRead a)) : s.TransferUntouched (onHostRead a s) := by
  rw [onHostRead_of_not_races (State.races_eq_false hf h)]
  exact ⟨rfl, fun _ _ => rfl⟩

theorem State.transferUntouched_onHostWrite {s : State} (hf : s.fault = none) {a : Half} {v : Byte}
    (h : s.Undisturbed (.hostWrite a v)) : s.TransferUntouched (onHostWrite a v s) := by
  rw [onHostWrite_of_not_races (State.races_eq_false hf h)]
  refine ⟨rfl, fun i hi => Memory.read_write_other s.mem v ?_⟩
  simp only [State.Undisturbed] at h
  omega

/-- Settles O29: the undisturbing commands only answer, the other mode's clock event does nothing, and
a host access outside the buffer does not race. -/
theorem otherEventsLeaveTransferAlone : Obligations.OtherEventsLeaveTransferAlone := by
  intro s t e rest hbusy hf hin hundisturbed h
  rcases step_cases h with ⟨hnil, -⟩ | ⟨e', rest', hin', hevent⟩
  · simp [hin] at hnil
  obtain ⟨rfl, rfl⟩ : e = e' ∧ rest = rest' := by simpa [hin] using hin'
  suffices huntouched : (s.takeInput rest).TransferUntouched t from huntouched
  rcases hevent with ⟨w, i, rfl, -, hdecode, hexec⟩ | ⟨w, why, -, -, -, rfl⟩
    | ⟨rx, rfl, -, rfl⟩ | ⟨rx, rfl, -, rfl⟩ | ⟨a, rfl, rfl⟩ | ⟨a, v, rfl, rfl⟩ | ⟨rfl, -⟩
    | ⟨hfaulted, -⟩
  · obtain ⟨st, r, hanswer⟩ := exec_answers_of_undisturbed
      (s := (s.takeInput rest).emit (.command w)) hbusy hdecode hundisturbed
    obtain rfl := exec_unique hanswer hexec
    exact ⟨rfl, fun _ _ => rfl⟩
  · exact ⟨rfl, fun _ _ => rfl⟩
  · rw [onTick_of_slave (s := s.takeInput rest) hundisturbed]
    exact ⟨rfl, fun _ _ => rfl⟩
  · rw [onExtCell_of_master (s := s.takeInput rest) hundisturbed]
    exact ⟨rfl, fun _ _ => rfl⟩
  · exact State.transferUntouched_onHostRead (s := s.takeInput rest) hf hundisturbed
  · exact State.transferUntouched_onHostWrite (s := s.takeInput rest) hf hundisturbed
  · exact hundisturbed.elim
  · simp [hf] at hfaulted

/-! ### The writers of the configuration (R125) -/

/-- BR, CON and MS are the same in both states. -/
structure State.SameConfiguration (s t : State) : Prop where
  br : t.br = s.br
  con : t.con = s.con
  ms : t.ms = s.ms

theorem State.SameConfiguration.of_cell {s t : State} {rx : Bool} (h : s.cell rx = .ok t) :
    s.SameConfiguration t := by
  obtain ⟨-, -, hbr, hcon, hms, -⟩ := State.cell_moves h
  exact ⟨hbr, hcon, hms⟩

theorem State.SameConfiguration.of_onTick (rx : Bool) (s : State) :
    s.SameConfiguration (onTick rx s) := by
  refine onTick_induction ⟨rfl, rfl, rfl⟩ (fun _ _ => ⟨rfl, rfl, rfl⟩) (fun _ u hu => ?_)
    fun _ => ⟨rfl, rfl, rfl⟩
  obtain ⟨hbr, hcon, hms⟩ := State.SameConfiguration.of_cell hu
  exact ⟨hbr, hcon, hms⟩

theorem State.SameConfiguration.of_onExtCell (rx : Bool) (s : State) :
    s.SameConfiguration (onExtCell rx s) :=
  onExtCell_induction ⟨rfl, rfl, rfl⟩ (fun _ _ => State.SameConfiguration.of_cell)
    fun _ => ⟨rfl, rfl, rfl⟩

theorem State.SameConfiguration.of_onHostRead (a : Half) (s : State) :
    s.SameConfiguration (onHostRead a s) := by
  rcases onHostRead_cases a s with ⟨-, heq⟩ | ⟨-, heq⟩ <;> rw [heq] <;> exact ⟨rfl, rfl, rfl⟩

theorem State.SameConfiguration.of_onHostWrite (a : Half) (v : Byte) (s : State) :
    s.SameConfiguration (onHostWrite a v s) := by
  rcases onHostWrite_cases a v s with ⟨-, heq⟩ | ⟨-, heq⟩ <;> rw [heq] <;> exact ⟨rfl, rfl, rfl⟩

/-- Among the commands only INIT writes the configuration, and it leaves the block Disabled. -/
theorem exec_configuration {i : Instr} {s t : State} (h : exec i s = .next t) :
    s.SameConfiguration t ∨ (t.phase = .disabled ∧ ∃ br con m, i = .init br con m) := by
  rcases exec_cases h with ⟨st, r, rfl⟩ | ⟨f, rfl⟩ | ⟨br, con, m, rfl, -, rfl⟩
    | ⟨sel, -, -, rfl⟩ | ⟨-, -, -, rfl⟩ | ⟨-, rfl⟩ | ⟨base, len, -, -, -, hstart⟩
  · exact .inl ⟨rfl, rfl, rfl⟩
  · exact .inl ⟨rfl, rfl, rfl⟩
  · exact .inr ⟨rfl, br, con, m, rfl⟩
  · exact .inl ⟨rfl, rfl, rfl⟩
  · exact .inl ⟨rfl, rfl, rfl⟩
  · exact .inl ⟨s.toDisabled_br, s.toDisabled_con, s.toDisabled_ms⟩
  · obtain ⟨-, rfl⟩ := State.startTransfer_ok hstart
    exact .inl ⟨rfl, rfl, rfl⟩

/-- Settles O30: of the ways an event has, only an INIT and RESET write the configuration. -/
theorem configurationChangesOnlyByInit : Obligations.ConfigurationChangesOnlyByInit := by
  intro s t h
  suffices hwriter : s.SameConfiguration t ∨ (t.phase = .disabled ∧ ∃ e rest, s.inputs = e :: rest
      ∧ (e = .reset ∨ ∃ br con m, e.instr? = some (.init br con m))) from
    hwriter.imp_left fun ⟨hbr, hcon, hms⟩ => ⟨hbr, hcon, hms⟩
  rcases step_cases h with ⟨-, rfl⟩ | ⟨e, rest, hin, hevent⟩
  · exact .inl ⟨rfl, rfl, rfl⟩
  have huntake {u : State} (hu : (s.takeInput rest).SameConfiguration u) : s.SameConfiguration u :=
    ⟨hu.br, hu.con, hu.ms⟩
  rcases hevent with ⟨w, i, rfl, -, hdecode, hexec⟩ | ⟨w, why, -, -, -, rfl⟩ | ⟨rx, -, -, rfl⟩
    | ⟨rx, -, -, rfl⟩ | ⟨a, -, rfl⟩ | ⟨a, v, -, rfl⟩ | ⟨rfl, rfl⟩ | ⟨-, -, rfl⟩
  · rcases exec_configuration hexec with ⟨hbr, hcon, hms⟩ | ⟨hdis, br, con, m, rfl⟩
    · exact .inl ⟨hbr, hcon, hms⟩
    · exact .inr ⟨hdis, _, rest, hin, .inr ⟨br, con, m, Input.instr?_command hdecode⟩⟩
  · exact .inl ⟨rfl, rfl, rfl⟩
  · exact .inl (huntake (State.SameConfiguration.of_onTick rx _))
  · exact .inl (huntake (State.SameConfiguration.of_onExtCell rx _))
  · exact .inl (huntake (State.SameConfiguration.of_onHostRead a _))
  · exact .inl (huntake (State.SameConfiguration.of_onHostWrite a v _))
  · exact .inr ⟨rfl, _, rest, hin, .inl rfl⟩
  · exact .inl ⟨rfl, rfl, rfl⟩

end Sys2Proof.Machine
end

section
/-! The bits of a cell and of a frame (spec/43_transceive.md R138): where one cell moves each bit of the
shift register, where the cells of a frame take them, and the loopback of one frame (R144). -/

namespace Sys2Proof.Machine

/-! ### One cell, by bit number -/

theorem frameWidth_pos (con : Byte) : 0 < frameWidth con := Nat.succ_pos _

theorem frameWidth_le (con : Byte) : frameWidth con ≤ 8 := by
  have := (conW con).isLt
  unfold frameWidth; omega

theorem getLsbD_receivedBit (rx : Bool) {k : Nat} (hk : k < 8) :
    ((BitVec.ofBool rx).setWidth 8).getLsbD k = (decide (k = 0) && rx) := by
  simpa using getLsbD_flag (BitVec.ofBool rx) hk 0

theorem getLsbD_and_lowMask {w k : Nat} (hw : w ≤ 8) (hk : k < 8) (b : Byte) :
    (b &&& lowMask w).getLsbD k = (decide (k < w) && b.getLsbD k) := by
  have hmerge : b &&& lowMask w = mergeLow w 0#8 b := by simp [mergeLow]
  rw [hmerge, mergeLow_bits hw hk]
  by_cases h : k < w <;> simp [h]

/-- MSB-first the low bits move up, and the received bit comes in at bit 0. -/
theorem getLsbD_shiftCell_msb {p : Params} {con : Byte} (hmsb : isMsbFirst p con = true) (sr : Byte)
    (rx : Bool) {k : Nat} (hk : k < 8) :
    (shiftCell p con sr rx).getLsbD k =
      if k ≥ frameWidth con then sr.getLsbD k else if k = 0 then rx else sr.getLsbD (k - 1) := by
  rw [shiftCell, if_pos hmsb, mergeLow_bits (frameWidth_le con) hk]
  by_cases hge : k ≥ frameWidth con
  · rw [if_pos hge, if_neg (by omega)]
  · rw [if_neg hge, if_pos (by omega), BitVec.getLsbD_or, getLsbD_receivedBit rx hk,
      BitVec.getLsbD_shiftLeft]
    by_cases hzero : k = 0
    · simp [hzero]
    · simp [hzero, hk, show ¬ k < 1 by omega]

/-- LSB-first the low bits move down, and the received bit comes in at bit `w - 1`. -/
theorem getLsbD_shiftCell_lsb {p : Params} {con : Byte} (hlsb : isMsbFirst p con = false) (sr : Byte)
    (rx : Bool) {k : Nat} (hk : k < 8) :
    (shiftCell p con sr rx).getLsbD k =
      if k ≥ frameWidth con then sr.getLsbD k
      else if k = frameWidth con - 1 then rx else sr.getLsbD (k + 1) := by
  have hw := frameWidth_le con
  rw [shiftCell, if_neg (by simp [hlsb]), mergeLow_bits hw hk]
  by_cases hge : k ≥ frameWidth con
  · rw [if_pos hge, if_neg (by omega)]
  · rw [if_neg hge, if_pos (by omega), BitVec.getLsbD_or, getLsbD_flag _ hk,
      BitVec.getLsbD_ushiftRight, Nat.add_comm 1 k]
    by_cases hlast : k = frameWidth con - 1
    · have hout : ((sr &&& lowMask (frameWidth con)).getLsbD (k + 1)) = false := by
        by_cases h8 : k + 1 < 8
        · rw [getLsbD_and_lowMask hw h8]
          simp [show ¬ k + 1 < frameWidth con by omega]
        · exact BitVec.getLsbD_of_ge _ _ (by omega)
      rw [hout, if_pos hlast]
      simp [hlast]
    · rw [getLsbD_and_lowMask hw (by omega), if_neg hlast]
      simp [hlast, show k + 1 < frameWidth con by omega]

/-- Settles O37: the two bit orders, each by its own law. -/
theorem shiftRegisterBits : Obligations.ShiftRegisterBits := fun p con sr rx _ hk =>
  ⟨fun hmsb => ⟨if_pos hmsb, getLsbD_shiftCell_msb hmsb sr rx hk⟩,
    fun hlsb => ⟨if_neg (by simp [hlsb]), getLsbD_shiftCell_lsb hlsb sr rx hk⟩⟩

/-! ### One cell, by the order of the bits

Seen by the order in which the bits of a frame are sent, the two bit orders are one law. -/

/-- The place of the `j`-th bit of a frame in its byte (`State.bitPlace`, of a configuration). -/
def cellPlace (p : Params) (con : Byte) (j : Nat) : Nat :=
  if isMsbFirst p con then frameWidth con - 1 - j else j

theorem State.bitPlace_eq (s : State) (j : Nat) : s.bitPlace j = cellPlace s.params s.con j := rfl

theorem cellPlace_lt (p : Params) {con : Byte} {j : Nat} (hj : j < frameWidth con) :
    cellPlace p con j < frameWidth con := by
  unfold cellPlace
  split <;> omega

theorem cellPlace_cellPlace (p : Params) {con : Byte} {j : Nat} (hj : j < frameWidth con) :
    cellPlace p con (cellPlace p con j) = j := by
  unfold cellPlace
  split <;> omega

/-- The next cell transmits the first bit of the order. -/
theorem txBit_eq (p : Params) (con sr : Byte) : txBit p con sr = sr.getLsbD (cellPlace p con 0) := by
  unfold txBit cellPlace
  split <;> rfl

/-- A cell moves every bit to the place before its own, and puts the received bit last. -/
theorem getLsbD_shiftCell_place (p : Params) {con : Byte} (sr : Byte) (rx : Bool) {j : Nat}
    (hj : j < frameWidth con) :
    (shiftCell p con sr rx).getLsbD (cellPlace p con j)
      = if j + 1 < frameWidth con then sr.getLsbD (cellPlace p con (j + 1)) else rx := by
  have hw := frameWidth_le con
  have hplace := cellPlace_lt p hj
  cases horder : isMsbFirst p con with
  | true =>
    rw [getLsbD_shiftCell_msb horder sr rx (by omega), if_neg (by omega)]
    simp only [cellPlace, horder, if_true]
    by_cases hlast : j + 1 < frameWidth con
    · rw [if_pos hlast, if_neg (by omega), Nat.sub_sub _ j 1]
    · rw [if_neg hlast, if_pos (by omega)]
  | false =>
    rw [getLsbD_shiftCell_lsb horder sr rx (by omega), if_neg (by omega)]
    simp only [cellPlace, horder, Bool.false_eq_true, if_false]
    by_cases hlast : j + 1 < frameWidth con
    · rw [if_pos hlast, if_neg (by omega)]
    · rw [if_neg hlast, if_pos (by omega)]

/-- A cell leaves the bits above the frame alone. -/
theorem getLsbD_shiftCell_of_le (p : Params) {con : Byte} (sr : Byte) (rx : Bool) {k : Nat}
    (hk : frameWidth con ≤ k) : (shiftCell p con sr rx).getLsbD k = sr.getLsbD k := by
  by_cases h8 : k < 8
  · cases horder : isMsbFirst p con with
    | true => rw [getLsbD_shiftCell_msb horder sr rx h8, if_pos hk]
    | false => rw [getLsbD_shiftCell_lsb horder sr rx h8, if_pos hk]
  · rw [BitVec.getLsbD_of_ge _ _ (by omega), BitVec.getLsbD_of_ge _ _ (by omega)]

/-! ### The cells of a frame -/

/-- After so many cells of a frame, each place holds the bit that many places on: one still to be sent,
or one received. -/
theorem getLsbD_foldl_shiftCell_place (p : Params) {con : Byte} (sr : Byte) (l : List Bool)
    (hl : l.length ≤ frameWidth con) {j : Nat} (hj : j < frameWidth con) :
    (l.foldl (shiftCell p con) sr).getLsbD (cellPlace p con j)
      = if j + l.length < frameWidth con then sr.getLsbD (cellPlace p con (j + l.length))
        else l.getD (j + l.length - frameWidth con) false := by
  induction l using List.reverseRecOn generalizing j with
  | nil => simp [hj]
  | append_singleton l rx ih =>
    rw [List.length_append, List.length_singleton] at hl ⊢
    rw [List.foldl_concat, getLsbD_shiftCell_place p _ rx hj]
    by_cases hlast : j + 1 < frameWidth con
    · rw [if_pos hlast, ih (by omega) hlast, Nat.add_right_comm j 1, ← Nat.add_assoc]
      by_cases hold : j + l.length + 1 < frameWidth con
      · rw [if_pos hold, if_pos hold]
      · rw [if_neg hold, if_neg hold, List.getD_append _ _ _ _ (by omega)]
    · rw [if_neg hlast, if_neg (by omega),
        show j + (l.length + 1) - frameWidth con = l.length by omega]
      simp

theorem getLsbD_foldl_shiftCell_of_le (p : Params) {con : Byte} (sr : Byte) (l : List Bool) {k : Nat}
    (hk : frameWidth con ≤ k) : (l.foldl (shiftCell p con) sr).getLsbD k = sr.getLsbD k := by
  induction l generalizing sr with
  | nil => rfl
  | cons rx l ih => rw [List.foldl_cons, ih, getLsbD_shiftCell_of_le p sr rx hk]

/-- Settles O40: the whole frame's cells leave received bits only, and the first `j` of them bring bit
`j` to the place it is sent from. -/
theorem frameExchangesBits : Obligations.FrameExchangesBits := by
  intro p con sr l hl place
  refine ⟨fun j hj => ⟨?received, ?transmitted⟩, fun k hk => getLsbD_foldl_shiftCell_of_le p sr l hk⟩
  case received =>
    have hplace := getLsbD_foldl_shiftCell_place p sr l hl.le hj
    rwa [if_neg (by omega), hl, Nat.add_sub_cancel] at hplace
  case transmitted =>
    have hj' : (l.take j).length = j := by rw [List.length_take]; omega
    rw [txBit_eq, getLsbD_foldl_shiftCell_place p sr _ (by omega) (frameWidth_pos con), hj',
      Nat.zero_add, if_pos hj]
    rfl

/-! ### Loopback of one frame -/

/-- A cell that receives the bit it transmits (R144). -/
def loopCell (p : Params) (con sr : Byte) : Byte := shiftCell p con sr (txBit p con sr)

/-- Such cells turn the frame's bits round in their order. -/
theorem getLsbD_iterate_loopCell (p : Params) {con : Byte} (sr : Byte) (m : Nat) {j : Nat}
    (hj : j < frameWidth con) :
    ((loopCell p con)^[m] sr).getLsbD (cellPlace p con j)
      = sr.getLsbD (cellPlace p con ((j + m) % frameWidth con)) := by
  induction m generalizing j with
  | zero => rw [Nat.add_zero, Nat.mod_eq_of_lt hj]; rfl
  | succ m ih =>
    rw [Function.iterate_succ_apply', loopCell, getLsbD_shiftCell_place p _ _ hj]
    by_cases hlast : j + 1 < frameWidth con
    · rw [if_pos hlast, ih hlast, Nat.add_right_comm, Nat.add_assoc]
    · rw [if_neg hlast, txBit_eq, ih (frameWidth_pos con), Nat.zero_add,
        show j + (m + 1) = m + frameWidth con by omega, Nat.add_mod_right]

theorem getLsbD_iterate_loopCell_of_le (p : Params) {con : Byte} (sr : Byte) (m : Nat) {k : Nat}
    (hk : frameWidth con ≤ k) : ((loopCell p con)^[m] sr).getLsbD k = sr.getLsbD k := by
  induction m with
  | zero => rfl
  | succ m ih => rw [Function.iterate_succ_apply', loopCell, getLsbD_shiftCell_of_le p _ _ hk, ih]

/-- Settles O41: a frame turns its bits round once. -/
theorem loopbackKeepsShiftRegister : Obligations.LoopbackKeepsShiftRegister := by
  intro p con sr
  show (loopCell p con)^[frameWidth con] sr = sr
  refine BitVec.eq_of_getLsbD_eq fun k _ => ?_
  by_cases hk : k < frameWidth con
  · rw [← cellPlace_cellPlace p hk, getLsbD_iterate_loopCell p sr _ (cellPlace_lt p hk),
      Nat.add_mod_right, Nat.mod_eq_of_lt (cellPlace_lt p hk)]
  · exact getLsbD_iterate_loopCell_of_le p sr _ (by omega)

end Sys2Proof.Machine
end

section
/-! The Transceive Engine (spec/43_transceive.md): what TALK, BUSY, COUNT, TICK and EXT_CELL do, a cell
inside its frame, and the completion of a frame. -/

namespace Sys2Proof.Machine

/-! ### The engine's procedures, case by case (R133, R138, R139) -/

theorem State.startFrame_of_mayRead {s : State} {i : Nat}
    (h : engineMayRead s.params (s.base.toNat + i) = true) : s.startFrame i = .ok { s with
      sr := s.byteAt (s.base.toNat + i)
      bitpos := 0#3
      baudcnt := s.br
      trace := s.trace ++ [.engineRead (s.base.toNat + i) (s.byteAt (s.base.toNat + i))] } := by
  rw [State.startFrame, State.memRead, if_pos h]; rfl

theorem State.startFrame_of_denied {s : State} {i : Nat}
    (h : engineMayRead s.params (s.base.toNat + i) = false) :
    s.startFrame i = .error ⟨.memRead, s.base.toNat + i⟩ := by
  rw [State.startFrame, State.memRead, h]; rfl

theorem State.advance_of_last {s : State} (h : s.done + 1#8 = s.len) :
    s.advance = .ok { s with done := s.done + 1#8, bitpos := 0#3, phase := .enabledIdle } :=
  if_pos h

theorem State.advance_of_more {s : State} (h : s.done + 1#8 ≠ s.len) : s.advance =
    { s with done := s.done + 1#8, bitpos := 0#3 }.startFrame (s.done + 1#8).toNat :=
  if_neg h

theorem State.frameComplete_of_mayWrite {s : State}
    (h : engineMayWrite s.params (s.base.toNat + s.done.toNat) = true) :
    s.frameComplete = s.writtenBack.advance := by
  rw [State.frameComplete, State.memWrite, if_pos h]; rfl

theorem State.frameComplete_of_denied {s : State}
    (h : engineMayWrite s.params (s.base.toNat + s.done.toNat) = false) :
    s.frameComplete = .error ⟨.memWrite, s.base.toNat + s.done.toNat⟩ := by
  rw [State.frameComplete, State.memWrite, h]; rfl

theorem State.cell_of_inside {s : State} (h : s.bitpos.toNat + 1 < s.width) (rx : Bool) :
    s.cell rx = .ok { s.shifted rx with bitpos := s.bitpos + 1#3 } :=
  if_neg (by omega)

theorem State.cell_of_last {s : State} (h : s.bitpos.toNat + 1 = s.width) (rx : Bool) :
    s.cell rx = (s.shifted rx).frameComplete :=
  if_pos (by omega)

/-! ### TALK (R130) -/

theorem State.startTransfer_of_mayRead {s : State} {base : Half} (len : Byte)
    (h : engineMayRead s.params base.toNat = true) : s.startTransfer base len = .ok { s with
      phase := .enabledBusy
      base := base
      len := len
      done := 0#8
      sr := s.byteAt base.toNat
      bitpos := 0#3
      baudcnt := s.br
      response := some ⟨.ok, 0#16⟩
      trace := s.trace ++ [.engineRead base.toNat (s.byteAt base.toNat), .response ⟨.ok, 0#16⟩] } := by
  rw [State.startTransfer, State.startFrame_of_mayRead h]
  simp [State.answer, State.byteAt]

theorem State.startTransfer_of_denied {s : State} {base : Half} (len : Byte)
    (h : engineMayRead s.params base.toNat = false) :
    s.startTransfer base len = .error ⟨.memRead, base.toNat⟩ := by
  rw [State.startTransfer, State.startFrame_of_denied h]; rfl

/-- Settles O32: the misuse, the no-op, and the two outcomes of the first read. -/
theorem talkResult : Obligations.TalkResult := by
  intro base len s
  by_cases hidle : s.phase = .enabledIdle
  · rw [if_neg (not_not_intro hidle)]
    by_cases hlen : len = 0#8
    · subst hlen
      exact exec_talk_of_len_zero hidle base
    · rw [if_neg hlen, exec_talk_of_idle hidle base hlen]
      cases hread : engineMayRead s.params base.toNat with
      | true => rw [State.startTransfer_of_mayRead len hread]; rfl
      | false => rw [State.startTransfer_of_denied len hread]; rfl
  · rw [if_pos hidle, exec_talk_of_not_idle hidle]
    rcases s.misuse_cases .talk with ⟨hpolicy, hmisuse⟩ | ⟨hpolicy, hmisuse⟩
    · rw [hmisuse, if_pos hpolicy]; rfl
    · rw [hmisuse, if_neg (by simp [hpolicy])]; rfl

/-- Settles O43: the first byte of an admitted buffer is readable, so TALK starts the transfer. -/
theorem talkReachesTransferStart : Obligations.TalkReachesTransferStart := by
  intro base len s hidle hf hlen hadmitted
  have hpos : 0 < len.toNat := by bv_omega
  obtain ⟨hread, -⟩ := hadmitted 0 hpos
  rw [exec_talk_of_idle hidle base hlen, State.startTransfer_of_mayRead len hread]
  refine ⟨_, rfl, ?_, rfl, rfl, rfl, rfl, rfl, rfl, rfl⟩
  exact ⟨rfl, hf, hlen, rfl, rfl, rfl, rfl, hadmitted⟩

/-! ### BUSY and COUNT (R131, R132) -/

theorem State.busyResult_eq (s : State) :
    s.busyResult = if s.phase = .enabledBusy then 1#16 else 0#16 := by
  simp only [State.busyResult, State.bsy_iff]

/-- Settles O33: BUSY only answers, with the view of PHASE. -/
theorem busyResult : Obligations.BusyResult := by
  intro s r
  have hr : r = ⟨.ok, s.busyResult⟩ := by rw [State.busyResult_eq]
  rw [hr]; rfl

/-- Settles O34: COUNT only answers, and DONE fits the result. -/
theorem countResult : Obligations.CountResult := fun s =>
  ⟨_, ⟨.ok, s.done.setWidth 16⟩, rfl, rfl, BitVec.toNat_setWidth_of_le (by decide), rfl⟩

/-! ### TICK and EXT_CELL (R136, R137) -/

theorem onTick_of_not_busy {s : State} (h : s.phase ≠ .enabledBusy) (rx : Bool) :
    onTick rx s = s := by
  simp [onTick, State.bsy_eq_false_iff s |>.mpr h]

theorem onTick_of_baudcnt_ne_zero {s : State} (hbusy : s.phase = .enabledBusy)
    (hm : s.isMaster = true) (h : s.baudcnt ≠ 0#16) (rx : Bool) :
    onTick rx s = { s with baudcnt := s.baudcnt - 1#16 } := by
  simp [onTick, s.bsy_iff.mpr hbusy, hm, h]

theorem onTick_of_baudcnt_eq_zero {s : State} (hbusy : s.phase = .enabledBusy)
    (hm : s.isMaster = true) (h : s.baudcnt = 0#16) (rx : Bool) :
    onTick rx s = s.commit ({ s with baudcnt := s.br }.cell rx) := by
  simp [onTick, s.bsy_iff.mpr hbusy, hm, h]

theorem onExtCell_of_not_busy {s : State} (h : s.phase ≠ .enabledBusy) (rx : Bool) :
    onExtCell rx s = s := by
  simp [onExtCell, State.bsy_eq_false_iff s |>.mpr h]

theorem onExtCell_of_slave {s : State} (hbusy : s.phase = .enabledBusy) (hm : s.isMaster = false)
    (rx : Bool) : onExtCell rx s = s.commit (s.cell rx) := by
  simp [onExtCell, s.bsy_iff.mpr hbusy, hm]

/-- Settles O35: each case of R136 by its own equation; a fault of the cell discards the reload too. -/
theorem tickLaw : Obligations.TickLaw := by
  refine fun s rx => ⟨fun hidle => ?_, fun hbusy hm hne => onTick_of_baudcnt_ne_zero hbusy hm hne rx,
    fun hbusy hm hzero => ⟨fun t ht => ?_, fun f hf => ?_⟩⟩
  · rcases hidle with hphase | hslave
    · exact onTick_of_not_busy hphase rx
    · exact onTick_of_slave hslave rx
  · rw [onTick_of_baudcnt_eq_zero hbusy hm hzero, ht]; rfl
  · rw [onTick_of_baudcnt_eq_zero hbusy hm hzero, hf]; rfl

/-- Settles O36: each case of R137 by its own equation. -/
theorem extCellLaw : Obligations.ExtCellLaw := by
  refine fun s rx => ⟨fun hidle => ?_, fun hbusy hm => ⟨fun t ht => ?_, fun f hf => ?_⟩⟩
  · rcases hidle with hphase | hmaster
    · exact onExtCell_of_not_busy hphase rx
    · exact onExtCell_of_master hmaster rx
  · rw [onExtCell_of_slave hbusy hm, ht]; rfl
  · rw [onExtCell_of_slave hbusy hm, hf]; rfl

/-! ### A cell inside its frame (R138) -/

theorem State.toNat_bitpos_succ {s : State} (h : s.bitpos.toNat + 1 < s.width) :
    (s.bitpos + 1#3).toNat = s.bitpos.toNat + 1 := by
  have hw := s.width_le
  bv_omega

/-- Settles O38: below the last cell BITPOS + 1 fits BITPOS. -/
theorem cellInsideFrame : Obligations.CellInsideFrame := fun _ rx h =>
  ⟨_, State.cell_of_inside h rx, State.toNat_bitpos_succ h, rfl⟩

/-! ### The completion of a frame (R139) -/

/-- The byte written back has the frame's bits of the shift register. -/
theorem State.getLsbD_writeBack {s : State} {k : Nat} (hk : k < s.width) :
    s.writeBack.getLsbD k = s.sr.getLsbD k := by
  have hw := s.width_le
  unfold State.writeBack
  split
  · rfl
  · rw [mergeLow_bits hw (by omega), if_pos hk]

theorem State.writeBack_of_width_eq_eight {s : State} (h : s.width = 8) : s.writeBack = s.sr :=
  if_pos h

theorem State.CompletesFrame.toNat_done {s t : State} {rx : Bool} {v : Byte}
    (h : s.CompletesFrame rx v t) (hdone : s.done.toNat < s.len.toNat) :
    t.done.toNat = s.done.toNat + 1 := by
  rw [h.done]; bv_omega

theorem State.CompletesFrame.byteAt_here {s t : State} {rx : Bool} {v : Byte}
    (h : s.CompletesFrame rx v t) (hmem : Memory.wf s.mem = true) :
    t.byteAt (s.base.toNat + s.done.toNat) = v := by
  rw [State.byteAt, h.mem]
  exact Memory.read_write_same v hmem

theorem State.CompletesFrame.byteAt_other {s t : State} {rx : Bool} {v : Byte}
    (h : s.CompletesFrame rx v t) {a : Nat} (ha : a ≠ s.base.toNat + s.done.toNat) :
    t.byteAt a = s.byteAt a := by
  rw [State.byteAt, h.mem]
  exact Memory.read_write_other _ v ha

/-- The shift register after the last cell of a frame: as the cell leaves it, or the next byte. -/
theorem State.sr_of_advance {s t : State} {rx : Bool}
    (h : (s.shifted rx).writtenBack.advance = .ok t) :
    t.sr = if t.done = s.len then shiftCell s.params s.con s.sr rx
      else t.byteAt (s.base.toNat + t.done.toNat) := by
  rcases State.advance_ok h with ⟨hlast, rfl⟩ | ⟨hmore, a, rfl, -, rfl⟩
  · exact (if_pos hlast).symm
  · exact (if_neg hmore).symm

/-- The frame of an advance: which registers the end of a frame does not write. -/
theorem State.frame_of_advance {s t : State} {rx : Bool}
    (h : (s.shifted rx).writtenBack.advance = .ok t) : t = { s with
      mem := t.mem, done := t.done, bitpos := t.bitpos, phase := t.phase, sr := t.sr,
      baudcnt := t.baudcnt, trace := t.trace, draws := t.draws } := by
  rcases State.advance_ok h with ⟨-, rfl⟩ | ⟨-, a, -, -, rfl⟩ <;> rfl

/-- The last cell of a frame, with its write admitted, and its reload where there is one. -/
theorem State.advance_succeeds {s : State} (rx : Bool) (hdone : s.done.toNat < s.len.toNat)
    (hread : s.done.toNat + 1 < s.len.toNat →
      engineMayRead s.params (s.base.toNat + s.done.toNat + 1) = true) :
    ∃ t, (s.shifted rx).writtenBack.advance = .ok t := by
  by_cases hlast : s.done + 1#8 = s.len
  · exact ⟨_, State.advance_of_last (s := (s.shifted rx).writtenBack) hlast⟩
  · have hnext : (s.done + 1#8).toNat = s.done.toNat + 1 := by bv_omega
    have hmay : engineMayRead s.params (s.base.toNat + (s.done + 1#8).toNat) = true := by
      rw [hnext, ← Nat.add_assoc]
      exact hread (by bv_omega)
    rw [State.advance_of_more (s := (s.shifted rx).writtenBack) hlast]
    exact ⟨_, State.startFrame_of_mayRead hmay⟩

/-- Settles O39: the write-back denied, the reload denied, and the frame completed. -/
theorem frameCompletion : Obligations.FrameCompletion := by
  intro s rx hmem hlast hdone here sr'
  rw [State.cell_of_last hlast]
  have hnext : (s.done + 1#8).toNat = s.done.toNat + 1 := by bv_omega
  refine ⟨fun hdenied => ?write, fun hwrite hmore hdenied => ?reload, fun hwrite hread => ?completed⟩
  case write => exact State.frameComplete_of_denied (s := s.shifted rx) hdenied
  case reload =>
    have hne : s.done + 1#8 ≠ s.len := by bv_omega
    have haddr : here + 1 = s.base.toNat + (s.done + 1#8).toNat := by rw [hnext]; rfl
    rw [haddr] at hdenied ⊢
    rw [State.frameComplete_of_mayWrite (s := s.shifted rx) hwrite,
      State.advance_of_more (s := (s.shifted rx).writtenBack) hne]
    exact State.startFrame_of_denied hdenied
  case completed =>
    obtain ⟨t, hadvance⟩ := State.advance_succeeds rx hdone hread
    have hframe := State.completesFrame_of_advance hadvance
    have hdone' := hframe.toNat_done hdone
    have haddr : s.base.toNat + t.done.toNat = here + 1 := by rw [hdone']; rfl
    have hahead : t.byteAt (here + 1) = s.byteAt (here + 1) := hframe.byteAt_other (by omega)
    have hsr := State.sr_of_advance hadvance
    have htrace := hframe.trace
    rw [haddr, hahead] at hsr htrace
    rw [State.frameComplete_of_mayWrite (s := s.shifted rx) hwrite]
    exact ⟨t, (s.shifted rx).writeBack, hadvance, fun k hk => State.getLsbD_writeBack hk,
      fun h8 => State.writeBack_of_width_eq_eight h8, hframe.byteAt_here hmem,
      fun a ha => hframe.byteAt_other ha, hdone', hframe.bitpos, hframe.phase, hsr, hframe.baudcnt,
      htrace, State.frame_of_advance hadvance⟩

end Sys2Proof.Machine
end

section
/-! What does not move the engine (spec/43_transceive.md R140, R141, spec/41_port_router.md R113): two
blocks that differ in the duplex mode, the clock phase and polarity and the port selection take an
engine event alike. -/

namespace Sys2Proof.Machine

/-! ### Blocks that are alike -/

/-- Two traces with the same events but for the edge order of their cells, and with the same edge orders
too where `samePhase`. -/
structure TraceAlike (samePhase : Prop) (tr tr' : List Event) : Prop where
  events : tr'.map Event.withoutEdges = tr.map Event.withoutEdges
  edges : samePhase → tr' = tr

/-- `t'` is `t` with `con` as its frame byte and `x` as its port selection, and a trace alike. -/
structure State.Alike (con x : Byte) (samePhase : Prop) (t t' : State) : Prop where
  frame : t' = { t with con := con, pisel := x, trace := t'.trace }
  trace : TraceAlike samePhase t.trace t'.trace

/-- Two frame bytes that mean the same to the engine: width and bit order, and where `samePhase` the
edge order that its cells record. -/
structure SameToEngine (p : Params) (samePhase : Prop) (con con' : Byte) : Prop where
  width : frameWidth con' = frameWidth con
  order : isMsbFirst p con' = isMsbFirst p con
  edges : samePhase → edgeOrder p con' = edgeOrder p con

section
variable {con x : Byte} {samePhase : Prop} {s t t' : State}

theorem TraceAlike.refl (tr : List Event) : TraceAlike samePhase tr tr := ⟨rfl, fun _ => rfl⟩

theorem TraceAlike.append {tr tr' es es' : List Event} (h : TraceAlike samePhase tr tr')
    (hes : TraceAlike samePhase es es') : TraceAlike samePhase (tr ++ es) (tr' ++ es') :=
  ⟨by rw [List.map_append, List.map_append, h.events, hes.events],
    fun hp => by rw [h.edges hp, hes.edges hp]⟩

/-- The form every state alike to `t` has. -/
theorem State.Alike.eq (h : State.Alike con x samePhase t t') :
    ∃ tr, TraceAlike samePhase t.trace tr ∧ t' = { t with con := con, pisel := x, trace := tr } :=
  ⟨t'.trace, h.trace, h.frame⟩

/-- Two outcomes of a computation on blocks alike: states alike, or one fault. -/
def AlikeOutcomes (con x : Byte) (samePhase : Prop) :
    Except FaultRecord State → Except FaultRecord State → Prop
  | .ok t, .ok t' => State.Alike con x samePhase t t'
  | .error f, .error f' => f' = f
  | _, _ => False

/-! ### The engine's procedures on blocks that are alike -/

theorem State.Alike.startFrame (h : State.Alike con x samePhase t t') (i : Nat) :
    AlikeOutcomes con x samePhase (t.startFrame i) (t'.startFrame i) := by
  obtain ⟨tr, htr, rfl⟩ := h.eq
  cases hread : engineMayRead t.params (t.base.toNat + i) with
  | true =>
    rw [State.startFrame_of_mayRead hread,
      State.startFrame_of_mayRead (s := { t with con := con, pisel := x, trace := tr }) hread]
    exact ⟨rfl, htr.append (TraceAlike.refl _)⟩
  | false =>
    rw [State.startFrame_of_denied hread,
      State.startFrame_of_denied (s := { t with con := con, pisel := x, trace := tr }) hread]
    exact rfl

theorem State.Alike.advance (h : State.Alike con x samePhase t t') :
    AlikeOutcomes con x samePhase t.advance t'.advance := by
  obtain ⟨tr, htr, rfl⟩ := h.eq
  by_cases hlast : t.done + 1#8 = t.len
  · rw [State.advance_of_last hlast,
      State.advance_of_last (s := { t with con := con, pisel := x, trace := tr }) hlast]
    exact ⟨rfl, htr⟩
  · rw [State.advance_of_more hlast,
      State.advance_of_more (s := { t with con := con, pisel := x, trace := tr }) hlast]
    exact State.Alike.startFrame ⟨rfl, htr⟩ _

theorem State.Alike.writeBack (h : State.Alike con x samePhase t t')
    (hcon : SameToEngine t.params samePhase t.con con) : t'.writeBack = t.writeBack := by
  have hwidth : t'.width = t.width := by rw [h.frame]; exact hcon.width
  have hsr : t'.sr = t.sr := by rw [h.frame]
  have hdraws : t'.draws = t.draws := by rw [h.frame]
  rw [State.writeBack, State.writeBack, hwidth, hsr, hdraws]

theorem State.Alike.frameComplete (h : State.Alike con x samePhase t t')
    (hcon : SameToEngine t.params samePhase t.con con) :
    AlikeOutcomes con x samePhase t.frameComplete t'.frameComplete := by
  have hbyte := h.writeBack hcon
  obtain ⟨tr, htr, rfl⟩ := h.eq
  cases hwrite : engineMayWrite t.params (t.base.toNat + t.done.toNat) with
  | true =>
    rw [State.frameComplete_of_mayWrite hwrite, State.frameComplete_of_mayWrite
      (s := { t with con := con, pisel := x, trace := tr }) hwrite]
    refine State.Alike.advance ⟨?_, ?_⟩
    · simp only [State.writtenBack, hbyte]
    · simp only [State.writtenBack, hbyte]
      exact (htr.append (TraceAlike.refl _)).append (TraceAlike.refl _)
  | false =>
    rw [State.frameComplete_of_denied hwrite, State.frameComplete_of_denied
      (s := { t with con := con, pisel := x, trace := tr }) hwrite]
    exact rfl

theorem SameToEngine.txBit {p : Params} {con' : Byte} (h : SameToEngine p samePhase con con')
    (sr : Byte) : txBit p con' sr = txBit p con sr := by
  simp only [Machine.txBit, h.width, h.order]

theorem SameToEngine.shiftCell {p : Params} {con' : Byte} (h : SameToEngine p samePhase con con')
    (sr : Byte) (rx : Bool) : shiftCell p con' sr rx = shiftCell p con sr rx := by
  simp only [Machine.shiftCell, h.width, h.order]

/-- Only the edge order of its CELL event tells two such exchanges apart. -/
theorem State.Alike.shifted (h : State.Alike con x samePhase t t')
    (hcon : SameToEngine t.params samePhase t.con con) (rx : Bool) :
    State.Alike con x samePhase (t.shifted rx) (t'.shifted rx) := by
  obtain ⟨tr, htr, rfl⟩ := h.eq
  simp only [State.shifted_eq, hcon.txBit, hcon.shiftCell]
  refine ⟨rfl, htr.append ⟨rfl, fun hp => ?_⟩⟩
  rw [hcon.edges hp]

theorem State.Alike.cell (h : State.Alike con x samePhase t t')
    (hcon : SameToEngine t.params samePhase t.con con) (rx : Bool) :
    AlikeOutcomes con x samePhase (t.cell rx) (t'.cell rx) := by
  have hshifted := h.shifted hcon rx
  have hwidth : t'.width = t.width := by rw [h.frame]; exact hcon.width
  have hbitpos : t'.bitpos = t.bitpos := by rw [h.frame]
  simp only [State.cell, hwidth, hbitpos]
  split
  · exact hshifted.frameComplete hcon
  · obtain ⟨tr, htr, heq⟩ := hshifted.eq
    rw [heq]
    exact ⟨rfl, htr⟩

/-- Blocks alike end their steps alike: a fault leaves the blocks the steps began at. -/
theorem State.Alike.commit (h : State.Alike con x samePhase t t') {r r' : Except FaultRecord State}
    (hr : AlikeOutcomes con x samePhase r r') :
    State.Alike con x samePhase (t.commit r) (t'.commit r') := by
  obtain ⟨tr, htr, rfl⟩ := h.eq
  cases r with
  | ok u =>
    cases r' with
    | ok u' => exact hr
    | error f' => exact hr.elim
  | error f =>
    cases r' with
    | ok u' => exact hr.elim
    | error f' => cases hr; exact ⟨rfl, htr⟩

/-! ### The engine's events on blocks that are alike -/

theorem State.Alike.onTick (h : State.Alike con x samePhase t t')
    (hcon : SameToEngine t.params samePhase t.con con) (rx : Bool) :
    State.Alike con x samePhase (onTick rx t) (onTick rx t') := by
  have hmaster : t'.isMaster = t.isMaster := by rw [h.frame]; rfl
  have hbsy : t'.bsy = t.bsy := by rw [h.frame]; rfl
  have hbaud : t'.baudcnt = t.baudcnt := by rw [h.frame]
  have hreloaded : State.Alike con x samePhase { t with baudcnt := t.br }
      { t' with baudcnt := t'.br } := by
    obtain ⟨tr, htr, rfl⟩ := h.eq
    exact ⟨rfl, htr⟩
  simp only [Machine.onTick, hmaster, hbsy, hbaud]
  split
  · split
    · exact h.commit (hreloaded.cell hcon rx)
    · obtain ⟨tr, htr, rfl⟩ := h.eq
      exact ⟨rfl, htr⟩
  · exact h

theorem State.Alike.onExtCell (h : State.Alike con x samePhase t t')
    (hcon : SameToEngine t.params samePhase t.con con) (rx : Bool) :
    State.Alike con x samePhase (onExtCell rx t) (onExtCell rx t') := by
  have hmaster : t'.isMaster = t.isMaster := by rw [h.frame]; rfl
  have hbsy : t'.bsy = t.bsy := by rw [h.frame]; rfl
  simp only [Machine.onExtCell, hmaster, hbsy]
  split
  · exact h.commit (h.cell hcon rx)
  · exact h

end

/-! ### The bits that differ -/

/-- The bits of CON.PH, CON.PO and CON.HD that are to be changed. -/
def flippedBits (p : Params) (ph po hd : Bool) : Byte :=
  (if ph then 1#8 <<< p.flagPos.phase else 0#8) ||| (if po then 1#8 <<< p.flagPos.pol else 0#8)
    ||| (if hd then 0x80#8 else 0#8)

theorem getLsbD_if_flag (b : Bool) {k : Nat} (hk : k < 8) (n : Nat) :
    (if b then 1#8 <<< n else 0#8).getLsbD k = (b && decide (k = n)) := by
  cases b with
  | false => simp
  | true => simpa using getLsbD_flag 1#1 hk n

theorem getLsbD_flippedBits (p : Params) (ph po hd : Bool) {k : Nat} (hk : k < 8) :
    (flippedBits p ph po hd).getLsbD k = ((ph && decide (k = p.flagPos.phase))
      || (po && decide (k = p.flagPos.pol)) || (hd && decide (k = 7))) := by
  have hduplex : (0x80#8 : Byte) = 1#8 <<< 7 := by decide
  rw [flippedBits, hduplex]
  simp only [BitVec.getLsbD_or, getLsbD_if_flag _ hk]

/-- A bit that is not one of the three stays. -/
theorem getLsbD_xor_flippedBits (p : Params) (con : Byte) {ph po hd : Bool} {k : Nat} (hk : k < 7)
    (hphase : ph = true → k ≠ p.flagPos.phase) (hpol : k ≠ p.flagPos.pol) :
    (con ^^^ flippedBits p ph po hd).getLsbD k = con.getLsbD k := by
  have hph : (ph && decide (k = p.flagPos.phase)) = false := by
    cases ph with
    | false => rfl
    | true => simp [hphase rfl]
  rw [BitVec.getLsbD_xor, getLsbD_flippedBits p ph po hd (by omega), hph]
  simp [hpol, hk.ne]

/-- The width, the bit order and, where CON.PH is not among them, the edge order are other bits. -/
theorem sameToEngine_flippedBits {p : Params} (hp : p.wellFormed = true) (con : Byte)
    (ph po hd : Bool) :
    SameToEngine p (ph = false) con (con ^^^ flippedBits p ph po hd) := by
  obtain ⟨horder, hphase, hpol, hop, hopo, hppo⟩ :=
    FlagPos.wellFormed_iff.mp (Params.flagPos_wellFormed hp)
  refine ⟨?width, ?order, fun hfalse => ?edges⟩
  case width =>
    suffices hw : conW (con ^^^ flippedBits p ph po hd) = conW con by
      rw [frameWidth, frameWidth, hw]
    refine BitVec.eq_of_getLsbD_eq fun k hk => ?_
    simp only [conW, BitVec.getLsbD_extractLsb', Nat.zero_add,
      getLsbD_xor_flippedBits p con (show k < 7 by omega) (fun _ => by omega)
        (show k ≠ p.flagPos.pol by omega)]
  case order => exact getLsbD_xor_flippedBits p con (by omega) (fun _ => hop) hopo
  case edges =>
    have hbit : clockPhase p (con ^^^ flippedBits p ph po hd) = clockPhase p con :=
      getLsbD_xor_flippedBits p con (by omega) (by simp [hfalse]) hppo
    rw [edgeOrder, edgeOrder, hbit]

/-- Settles O42: the two blocks are alike and their frame bytes mean the same to the engine. -/
theorem engineIgnoresClockDuplexRouting : Obligations.EngineIgnoresClockDuplexRouting := by
  intro s rx ph po hd x hp flip s' alike
  have hcon := sameToEngine_flippedBits hp s.con ph po hd
  have hstart : State.Alike (s.con ^^^ flip) x (ph = false) s s' := ⟨rfl, TraceAlike.refl _⟩
  have htick := hstart.onTick hcon rx
  have hextCell := hstart.onExtCell hcon rx
  exact ⟨⟨htick.frame, htick.trace.events, htick.trace.edges⟩,
    ⟨hextCell.frame, hextCell.trace.events, hextCell.trace.edges⟩⟩

end Sys2Proof.Machine
end

section
/-! Transfers that do not end well (spec/43_transceive.md R134, spec/60_exceptions.md R178): DISABLE and an
accepted INIT abort the transfer in flight, and a RESET ends it in no way. -/

namespace Sys2Proof.Machine

/-- The commands that abort a transfer in flight (R134). -/
def State.AbortedBy (s : State) (i : Instr) : Prop :=
  i = .disable ∨ ∃ br con m, i = .init br con m ∧ frameByteLegal s.params con = true

/-- Either command leaves for Disabled and answers, INIT with the configuration written. -/
theorem exec_of_abortedBy {s : State} {i : Instr} (h : s.AbortedBy i) :
    ∃ br con m cfgv, exec i s = .next
      ({ s.toDisabled with br := br, con := con, ms := m, cfgv := cfgv }.answer .ok 0#16) := by
  rcases h with rfl | ⟨br, con, m, rfl, hlegal⟩
  · exact ⟨_, _, _, _, exec_disable s⟩
  · exact ⟨br, con, m, true, exec_init_of_legal hlegal br m⟩

/-- The invariant's DONE < LEN makes the end in Disabled no success. -/
theorem exec_aborts {s : State} {i : Instr} (hs : s.Inv) (hbusy : s.phase = .enabledBusy)
    (h : s.AbortedBy i) :
    ∃ t, exec i s = .next t ∧ t.phase = .disabled ∧ t.done.toNat < t.len.toNat ∧ ¬ t.AtGoodEnd
      ∧ t.mem = s.mem ∧ t.done = s.done ∧ t.sr = s.sr ∧ t.bitpos = s.bitpos
      ∧ t.baudcnt = s.baudcnt ∧ t.base = s.base ∧ t.len = s.len
      ∧ t.trace = s.trace ++ [.abort s.done, .response ⟨.ok, 0#16⟩] := by
  obtain ⟨br, con, m, cfgv, hexec⟩ := exec_of_abortedBy h
  refine ⟨_, hexec, ?_⟩
  simpa [State.AtGoodEnd, hbusy] using hs.busy_done hbusy

section
variable {s u v t : State} {k : Nat}

/-- A transfer that leaves for Disabled ends well at no time: up to then it is Enabled-Busy, and in a
longer flight it would be after it. -/
theorem not_transferEndedWell_of_disabled (hs : s.StartsTransfer u) (hflight : u.InFlightFor (k + 1))
    (hrun : core.run (k + 1) u = .next t) (hdis : t.phase = .disabled) (j : Nat) (x : State) :
    ¬ TransferEndedWell s j x := by
  rintro ⟨u', hs', hflight', hrun', hidle, -⟩
  obtain rfl := hs.unique hs'
  rcases lt_trichotomy j (k + 1) with hlt | rfl | hgt
  · have hbusy := hflight.busy hlt hrun'
    rw [hidle] at hbusy; cases hbusy
  · obtain rfl := run_unique hrun hrun'
    rw [hdis] at hidle; cases hidle
  · have hbusy := hflight'.busy hgt hrun
    rw [hdis] at hbusy; cases hbusy

/-- A transfer that a RESET ends is aborted at no time: an abort is the step in which it leaves for
Disabled, and that step is the RESET. -/
theorem not_transferAborted_of_reset {rest : List Input} (hs : s.StartsTransfer u)
    (hflight : u.InFlightFor (k + 1)) (hrun : core.run k u = .next v)
    (hin : v.inputs = .reset :: rest) (hnext : core.run (k + 1) u = .next t)
    (hdis : t.phase = .disabled) (j : Nat) (x : State) : ¬ TransferAborted s j x := by
  rintro ⟨u', v', hs', hflight', hrun', hstep', ⟨e, rest', hin', hcommand⟩, hdis', -⟩
  obtain rfl := hs.unique hs'
  rcases lt_trichotomy j k with hlt | rfl | hgt
  · have hbusy := hflight.busy (Nat.succ_lt_succ hlt) (run_succ.mpr ⟨v', hrun', hstep'⟩)
    rw [hdis'] at hbusy; cases hbusy
  · obtain rfl := run_unique hrun hrun'
    obtain rfl : Input.reset = e := (List.cons.inj (hin.symm.trans hin')).1
    rcases hcommand with hdisable | ⟨br, con, m, hinit⟩
    · cases hdisable
    · cases hinit
  · have hbusy := hflight'.busy (Nat.succ_lt_succ hgt) hnext
    rw [hdis] at hbusy; cases hbusy

end

/-- Settles O27: the abort of a state in flight, the aborted transfer of a TALK, and the RESET. -/
theorem abortIsNoSuccess : Obligations.AbortIsNoSuccess := by
  refine ⟨fun s i hs hbusy habort => exec_aborts hs hbusy habort,
    fun s u v k w i rest hs hflight hrun hinv hf hin hdecode habort => ?aborted,
    fun s u v k rest hs hflight hrun hin j x => ?reset⟩
  case aborted =>
    have hbusy := hflight.busy (Nat.lt_succ_self k) hrun
    obtain ⟨t, hexec, hdis, hdone, -⟩ :=
      exec_aborts (s := (v.takeInput rest).emit (.command w)) ((hinv.takeInput rest).emit _) hbusy
        habort
    have hstep : step v = .next t := by
      rw [step_of_inputs_command hf hin, stepCommand_of_command hdecode]
      exact hexec
    have hcommand : (Input.command w).instr? = some .disable
        ∨ ∃ br con m, (Input.command w).instr? = some (.init br con m) := by
      rw [Input.instr?_command hdecode]
      rcases habort with rfl | ⟨br, con, m, rfl, -⟩
      · exact .inl rfl
      · exact .inr ⟨br, con, m, rfl⟩
    exact ⟨t, hstep, ⟨u, v, hs, hflight, hrun, hstep, ⟨_, rest, hin, hcommand⟩, hdis, hdone⟩,
      not_transferEndedWell_of_disabled hs hflight (run_succ.mpr ⟨v, hrun, hstep⟩) hdis⟩
  case reset =>
    have hnext : core.run (k + 1) u = .next (v.takeInput rest).applyReset :=
      run_succ.mpr ⟨v, hrun, step_of_inputs_cons hin⟩
    exact ⟨not_transferEndedWell_of_disabled hs hflight hnext rfl j x,
      not_transferAborted_of_reset hs hflight hrun hin hnext rfl j x⟩

end Sys2Proof.Machine
end

section
/-! A whole transfer (spec/43_transceive.md R142-R145): it ends on time, exchanges the buffer bit for bit,
emits its events, and under loopback keeps the buffer. -/

namespace Sys2Proof.Machine

/-! ### The end of a transfer (R143, R145) -/

theorem run_next (k : Nat) (s : State) : ∃ t, core.run k s = .next t := by
  induction k with
  | zero => exact ⟨s, rfl⟩
  | succ k ih =>
    obtain ⟨u, hu⟩ := ih
    obtain ⟨t, ht⟩ := stepAlwaysAnswers u
    exact ⟨t, run_succ.mpr ⟨u, hu, ht⟩⟩

section
variable {s u t : State} {l : List Bool} {rest : List Input} {k : Nat}

theorem State.afterEvents_of_run (hs : s.AtTransferStart) (hev : s.TransferEvents l rest)
    (hk : k ≤ l.length) (hrun : core.run k s = .next u) : s.AfterEvents l rest k u :=
  (State.transfer_induction (P := fun _ => True) hs hev trivial (fun _ _ _ _ _ _ _ _ => trivial) hk
    hrun).1

/-- After its last event a transfer has R178's values. -/
theorem State.AfterEvents.atGoodEnd (h : s.AfterEvents l rest l.length t)
    (hev : s.TransferEvents l rest) : t.AtGoodEnd ∧ t.inputs = rest := by
  have hdone := h.done_eq hev
  refine ⟨⟨by rw [h.phase, if_pos hdone], h.fault, hdone.trans h.len.symm⟩, ?_⟩
  rw [h.inputs, State.eventsFrom, List.drop_length]; rfl

/-- Settles O44: `AfterEvents` of each state of the run, busy up to the last event and not after it. -/
theorem transferEndsOnTime : Obligations.TransferEndsOnTime := by
  intro s l rest hs hev
  have hbusy : ∀ k, k < l.length → ∃ u, core.run k s = .next u ∧ u.phase = .enabledBusy
      ∧ s.AfterEvents l rest k u := fun k hk => by
    obtain ⟨u, hrun⟩ := run_next k s
    have hafter := State.afterEvents_of_run hs hev hk.le hrun
    exact ⟨u, hrun, hafter.busy (hafter.done_lt hev hk), hafter⟩
  obtain ⟨t, hrun⟩ := run_next l.length s
  obtain ⟨hgood, hrest⟩ := (State.afterEvents_of_run hs hev le_rfl hrun).atGoodEnd hev
  refine ⟨fun k hk => ?_, t, hrun, hgood, hrest, fun p hp => ⟨s, hp, fun j hj => ?_, hrun, hgood⟩⟩
  · obtain ⟨u, hu, hphase, hafter⟩ := hbusy k hk
    exact ⟨u, hu, hphase, hafter.fault, hafter.bitpos_lt, hafter.cells⟩
  · obtain ⟨u, hu, hphase, -⟩ := hbusy j hj
    exact ⟨u, hu, hphase⟩

/-! ### The event of a cell -/

theorem State.eventOfCell_of_last (h : k % s.eventsPerCell + 1 = s.eventsPerCell) :
    s.eventOfCell (k / s.eventsPerCell) = k := by
  have hk := Nat.mod_add_div k s.eventsPerCell
  rw [State.eventOfCell, Nat.add_one_mul, Nat.mul_comm]
  omega

/-- The bit a cell receives is the one offered at the cell's event. -/
theorem State.AfterEvents.received_eq (h : s.AfterEvents l rest k u) (hk : k < l.length)
    (hlast : k % s.eventsPerCell + 1 = s.eventsPerCell) :
    l[k] = l.getD (s.eventOfCell (u.done.toNat * s.width + u.bitpos.toNat)) false := by
  rw [h.cells, State.eventOfCell_of_last hlast, List.getD_eq_getElem _ _ hk]

/-! ### The bits of the frames (R138, R142) -/

/-- The bit at place `j` of frame `i` after `m` of its cells: one of the byte loaded, still to be sent,
or one of those received. -/
def State.frameBit (s : State) (l : List Bool) (i m j : Nat) : Bool :=
  if j + m < s.width then (s.byteAt (s.base.toNat + i)).getLsbD (s.bitPlace (j + m))
  else l.getD (s.eventOfCell (i * s.width + (j + m - s.width))) false

theorem State.frameBit_zero {i j : Nat} (hj : j < s.width) :
    s.frameBit l i 0 j = (s.byteAt (s.base.toNat + i)).getLsbD (s.bitPlace j) := by
  rw [State.frameBit, Nat.add_zero, if_pos hj]

theorem State.frameBit_width (i j : Nat) :
    s.frameBit l i s.width j = l.getD (s.eventOfCell (i * s.width + j)) false := by
  rw [State.frameBit, if_neg (by omega), Nat.add_sub_cancel]

/-- A byte has the bits of frame `i` after `m` of its cells. -/
def State.HoldsFrame (s : State) (l : List Bool) (i m : Nat) (b : Byte) : Prop :=
  ∀ j, j < s.width → b.getLsbD (s.bitPlace j) = s.frameBit l i m j

/-- A cell of a frame in the shift register is the next cell of that frame. -/
theorem State.HoldsFrame.shiftCell {i m : Nat} {sr : Byte} {rx : Bool} (h : s.HoldsFrame l i m sr)
    (hrx : rx = l.getD (s.eventOfCell (i * s.width + m)) false) :
    s.HoldsFrame l i (m + 1) (shiftCell s.params s.con sr rx) := by
  intro j hj
  have hbit := getLsbD_shiftCell_place s.params (con := s.con) sr rx hj
  rw [State.bitPlace_eq, hbit]
  by_cases hlast : j + 1 < frameWidth s.con
  · rw [if_pos hlast, ← State.bitPlace_eq, h (j + 1) hlast, State.frameBit, State.frameBit,
      Nat.add_right_comm, Nat.add_assoc]
  · have hw : j + 1 = s.width := by
      have : s.width = frameWidth s.con := rfl
      omega
    rw [if_neg hlast, hrx, State.frameBit, if_neg (by omega),
      show j + (m + 1) - s.width = m by omega]

/-- What is written back of a whole frame are its received bits. -/
theorem State.HoldsFrame.writeBack {i m : Nat} (h : s.HoldsFrame l i m u.sr)
    (hwidth : u.width = s.width) : s.HoldsFrame l i m u.writeBack := fun j hj => by
  have hplace : s.bitPlace j < s.width := cellPlace_lt s.params hj
  rw [State.getLsbD_writeBack (by rwa [hwidth]), h j hj]

/-- The exchange so far: each frame done is in its byte as received, and the frame in flight is in the
shift register with its cells so far. -/
structure State.Exchanging (s : State) (l : List Bool) (u : State) : Prop where
  received : ∀ i, i < u.done.toNat → s.HoldsFrame l i s.width (u.byteAt (s.base.toNat + i))
  inFlight : u.done ≠ s.len → s.HoldsFrame l u.done.toNat u.bitpos.toNat u.sr

theorem State.Exchanging.start (hs : s.AtTransferStart) : s.Exchanging l s where
  received i hi := by simp [hs.done_zero] at hi
  inFlight _ j hj := by
    rw [hs.done_zero, hs.bitpos_zero, hs.loaded]
    exact (State.frameBit_zero (i := 0) hj).symm

/-- The shift register after the last cell of a frame, in a whole cell. -/
theorem State.sr_of_cell {rx : Bool} (hlast : s.bitpos.toNat + 1 = s.width)
    (h : s.cell rx = .ok t) : t.sr = if t.done = s.len then shiftCell s.params s.con s.sr rx
      else t.byteAt (s.base.toNat + t.done.toNat) := by
  rcases State.cell_ok h with ⟨hne, -⟩ | ⟨-, -, hadvance⟩
  · omega
  · exact State.sr_of_advance hadvance

/-- A cell inside its frame brings the frame in flight one cell on. -/
theorem State.Exchanging.inside {c : State} {rx : Bool} (h : s.Exchanging l c)
    (hinside : c.bitpos.toNat + 1 < c.width)
    (hnext : s.HoldsFrame l c.done.toNat (c.bitpos.toNat + 1) (c.shifted rx).sr) :
    s.Exchanging l { c.shifted rx with bitpos := c.bitpos + 1#3 } where
  received := h.received
  inFlight _ := by
    rw [← State.toNat_bitpos_succ hinside] at hnext
    exact hnext

/-- The end of a frame puts the frame into its byte and the next byte into the shift register. -/
theorem State.Exchanging.completes {c : State} {rx : Bool} (h : s.Exchanging l c)
    (hmem : Memory.wf c.mem = true) (hbase : c.base = s.base) (hlen : c.len = s.len)
    (hwidth : c.width = s.width) (hdone : c.done.toNat < s.len.toNat)
    (hwhole : s.HoldsFrame l c.done.toNat s.width (c.shifted rx).sr)
    (hframe : c.CompletesFrame rx (c.shifted rx).writeBack t)
    (hsr : t.done ≠ s.len → t.sr = s.byteAt (s.base.toNat + t.done.toNat)) :
    s.Exchanging l t where
  received i hi := by
    rw [hframe.toNat_done (by rwa [hlen])] at hi
    rcases Nat.lt_succ_iff_lt_or_eq.mp hi with hbefore | rfl
    · rw [hframe.byteAt_other (by rw [hbase]; omega)]
      exact h.received i hbefore
    · rw [← hbase, hframe.byteAt_here hmem]
      exact hwhole.writeBack hwidth
  inFlight hmore j hj := by
    rw [hframe.bitpos, hsr hmore]
    exact (State.frameBit_zero hj).symm

/-- Each event of a transfer keeps the exchange. -/
theorem State.Exchanging.step (hmem : Memory.wf s.mem = true) (hs : s.AtTransferStart)
    (hev : s.TransferEvents l rest) (hk : k < l.length) (hu : s.AfterEvents l rest k u)
    (ht : s.AfterEvents l rest (k + 1) t) (hstep : step u = .next t) (h : s.Exchanging l u) :
    s.Exchanging l t := by
  rcases hu.step_cases hs hev hk hstep with ⟨-, -, rfl⟩ | ⟨hlast, hcell⟩
  · exact ⟨h.received, h.inFlight⟩
  have hdone := hu.done_lt hev hk
  have hwidth : (s.atCell l rest k u).width = s.width := hu.width
  have hc : s.Exchanging l (s.atCell l rest k u) := ⟨h.received, h.inFlight⟩
  have hnext : s.HoldsFrame l (s.atCell l rest k u).done.toNat
      ((s.atCell l rest k u).bitpos.toNat + 1) ((s.atCell l rest k u).shifted l[k]).sr := by
    have hshift := (h.inFlight (ne_of_apply_ne BitVec.toNat hdone.ne)).shiftCell
      (hu.received_eq hk hlast)
    rwa [← hu.params, ← hu.con] at hshift
  rcases State.cell_inside_or_completes (by rw [hwidth]; exact hu.bitpos_lt) hcell with
    ⟨hinside, rfl⟩ | ⟨hend, hframe⟩
  · exact hc.inside hinside hnext
  · rw [hwidth] at hend
    rw [hend] at hnext
    refine hc.completes (hu.mem_wf hmem) hu.base hu.len hwidth hdone hnext hframe fun hmore => ?_
    have hsr := State.sr_of_cell (hend.trans hwidth.symm) hcell
    rw [State.atCell_len, State.atCell_base, hu.len, hu.base, if_neg hmore] at hsr
    exact hsr.trans (ht.untouched _ (.inr le_rfl))

end

/-- Settles O45: at the end every frame is done, so each byte of the buffer is as received. -/
theorem transferExchangesBuffer : Obligations.TransferExchangesBuffer := by
  intro s t l rest hmem hs hev hrun
  obtain ⟨hafter, hexchanged⟩ := State.transfer_induction (P := s.Exchanging l) hs hev
    (State.Exchanging.start hs)
    (fun _ _ _ hk hu hv hstep h => h.step hmem hs hev hk hu hv hstep) le_rfl hrun
  have hdone := hafter.done_eq hev
  refine ⟨fun i j hi hj => ?_, fun a ha => hafter.untouched a (by rwa [hdone]), hafter.br, hafter.con,
    hafter.ms, hafter.pisel, hafter.cfgv, hafter.base, hafter.len, hafter.params⟩
  rw [← hdone] at hi
  exact (hexchanged.received i hi j hj).trans (State.frameBit_width i j)

/-! ### The events of a transfer (R142) -/

/-- The CELL event of cell `c` of a transfer from `s`: its frame and its number there, the bit of the
byte the buffer held, the bit the partner offers (R138, R146). -/
def State.cellEvent (s : State) (l : List Bool) (c : Nat) : Event :=
  .cell (BitVec.ofNat 8 (c / s.width)) (BitVec.ofNat 3 (c % s.width))
    ((s.byteAt (s.base.toNat + c / s.width)).getLsbD (s.bitPlace (c % s.width)))
    (l.getD (s.eventOfCell c) false) (edgeOrder s.params s.con)

/-- The frames done and the cells so far are the FRAME_DONE and CELL events of `es`. -/
structure State.CompletionsLogged (s : State) (l : List Bool) (u : State) (es : List Event) :
    Prop where
  trace : u.trace = s.trace ++ es
  frames : es.filterMap Event.frameDone? = (List.range u.done.toNat).map fun i =>
    (BitVec.ofNat 8 i, u.byteAt (s.base.toNat + i))
  cells : es.filter Event.isCell =
    (List.range (u.done.toNat * s.width + u.bitpos.toNat)).map (s.cellEvent l)

section
variable {s u t : State} {l : List Bool} {rest : List Input} {k : Nat}

theorem State.CompletionsLogged.start (hs : s.AtTransferStart) : s.CompletionsLogged l s [] where
  trace := (List.append_nil _).symm
  frames := by simp [hs.done_zero]
  cells := by simp [hs.done_zero, hs.bitpos_zero]

/-- The place of a cell in its frame, from its number in the transfer. -/
theorem div_mod_of_cell {i j w : Nat} (hj : j < w) :
    (i * w + j) / w = i ∧ (i * w + j) % w = j :=
  (Nat.div_mod_unique (by omega)).mpr ⟨by rw [Nat.mul_comm w, Nat.add_comm], hj⟩

/-- The event a cell emits is that of its number. -/
theorem State.cellEvent_eq (h : s.HoldsFrame l u.done.toNat u.bitpos.toNat u.sr)
    (hbit : u.bitpos.toNat < s.width) :
    s.cellEvent l (u.done.toNat * s.width + u.bitpos.toNat)
      = .cell u.done u.bitpos (txBit s.params s.con u.sr)
        (l.getD (s.eventOfCell (u.done.toNat * s.width + u.bitpos.toNat)) false)
        (edgeOrder s.params s.con) := by
  obtain ⟨hdiv, hmod⟩ := div_mod_of_cell (i := u.done.toNat) hbit
  have htx : txBit s.params s.con u.sr
      = (s.byteAt (s.base.toNat + u.done.toNat)).getLsbD (s.bitPlace u.bitpos.toNat) := by
    rw [txBit_eq, ← State.bitPlace_eq, h 0 s.width_pos, State.frameBit, Nat.zero_add, if_pos hbit]
  rw [State.cellEvent, hdiv, hmod, htx, BitVec.ofNat_toNat, BitVec.ofNat_toNat, BitVec.setWidth_eq,
    BitVec.setWidth_eq]

/-- A cell inside its frame logs its CELL event. -/
theorem State.CompletionsLogged.inside {es : List Event} {c : State} {rx : Bool}
    (h : s.CompletionsLogged l c es) (hinside : c.bitpos.toNat + 1 < c.width)
    (he : .cell c.done c.bitpos (txBit c.params c.con c.sr) rx (edgeOrder c.params c.con)
      = s.cellEvent l (c.done.toNat * s.width + c.bitpos.toNat)) :
    ∃ es', s.CompletionsLogged l { c.shifted rx with bitpos := c.bitpos + 1#3 } es' := by
  refine ⟨_, by rw [State.shifted_eq, h.trace, List.append_assoc], ?frames, ?cells⟩
  case frames =>
    rw [List.filterMap_append, h.frames]
    exact List.append_nil _
  case cells =>
    show _ = (List.range (c.done.toNat * s.width + (c.bitpos + 1#3).toNat)).map (s.cellEvent l)
    rw [State.toNat_bitpos_succ hinside, ← Nat.add_assoc, List.range_succ, List.map_append,
      List.map_singleton, List.filter_append, h.cells, ← he]
    rfl

/-- The end of a frame logs its last CELL and its FRAME_DONE. -/
theorem State.CompletionsLogged.completes {es : List Event} {c : State} {rx : Bool} {v : Byte}
    (h : s.CompletionsLogged l c es) (hmem : Memory.wf c.mem = true) (hbase : c.base = s.base)
    (hdone : c.done.toNat < c.len.toNat) (hend : c.bitpos.toNat + 1 = s.width)
    (hframe : c.CompletesFrame rx v t)
    (he : .cell c.done c.bitpos (txBit c.params c.con c.sr) rx (edgeOrder c.params c.con)
      = s.cellEvent l (c.done.toNat * s.width + c.bitpos.toNat)) :
    ∃ es', s.CompletionsLogged l t es' := by
  have hnext := hframe.toNat_done hdone
  refine ⟨_, by rw [hframe.trace, h.trace, List.append_assoc, List.append_assoc], ?frames, ?cells⟩
  case frames =>
    have hbefore : ∀ i ∈ List.range c.done.toNat,
        (BitVec.ofNat 8 i, c.byteAt (s.base.toNat + i))
          = (BitVec.ofNat 8 i, t.byteAt (s.base.toNat + i)) := fun i hi => by
      have hlt := List.mem_range.mp hi
      rw [hframe.byteAt_other (by rw [hbase]; omega)]
    have hhere : t.byteAt (s.base.toNat + c.done.toNat) = v := by
      rw [← hbase]; exact hframe.byteAt_here hmem
    rw [List.filterMap_append, h.frames, hnext, List.range_succ, List.map_append,
      List.map_congr_left hbefore, List.map_singleton, hhere, BitVec.ofNat_toNat, BitVec.setWidth_eq]
    split <;> rfl
  case cells =>
    have hcells : t.done.toNat * s.width + t.bitpos.toNat
        = c.done.toNat * s.width + c.bitpos.toNat + 1 := by
      rw [hnext, hframe.bitpos, Nat.add_one_mul, ← hend, Nat.add_assoc]; rfl
    rw [List.filter_append, h.cells, hcells, List.range_succ, List.map_append, List.map_singleton,
      ← he]
    split <;> rfl

/-- Each event of a transfer keeps the log. -/
theorem State.CompletionsLogged.step {es : List Event} (hmem : Memory.wf s.mem = true)
    (hs : s.AtTransferStart) (hev : s.TransferEvents l rest) (hk : k < l.length)
    (hu : s.AfterEvents l rest k u) (hstep : step u = .next t) (hx : s.Exchanging l u)
    (h : s.CompletionsLogged l u es) : ∃ es', s.CompletionsLogged l t es' := by
  rcases hu.step_cases hs hev hk hstep with ⟨-, -, rfl⟩ | ⟨hlast, hcell⟩
  · exact ⟨es, h.trace, h.frames, h.cells⟩
  have hc : s.CompletionsLogged l (s.atCell l rest k u) es := ⟨h.trace, h.frames, h.cells⟩
  have hdone := hu.done_lt hev hk
  have hwidth : (s.atCell l rest k u).width = s.width := hu.width
  have hevent := State.cellEvent_eq (hx.inFlight (ne_of_apply_ne BitVec.toNat hdone.ne)) hu.bitpos_lt
  rw [← hu.received_eq hk hlast, ← hu.params, ← hu.con] at hevent
  rcases State.cell_inside_or_completes (by rw [hwidth]; exact hu.bitpos_lt) hcell with
    ⟨hinside, rfl⟩ | ⟨hend, hframe⟩
  · exact hc.inside hinside hevent.symm
  · exact hc.completes (hu.mem_wf hmem) hu.base (hu.len ▸ hdone) (hend.trans hwidth) hframe
      hevent.symm

end

/-- Settles O46: the log is kept by every event, and at the end all frames are done. -/
theorem transferEmitsCompletionEvents : Obligations.TransferEmitsCompletionEvents := by
  intro s t l rest hmem hs hev hrun
  obtain ⟨hafter, -, es, hlog⟩ := State.transfer_induction
    (P := fun u => s.Exchanging l u ∧ ∃ es, s.CompletionsLogged l u es) hs hev
    ⟨State.Exchanging.start hs, [], State.CompletionsLogged.start hs⟩
    (fun _ _ _ hk hu hv hstep ⟨hx, _, hlog⟩ =>
      ⟨hx.step hmem hs hev hk hu hv hstep, hlog.step hmem hs hev hk hu hstep hx⟩) le_rfl hrun
  have hdone := hafter.done_eq hev
  have hcells : t.done.toNat * s.width + t.bitpos.toNat = s.len.toNat * s.width := by
    rw [hafter.cells, hev.eq.2, Nat.mul_div_cancel _ s.eventsPerCell_pos]
  have hframes := hlog.frames
  have hcellEvents := hlog.cells
  rw [hdone] at hframes
  rw [hcells] at hcellEvents
  exact ⟨es, hlog.trace, hframes, hcellEvents⟩

/-! ### The loopback law (R144) -/

/-- Settles O48: the bit received at a place is the one sent from it, which is the byte's own. -/
theorem loopbackKeepsBuffer : Obligations.LoopbackKeepsBuffer := by
  intro s t l rest es hmem hs hev hrun htrace hloop
  obtain ⟨hreceived, houtside, -⟩ := transferExchangesBuffer s t l rest hmem hs hev hrun
  obtain ⟨es', htrace', -, hcells⟩ := transferEmitsCompletionEvents s t l rest hmem hs hev hrun
  obtain rfl : es = es' := List.append_cancel_left (htrace.symm.trans htrace')
  have hlow : ∀ i k, i < s.len.toNat → k < s.width →
      (t.byteAt (s.base.toNat + i)).getLsbD k = (s.byteAt (s.base.toNat + i)).getLsbD k := by
    intro i k hi hk
    obtain ⟨j, hj, rfl⟩ : ∃ j, j < s.width ∧ s.bitPlace j = k :=
      ⟨_, cellPlace_lt s.params hk, cellPlace_cellPlace s.params hk⟩
    obtain ⟨hdiv, hmod⟩ := div_mod_of_cell (i := i) hj
    have hnumber : i * s.width + j < s.len.toNat * s.width := by
      calc i * s.width + j < (i + 1) * s.width := by rw [Nat.add_one_mul]; omega
        _ ≤ s.len.toNat * s.width := Nat.mul_le_mul_right _ hi
    have hevent : s.cellEvent l (i * s.width + j) ∈ es.filter Event.isCell := by
      rw [hcells]
      exact List.mem_map_of_mem (List.mem_range.mpr hnumber)
    have hsent := hloop _ _ _ _ _ (List.mem_of_mem_filter hevent)
    rw [hdiv, hmod] at hsent
    rw [hreceived i j hi hj, hsent]
  refine ⟨hlow, fun h8 a => ?_⟩
  by_cases ha : a < s.base.toNat ∨ s.base.toNat + s.len.toNat ≤ a
  · exact houtside a ha
  · obtain ⟨i, rfl⟩ : ∃ i, a = s.base.toNat + i := ⟨a - s.base.toNat, by omega⟩
    exact BitVec.eq_of_getLsbD_eq fun k hk => hlow i k (by omega) (by rwa [h8])

end Sys2Proof.Machine
end

section
/-! Errors, faults and the environment (spec/60_exceptions.md): the three ways a command can end, the causes
of a fault and what a step that raises one leaves, the quiescence of a faulted block, and the lines and
clock edges of a configuration. -/

namespace Sys2Proof.Machine

/-! ### The ways a command can end (R160-R163) -/

/-- The table of R160 by command: the error statuses it lists for each. -/
def errorsOf : Opcode → List Status
  | .init | .encodeBaud | .encodeFrame | .selectPorts => [.invalidParameter]
  | .ports | .enable | .talk => [.illegalState]
  | .disable | .busy | .count => []

/-- The faults a command can raise at `s`, each with its cause and its record (R162, R163). -/
inductive State.CommandFault (s : State) : Instr → FaultRecord → Prop where
  | portsMisuse {sel : Byte} (hpolicy : s.params.misusePolicy = .fault) (hen : s.phase ≠ .disabled) :
      s.CommandFault (.ports sel) ⟨.misuse, 0x02⟩
  | talkMisuse {base : Half} {len : Byte} (hpolicy : s.params.misusePolicy = .fault)
      (hidle : s.phase ≠ .enabledIdle) : s.CommandFault (.talk base len) ⟨.misuse, 0x05⟩
  | firstRead {base : Half} {len : Byte} (hread : engineMayRead s.params base.toNat = false) :
      s.CommandFault (.talk base len) ⟨.memRead, base.toNat⟩

/-- The ways a command issued at `s` can lead to `t`: it is accepted, it is refused with a status listed
for it and only answers, or it raises a fault and only sets FAULT. -/
inductive State.CommandEnds (s : State) (i : Instr) (t : State) : Prop where
  | accepted {result : Half} (hfault : t.fault = s.fault)
      (hresponse : t.response = some ⟨.ok, result⟩)
  | refused {st : Status} (hlisted : st ∈ errorsOf i.opcode) (ht : t = s.answer st 0#16)
  | faulted {f : FaultRecord} (hcause : s.CommandFault i f) (ht : t = s.raiseFault f)

/-- Misuse is a fault with the opcode or a refusal, as MISUSE_POLICY says. -/
theorem State.commandEnds_misuse {s : State} {i : Instr} {op : Opcode}
    (hlisted : .illegalState ∈ errorsOf i.opcode)
    (hcause : s.params.misusePolicy = .fault → s.CommandFault i ⟨.misuse, op.code.toNat⟩) :
    s.CommandEnds i (s.misuse op) := by
  rcases s.misuse_cases op with ⟨hpolicy, hmisuse⟩ | ⟨-, hmisuse⟩
  · exact .faulted (hcause hpolicy) hmisuse
  · exact .refused hlisted hmisuse

theorem exec_init_ends {br : Half} {con : Byte} {m : Bit} {s t : State}
    (h : exec (.init br con m) s = .next t) : s.CommandEnds (.init br con m) t := by
  cases hlegal : frameByteLegal s.params con with
  | false => exact .refused (List.mem_singleton_self _) (exec_unique h (exec_init_of_illegal hlegal br m))
  | true =>
    obtain rfl := exec_unique (exec_init_of_legal hlegal br m) h
    exact .accepted s.toDisabled_fault rfl

theorem exec_ports_ends {sel : Byte} {s t : State} (h : exec (.ports sel) s = .next t) :
    s.CommandEnds (.ports sel) t := by
  by_cases hdis : s.phase = .disabled
  · obtain rfl := exec_unique (exec_ports_of_disabled hdis sel) h
    exact .accepted rfl rfl
  · obtain rfl := exec_unique (exec_ports_of_enabled hdis sel) h
    exact State.commandEnds_misuse (List.mem_singleton_self _) fun hpolicy => .portsMisuse hpolicy hdis

theorem exec_enable_ends {s t : State} (h : exec .enable s = .next t) : s.CommandEnds .enable t := by
  by_cases hdis : s.phase = .disabled
  · cases hcfgv : s.cfgv with
    | false => exact .refused (List.mem_singleton_self _) (exec_unique h (exec_enable_of_unconfigured hdis hcfgv))
    | true =>
      obtain rfl := exec_unique (exec_enable_of_configured hdis hcfgv) h
      exact .accepted rfl rfl
  · obtain rfl := exec_unique (exec_enable_of_enabled hdis) h
    exact .accepted rfl rfl

theorem exec_talk_ends {base : Half} {len : Byte} {s t : State}
    (h : exec (.talk base len) s = .next t) : s.CommandEnds (.talk base len) t := by
  by_cases hidle : s.phase = .enabledIdle
  · by_cases hlen : len = 0#8
    · subst hlen
      obtain rfl := exec_unique (exec_talk_of_len_zero hidle base) h
      exact .accepted rfl rfl
    · obtain rfl := exec_unique (exec_talk_of_idle hidle base hlen) h
      cases hread : engineMayRead s.params base.toNat with
      | true =>
        rw [State.startTransfer_of_mayRead len hread]
        exact .accepted rfl rfl
      | false =>
        rw [State.startTransfer_of_denied len hread]
        exact .faulted (.firstRead hread) rfl
  · obtain rfl := exec_unique (exec_talk_of_not_idle hidle base len) h
    exact State.commandEnds_misuse (List.mem_singleton_self _) fun hpolicy => .talkMisuse hpolicy hidle

theorem exec_encodeBaud_ends {bps f : BitVec 24} {m : Bit} {s t : State}
    (h : exec (.encodeBaud bps f m) s = .next t) : s.CommandEnds (.encodeBaud bps f m) t := by
  cases hdivisor : baudDivisor (isMasterBit s.params m) bps.toNat f.toNat with
  | none => exact .refused (List.mem_singleton_self _) (exec_unique h (exec_encodeBaud_of_none hdivisor))
  | some d =>
    obtain rfl := exec_unique (exec_encodeBaud_of_some hdivisor) h
    exact .accepted rfl rfl

theorem exec_encodeFrame_ends {width : BitVec 4} {o ph po d : Bit} {s t : State}
    (h : exec (.encodeFrame width o ph po d) s = .next t) :
    s.CommandEnds (.encodeFrame width o ph po d) t := by
  by_cases hrefused : width.toNat < 2 ∨ 8 < width.toNat
  · exact .refused (List.mem_singleton_self _) (exec_unique h (exec_encodeFrame_of_not_width hrefused o ph po d))
  · obtain rfl := exec_unique (exec_encodeFrame_of_width (by omega) (by omega) o ph po d) h
    exact .accepted rfl rfl

theorem exec_selectPorts_ends {rst tsr clk : BitVec 2} {s t : State}
    (h : exec (.selectPorts rst tsr clk) s = .next t) : s.CommandEnds (.selectPorts rst tsr clk) t := by
  cases hselection : portSelection s.params rst tsr clk with
  | none => exact .refused (List.mem_singleton_self _) (exec_unique h (exec_selectPorts_of_none hselection))
  | some sel =>
    obtain rfl := exec_unique (exec_selectPorts_of_some hselection) h
    exact .accepted rfl rfl

theorem exec_ends {i : Instr} {s t : State} (h : exec i s = .next t) : s.CommandEnds i t := by
  cases i with
  | init br con m => exact exec_init_ends h
  | ports sel => exact exec_ports_ends h
  | enable => exact exec_enable_ends h
  | disable =>
    obtain rfl := exec_unique (exec_disable s) h
    exact .accepted s.toDisabled_fault rfl
  | talk base len => exact exec_talk_ends h
  | busy => cases h; exact .accepted rfl rfl
  | count => cases h; exact .accepted rfl rfl
  | encodeBaud bps f m => exact exec_encodeBaud_ends h
  | encodeFrame width o ph po d => exact exec_encodeFrame_ends h
  | selectPorts rst tsr clk => exact exec_selectPorts_ends h

/-! ### Error statuses (R160, R161) -/

/-- Settles O13: a response with an error status is that of a refusal, which only answers. -/
theorem errorStatusChangesNothing : Obligations.ErrorStatusChangesNothing := by
  intro i s t r h hresponse herror
  rcases exec_ends h with ⟨-, hok⟩ | ⟨-, rfl⟩ | ⟨-, rfl⟩
  · obtain rfl := Option.some.inj (hresponse.symm.trans hok)
    exact absurd rfl herror
  · obtain rfl := Option.some.inj hresponse
    exact ⟨rfl, rfl⟩
  · simp at hresponse

/-- The commands R160 lists each error status for. -/
theorem opcode_of_mem_errorsOf {op : Opcode} {st : Status} (h : st ∈ errorsOf op) :
    st ≠ .illegalCommand
      ∧ (st = .invalidParameter →
          op = .init ∨ op = .encodeBaud ∨ op = .encodeFrame ∨ op = .selectPorts)
      ∧ (st = .illegalState → op = .ports ∨ op = .talk ∨ op = .enable) := by
  cases op with
  | disable | busy | count => simp [errorsOf] at h
  | _ => obtain rfl := List.mem_singleton.mp h; simp

/-- Settles O14: a command is accepted with OK, or refused with a status listed for it. -/
theorem noUnlistedErrors : Obligations.NoUnlistedErrors := by
  intro i s t r h hresponse
  rcases exec_ends h with ⟨-, hok⟩ | ⟨hlisted, rfl⟩ | ⟨-, rfl⟩
  · obtain rfl := Option.some.inj (hresponse.symm.trans hok)
    exact ⟨nofun, nofun, nofun⟩
  · obtain rfl := Option.some.inj hresponse
    exact opcode_of_mem_errorsOf hlisted
  · simp at hresponse

/-! ### The causes of a fault (R163) -/

/-- The faults an engine event can raise at `s`, each with its cause and its record. -/
inductive State.EngineFault (s : State) : FaultRecord → Prop where
  | writeBack (hbusy : s.phase = .enabledBusy)
      (hwrite : engineMayWrite s.params (s.base.toNat + s.done.toNat) = false) :
      s.EngineFault ⟨.memWrite, s.base.toNat + s.done.toNat⟩
  | reload (hbusy : s.phase = .enabledBusy)
      (hread : engineMayRead s.params (s.base.toNat + (s.done + 1#8).toNat) = false) :
      s.EngineFault ⟨.memRead, s.base.toNat + (s.done + 1#8).toNat⟩

/-- A cell that fails does so for one of the engine's causes, whatever BAUDCNT it runs at. -/
theorem State.engineFault_of_cell {s : State} {n : Half} {rx : Bool} {f : FaultRecord}
    (hbusy : s.phase = .enabledBusy) (h : { s with baudcnt := n }.cell rx = .error f) :
    s.EngineFault f := by
  obtain ⟨-, ⟨hwrite, rfl⟩ | ⟨hread, rfl⟩⟩ := State.cell_error h
  · exact .writeBack hbusy hwrite
  · exact .reload hbusy hread

/-- A step whose success leaves FAULT clear sets it only by its own fault, and nothing else. -/
theorem State.commit_fault {s : State} {r : Except FaultRecord State} {f : FaultRecord}
    (hok : ∀ u, r = .ok u → u.fault = none) (h : (s.commit r).fault = some f) :
    r = .error f ∧ s.commit r = s.raiseFault f := by
  rcases s.commit_cases r with ⟨u, hu, hcommit⟩ | ⟨g, hg, hcommit⟩
  · simp [hcommit, hok u hu] at h
  · obtain rfl : g = f := by simpa [hcommit] using h
    exact ⟨hg, hcommit⟩

theorem State.cell_fault {s t : State} {rx : Bool} (hf : s.fault = none) (h : s.cell rx = .ok t) :
    t.fault = none := by
  obtain ⟨-, -, -, -, -, -, -, -, -, hsame, -⟩ := State.cell_moves h
  exact hsame.trans hf

theorem onTick_fault {s : State} {rx : Bool} {f : FaultRecord} (hf : s.fault = none)
    (h : (onTick rx s).fault = some f) : s.EngineFault f ∧ onTick rx s = s.raiseFault f := by
  rcases onTick_cases rx s with heq | ⟨-, -, -, heq⟩ | ⟨hbusy, -, -, heq⟩
  · simp [heq, hf] at h
  · simp [heq, hf] at h
  · rw [heq] at h ⊢
    obtain ⟨hcell, hcommit⟩ :=
      State.commit_fault (fun _ => State.cell_fault (s := { s with baudcnt := s.br }) hf) h
    exact ⟨State.engineFault_of_cell hbusy hcell, hcommit⟩

theorem onExtCell_fault {s : State} {rx : Bool} {f : FaultRecord} (hf : s.fault = none)
    (h : (onExtCell rx s).fault = some f) : s.EngineFault f ∧ onExtCell rx s = s.raiseFault f := by
  rcases onExtCell_cases rx s with heq | ⟨hbusy, -, heq⟩
  · simp [heq, hf] at h
  · rw [heq] at h ⊢
    obtain ⟨hcell, hcommit⟩ := State.commit_fault (fun _ => State.cell_fault hf) h
    exact ⟨State.engineFault_of_cell (n := s.baudcnt) hbusy hcell, hcommit⟩

theorem onHostRead_fault {s : State} {a : Half} {f : FaultRecord} (hf : s.fault = none)
    (h : (onHostRead a s).fault = some f) :
    s.races a = true ∧ f = ⟨.bufferRace, a.toNat⟩ ∧ onHostRead a s = s.raiseFault f := by
  rcases onHostRead_cases a s with ⟨hrace, heq⟩ | ⟨-, heq⟩
  · obtain rfl : _ = f := by simpa [heq] using h
    exact ⟨hrace, rfl, heq⟩
  · simp [heq, hf] at h

theorem onHostWrite_fault {s : State} {a : Half} {v : Byte} {f : FaultRecord} (hf : s.fault = none)
    (h : (onHostWrite a v s).fault = some f) :
    s.races a = true ∧ f = ⟨.bufferRace, a.toNat⟩ ∧ onHostWrite a v s = s.raiseFault f := by
  rcases onHostWrite_cases a v s with ⟨hrace, heq⟩ | ⟨-, heq⟩
  · obtain rfl : _ = f := by simpa [heq] using h
    exact ⟨hrace, rfl, heq⟩
  · simp [heq, hf] at h

/-- A command that sets FAULT raised the fault itself. -/
theorem exec_fault {i : Instr} {s t : State} {f : FaultRecord} (hf : s.fault = none)
    (h : exec i s = .next t) (hfault : t.fault = some f) :
    s.CommandFault i f ∧ t = s.raiseFault f := by
  rcases exec_ends h with ⟨hsame, -⟩ | ⟨-, rfl⟩ | ⟨hcause, rfl⟩
  · simp [hsame, hf] at hfault
  · simp [hf] at hfault
  · obtain rfl := Option.some.inj hfault
    exact ⟨hcause, rfl⟩

/-- A fault of a step that is no command leaves the state before with the event taken and FAULT set. -/
theorem State.raiseFault_takeInput (s : State) (rest : List Input) (f : FaultRecord) :
    (s.takeInput rest).raiseFault f = { s with
      inputs := rest
      response := none
      hostData := none
      fault := some f
      trace := s.trace ++ [] } := by
  rw [List.append_nil]; rfl

/-- Settles O10: the event is a command, an engine event or a host access, and each sets FAULT by its own
fault only. -/
theorem faultingStepChangesOnlyFault : Obligations.FaultingStepChangesOnlyFault := by
  refine ⟨⟨rfl, rfl, rfl, rfl⟩, fun s t e rest f hf hin h hfault => ?_⟩
  rcases step_cases h with ⟨hnil, -⟩ | ⟨e', rest', hin', hevent⟩
  · simp [hin] at hnil
  obtain ⟨rfl, rfl⟩ : e = e' ∧ rest = rest' := by simpa [hin] using hin'
  have htaken : (s.takeInput rest).fault = none := hf
  have hraised := s.raiseFault_takeInput rest
  rcases hevent with ⟨w, i, rfl, -, hdecode, hexec⟩ | ⟨w, why, -, -, -, rfl⟩ | ⟨rx, rfl, -, rfl⟩
    | ⟨rx, rfl, -, rfl⟩ | ⟨a, rfl, rfl⟩ | ⟨a, v, rfl, rfl⟩ | ⟨-, rfl⟩ | ⟨hfaulted, -⟩
  · have hinstr := Input.instr?_command hdecode
    obtain ⟨hcause, rfl⟩ := exec_fault (s := (s.takeInput rest).emit (.command w)) hf hexec hfault
    refine ⟨rfl, ?_⟩
    cases hcause with
    | portsMisuse hpolicy hen => exact ⟨hpolicy, .inl ⟨hen, rfl, _, hinstr⟩⟩
    | talkMisuse hpolicy hidle => exact ⟨hpolicy, .inr ⟨hidle, rfl, _, _, hinstr⟩⟩
    | firstRead hread => exact ⟨hread, .inl ⟨_, _, hinstr, rfl⟩⟩
  · simp [hf] at hfault
  · obtain ⟨⟨hbusy, hwrite⟩ | ⟨hbusy, hread⟩, heq⟩ := onTick_fault htaken hfault
    · exact ⟨heq.trans (hraised _), hwrite, rfl, hbusy, rfl⟩
    · exact ⟨heq.trans (hraised _), hread, .inr ⟨rfl, hbusy, rfl⟩⟩
  · obtain ⟨⟨hbusy, hwrite⟩ | ⟨hbusy, hread⟩, heq⟩ := onExtCell_fault htaken hfault
    · exact ⟨heq.trans (hraised _), hwrite, rfl, hbusy, rfl⟩
    · exact ⟨heq.trans (hraised _), hread, .inr ⟨rfl, hbusy, rfl⟩⟩
  · obtain ⟨hrace, rfl, heq⟩ := onHostRead_fault htaken hfault
    obtain ⟨hbusy, hlow, hhigh⟩ := (State.races_iff htaken a).mp hrace
    exact ⟨heq.trans (hraised _), hbusy, hlow, hhigh, a, rfl, .inl rfl⟩
  · obtain ⟨hrace, rfl, heq⟩ := onHostWrite_fault htaken hfault
    obtain ⟨hbusy, hlow, hhigh⟩ := (State.races_iff htaken a).mp hrace
    exact ⟨heq.trans (hraised _), hbusy, hlow, hhigh, a, rfl, .inr ⟨v, rfl⟩⟩
  · simp at hfault
  · simp [hf] at hfaulted

/-! ### The faulted block (R164) -/

theorem stepInput_command_of_fault {s : State} {f : FaultRecord} (hf : s.fault = some f)
    (w : Word64) : stepInput (.command w) s = .next s := by
  simp [stepInput, hf]

theorem stepInput_tick_of_fault {s : State} {f : FaultRecord} (hf : s.fault = some f) (rx : Bool) :
    stepInput (.tick rx) s = .next s := by
  simp [stepInput, hf]

theorem stepInput_extCell_of_fault {s : State} {f : FaultRecord} (hf : s.fault = some f)
    (rx : Bool) : stepInput (.extCell rx) s = .next s := by
  simp [stepInput, hf]

theorem stepInput_hostRead_of_fault {s : State} {f : FaultRecord} (hf : s.fault = some f)
    (a : Half) : stepInput (.hostRead a) s = .next
      ({ s with hostData := some (s.byteAt a.toNat) }.emit (.hostRead a (s.byteAt a.toNat))) :=
  congrArg _ (onHostRead_of_not_races (State.races_of_fault hf a))

theorem stepInput_hostWrite_of_fault {s : State} {f : FaultRecord} (hf : s.fault = some f)
    (a : Half) (v : Byte) : stepInput (.hostWrite a v) s = .next
      ({ s with mem := Memory.write s.mem a.toNat v }.emit (.hostWrite a v)) :=
  congrArg _ (onHostWrite_of_not_races (State.races_of_fault hf a) v)

/-- A transfer that has ended well has raised no fault (R178). -/
theorem State.not_atGoodEnd_of_fault {s : State} {f : FaultRecord} (hf : s.fault = some f) :
    ¬ s.AtGoodEnd := by
  rintro ⟨-, hnone, -⟩
  simp [hf] at hnone

/-- Settles O8: FAULT is still set when the event is taken, so only a host access and RESET do more. -/
theorem faultedBlockTakesNoStep : Obligations.FaultedBlockTakesNoStep := by
  intro s f rest hf taken
  have htaken : taken.fault = some f := hf
  refine ⟨fun w h => ?command, fun rx h => ?tick, fun rx h => ?extCell, fun a h => ?hostRead,
    fun a v h => ?hostWrite, fun h => ?reset, State.not_atGoodEnd_of_fault hf⟩
  all_goals rw [step_of_inputs_cons h]
  case command => exact stepInput_command_of_fault htaken w
  case tick => exact stepInput_tick_of_fault htaken rx
  case extCell => exact stepInput_extCell_of_fault htaken rx
  case hostRead => exact stepInput_hostRead_of_fault htaken a
  case hostWrite => exact stepInput_hostWrite_of_fault htaken a v
  case reset => exact ⟨_, rfl, rfl⟩

/-! ### Lines and clock edges (R175, 43_transceive.md R140) -/

theorem State.txLine_eq_mtsr_iff (s : State) : s.txLine = .mtsr ↔ s.isMaster = true := by
  cases h : s.isMaster <;> simp [State.txLine, h]

theorem State.clockRole_eq_output_iff (s : State) : s.clockRole = .output ↔ s.isMaster = true := by
  cases h : s.isMaster <;> simp [State.clockRole, h]

theorem State.rxSource_of_halfDuplex {s : State} (h : isHalfDuplex s.con = true) :
    s.rxSource = .shared := if_pos h

/-- In full duplex the received bits come from the line that is not transmitted on. -/
theorem State.rxSource_of_fullDuplex {s : State} (h : isHalfDuplex s.con = false) :
    ∃ l, s.rxSource = .line l ∧ l ≠ s.txLine ∧ (l = .mrst ↔ s.isMaster = true) := by
  cases hm : s.isMaster with
  | true => exact ⟨.mrst, by simp [State.rxSource, h, hm], by simp [State.txLine, hm], by simp⟩
  | false => exact ⟨.mtsr, by simp [State.rxSource, h, hm], by simp [State.txLine, hm], by simp⟩

theorem edgeOrder_eq_shiftTrailing_iff (p : Params) (con : Byte) :
    edgeOrder p con = .shiftTrailingLatchLeading ↔ clockPhase p con = true := by
  cases h : clockPhase p con <;> simp [edgeOrder, h]

theorem State.shiftEdge_ne_latchEdge (s : State) : s.shiftEdge ≠ s.latchEdge := by
  cases h : edgeOrder s.params s.con <;> simp [State.shiftEdge, State.latchEdge, h]

theorem State.latchEdge_eq_leading_iff (s : State) :
    s.latchEdge = .leading ↔ clockPhase s.params s.con = true := by
  rw [← edgeOrder_eq_shiftTrailing_iff]
  cases h : edgeOrder s.params s.con <;> simp [State.latchEdge, h]

/-- Settles O49: each view by its own law. -/
theorem linesAndEdgesOfConfiguration : Obligations.LinesAndEdgesOfConfiguration := fun s =>
  ⟨s.txLine_eq_mtsr_iff, s.clockRole_eq_output_iff, State.rxSource_of_fullDuplex,
    State.rxSource_of_halfDuplex, s.shiftEdge_ne_latchEdge, s.latchEdge_eq_leading_iff,
    edgeOrder_eq_shiftTrailing_iff s.params s.con, rfl⟩

end Sys2Proof.Machine
end

section
/-! RESET and what it leaves unspecified (spec/70_reset_and_hazards.md): the law of the event, the
boot order, and that the registers no rule can read decide nothing. -/

namespace Sys2Proof.Machine

/-! ### RESET (R180) -/

/-- The draws stand only in registers that are dead in Disabled with CFGV = 0. -/
theorem State.agreeLive_applyReset (s : State) : s.applyReset.AgreeLive { State.reset with
    pisel := s.params.piselReset, mem := s.mem, params := s.params, inputs := s.inputs,
    response := s.response, hostData := s.hostData, trace := s.trace,
    draws := s.applyReset.draws } where
  phase := rfl
  cfgv := rfl
  pisel := rfl
  done := rfl
  fault := rfl
  mem := rfl
  params := rfl
  inputs := rfl
  response := rfl
  hostData := rfl
  trace := rfl
  draws := rfl
  config := nofun
  engine := nofun

/-- Settles O54: each register by its equation after RESET, and the agreement above. -/
theorem resetEventLaw : Obligations.ResetEventLaw := fun s =>
  ⟨s.applyReset_phase, s.applyReset_cfgv, s.applyReset_done, s.applyReset_fault, s.applyReset_pisel,
    s.applyReset_mem, s.applyReset_trace, s.applyReset_params, s.applyReset_inputs,
    s.agreeLive_applyReset⟩

/-! ### The boot order (R182) -/

section
variable {s : State} {rest : List Input}

theorem step_reset (hin : s.inputs = .reset :: rest) :
    step s = .next (s.takeInput rest).applyReset :=
  step_of_inputs_cons hin

/-- The state in which a command runs: its event taken, its word in the trace. -/
def State.running (s : State) (i : Instr) (rest : List Input) : State :=
  (s.takeInput rest).emit (.command (encode i))

theorem step_encode {i : Instr} (hf : s.fault = none)
    (hin : s.inputs = .command (encode i) :: rest) : step s = exec i (s.running i rest) :=
  stepRunsDecodedCommand s _ i rest hf hin (decodeEncodeRoundTrip i)

theorem step_init {br : Half} {con : Byte} {m : Bit} (hf : s.fault = none)
    (hdis : s.phase = .disabled) (hlegal : frameByteLegal s.params con = true)
    (hin : s.inputs = .command (encode (.init br con m)) :: rest) :
    step s = .next ({ s.running (.init br con m) rest with
      br := br, con := con, ms := m, cfgv := true }.answer .ok 0#16) := by
  have hrun := exec_init_of_legal (s := s.running (.init br con m) rest) hlegal br m
  rw [State.toDisabled_of_disabled (s := s.running (.init br con m) rest) hdis] at hrun
  exact (step_encode hf hin).trans hrun

theorem step_enable (hf : s.fault = none) (hdis : s.phase = .disabled) (hcfgv : s.cfgv = true)
    (hin : s.inputs = .command (encode .enable) :: rest) :
    step s = .next ({ s.running .enable rest with phase := .enabledIdle }.answer .ok 0#16) :=
  (step_encode hf hin).trans (exec_enable_of_configured hdis hcfgv)

theorem step_talk {t : State} {base : Half} {len : Byte} (hf : s.fault = none)
    (hidle : s.phase = .enabledIdle) (hlen : len ≠ 0#8)
    (hin : s.inputs = .command (encode (.talk base len)) :: rest)
    (hstart : (s.running (.talk base len) rest).startTransfer base len = .ok t) :
    step s = .next t := by
  have hrun := exec_talk_of_idle (s := s.running (.talk base len) rest) hidle base hlen
  rw [hstart] at hrun
  exact (step_encode hf hin).trans hrun

end

/-- Settles O55: each event of the boot order meets the conditions of the next. -/
theorem bootOrderStartsTransfer : Obligations.BootOrderStartsTransfer := by
  intro s br con m base len rest hlegal hlen hread hin
  have hreset : core.run 1 s = .next _ := run_succ.mpr ⟨s, rfl, step_reset hin⟩
  have hinit : core.run 2 s = .next _ := run_succ.mpr ⟨_, hreset, step_init rfl rfl hlegal rfl⟩
  have henable : core.run 3 s = .next _ := run_succ.mpr ⟨_, hinit, step_enable rfl rfl rfl rfl⟩
  have htalk : core.run 4 s = .next _ := run_succ.mpr ⟨_, henable,
    step_talk rfl rfl hlen rfl (State.startTransfer_of_mayRead len hread)⟩
  exact ⟨_, htalk, rfl, rfl, rfl, rfl, rfl, rfl, rfl, rfl, rfl, rfl, rfl, rfl, rfl, rfl, rfl, rfl⟩

/-! ### Blocks that agree in all a rule can read (R181) -/

section
variable {s s' : State}

theorem State.AgreeLive.refl (s : State) : s.AgreeLive s :=
  ⟨rfl, rfl, rfl, rfl, rfl, rfl, rfl, rfl, rfl, rfl, rfl, rfl, fun _ => ⟨rfl, rfl, rfl⟩,
    fun _ => ⟨rfl, rfl, rfl, rfl, rfl⟩⟩

/-- In a configured block with a transfer in flight no register is dead. -/
theorem State.AgreeLive.eq_of_busy (h : s.AgreeLive s') (hbusy : s.phase = .enabledBusy)
    (hcfgv : s.cfgv = true) : s = s' := by
  obtain ⟨hbr, hcon, hms⟩ := h.config hcfgv
  obtain ⟨hsr, hbitpos, hbaudcnt, hbase, hlen⟩ := h.engine hbusy
  cases s
  cases s'
  rw [State.mk.injEq]
  exact ⟨h.phase, h.cfgv, hbr, hcon, hms, h.pisel, hsr, hbitpos, hbaudcnt, hbase, hlen, h.done,
    h.fault, h.mem, h.params, h.inputs, h.response, h.hostData, h.trace, h.draws⟩

/-! Updates, each of which writes no dead register or the same value in both blocks. -/

theorem State.AgreeLive.emit (h : s.AgreeLive s') (e : Event) : (s.emit e).AgreeLive (s'.emit e) :=
  { h with trace := congrArg (· ++ [e]) h.trace }

theorem State.AgreeLive.answer (h : s.AgreeLive s') (st : Status) (r : Half) :
    (s.answer st r).AgreeLive (s'.answer st r) :=
  { h with response := rfl, trace := congrArg (· ++ [Event.response ⟨st, r⟩]) h.trace }

theorem State.AgreeLive.raiseFault (h : s.AgreeLive s') (f : FaultRecord) :
    (s.raiseFault f).AgreeLive (s'.raiseFault f) :=
  { h with fault := rfl, response := rfl, hostData := rfl }

theorem State.AgreeLive.takeInput (h : s.AgreeLive s') (rest : List Input) :
    (s.takeInput rest).AgreeLive (s'.takeInput rest) :=
  { h with inputs := rfl, response := rfl, hostData := rfl }

theorem State.AgreeLive.byteAt (h : s.AgreeLive s') (a : Nat) : s.byteAt a = s'.byteAt a :=
  congrArg (Memory.read · a) h.mem

/-- A phase without a transfer binds no register of the engine. -/
theorem State.AgreeLive.setPhase (h : s.AgreeLive s') {p : Phase} (hp : p ≠ .enabledBusy) :
    { s with phase := p }.AgreeLive { s' with phase := p } :=
  { h with phase := rfl, engine := fun hbusy => absurd hbusy hp }

theorem State.AgreeLive.toDisabled (h : s.AgreeLive s') : s.toDisabled.AgreeLive s'.toDisabled := by
  have hbsy : s'.bsy = s.bsy := by rw [State.bsy, State.bsy, h.phase]
  have habort : (if s.bsy then s.abort else s).AgreeLive (if s'.bsy then s'.abort else s') := by
    rw [hbsy]
    split
    · rw [State.abort_eq, State.abort_eq, h.done]; exact h.emit _
    · exact h
  exact habort.setPhase nofun

/-- Equal draws: the registers RESET leaves unspecified agree too, and are dead besides. -/
theorem State.AgreeLive.applyReset (h : s.AgreeLive s') : s.applyReset.AgreeLive s'.applyReset :=
  { h with
    phase := rfl, cfgv := rfl, done := rfl, fault := rfl, config := nofun, engine := nofun
    pisel := congrArg Params.piselReset h.params
    draws := congrArg (· + 1) h.draws }

theorem State.AgreeLive.misuse (h : s.AgreeLive s') (op : Opcode) :
    (s.misuse op).AgreeLive (s'.misuse op) := by
  unfold State.misuse
  rw [← h.params]
  cases s.params.misusePolicy with
  | checked => exact h.answer _ _
  | fault => exact h.raiseFault _

/-! ### Commands -/

/-- Both outcomes are next states, and these agree. -/
def AgreeNext (o o' : Host.Outcome State Fault Refusal) : Prop :=
  ∃ t t', o = .next t ∧ o' = .next t' ∧ t.AgreeLive t'

theorem State.AgreeLive.exec_init (h : s.AgreeLive s') (br : Half) (con : Byte) (m : Bit) :
    AgreeNext (exec (.init br con m) s) (exec (.init br con m) s') := by
  cases hlegal : frameByteLegal s.params con with
  | false =>
    exact ⟨_, _, exec_init_of_illegal hlegal br m, exec_init_of_illegal (h.params ▸ hlegal) br m,
      h.answer _ _⟩
  | true =>
    refine ⟨_, _, exec_init_of_legal hlegal br m, exec_init_of_legal (h.params ▸ hlegal) br m,
      State.AgreeLive.answer ?_ _ _⟩
    exact { h.toDisabled with cfgv := rfl, config := fun _ => ⟨rfl, rfl, rfl⟩ }

theorem State.AgreeLive.exec_ports (h : s.AgreeLive s') (sel : Byte) :
    AgreeNext (exec (.ports sel) s) (exec (.ports sel) s') := by
  by_cases hdis : s.phase = .disabled
  · refine ⟨_, _, exec_ports_of_disabled hdis sel, exec_ports_of_disabled (h.phase ▸ hdis) sel,
      State.AgreeLive.answer ?_ _ _⟩
    exact { h with pisel := rfl }
  · exact ⟨_, _, exec_ports_of_enabled hdis sel, exec_ports_of_enabled (h.phase ▸ hdis) sel,
      h.misuse _⟩

theorem State.AgreeLive.exec_enable (h : s.AgreeLive s') :
    AgreeNext (exec .enable s) (exec .enable s') := by
  by_cases hdis : s.phase = .disabled
  · have hdis' : s'.phase = .disabled := h.phase ▸ hdis
    cases hcfgv : s.cfgv with
    | false =>
      exact ⟨_, _, exec_enable_of_unconfigured hdis hcfgv,
        exec_enable_of_unconfigured hdis' (h.cfgv ▸ hcfgv), h.answer _ _⟩
    | true =>
      exact ⟨_, _, exec_enable_of_configured hdis hcfgv,
        exec_enable_of_configured hdis' (h.cfgv ▸ hcfgv),
        (h.setPhase (p := .enabledIdle) nofun).answer _ _⟩
  · exact ⟨_, _, exec_enable_of_enabled hdis, exec_enable_of_enabled (h.phase ▸ hdis), h.answer _ _⟩

/-- A TALK that starts a transfer writes every register of the engine, BAUDCNT from the
configuration that the block has when it is enabled. -/
theorem State.AgreeLive.commit_startTransfer (h : s.AgreeLive s') (hcfgv : s.cfgv = true)
    (base : Half) (len : Byte) :
    (s.commit (s.startTransfer base len)).AgreeLive (s'.commit (s'.startTransfer base len)) := by
  cases hread : engineMayRead s.params base.toNat with
  | false =>
    rw [State.startTransfer_of_denied len hread,
      State.startTransfer_of_denied len (h.params ▸ hread)]
    exact h.raiseFault _
  | true =>
    obtain ⟨hbr, hcon, hms⟩ := h.config hcfgv
    rw [State.startTransfer_of_mayRead len hread,
      State.startTransfer_of_mayRead len (h.params ▸ hread), ← h.byteAt, ← hbr, ← h.trace]
    exact { h with
      phase := rfl, done := rfl, response := rfl, trace := rfl
      config := fun _ => ⟨rfl, hcon, hms⟩
      engine := fun _ => ⟨rfl, rfl, rfl, rfl, rfl⟩ }

theorem State.AgreeLive.exec_talk (h : s.AgreeLive s') (hcfgv : s.phase ≠ .disabled → s.cfgv = true)
    (base : Half) (len : Byte) :
    AgreeNext (exec (.talk base len) s) (exec (.talk base len) s') := by
  by_cases hidle : s.phase = .enabledIdle
  · have hidle' : s'.phase = .enabledIdle := h.phase ▸ hidle
    by_cases hlen : len = 0#8
    · subst hlen
      exact ⟨_, _, exec_talk_of_len_zero hidle base, exec_talk_of_len_zero hidle' base,
        h.answer _ _⟩
    · exact ⟨_, _, exec_talk_of_idle hidle base hlen, exec_talk_of_idle hidle' base hlen,
        h.commit_startTransfer (hcfgv (by simp [hidle])) base len⟩
  · exact ⟨_, _, exec_talk_of_not_idle hidle base len,
      exec_talk_of_not_idle (h.phase ▸ hidle) base len, h.misuse _⟩

theorem State.AgreeLive.exec_encodeFrame (h : s.AgreeLive s') (width : BitVec 4) (o ph po d : Bit) :
    AgreeNext (exec (.encodeFrame width o ph po d) s) (exec (.encodeFrame width o ph po d) s') := by
  by_cases hrefused : width.toNat < 2 ∨ 8 < width.toNat
  · exact ⟨_, _, exec_encodeFrame_of_not_width hrefused o ph po d,
      exec_encodeFrame_of_not_width hrefused o ph po d, h.answer _ _⟩
  · exact ⟨_, _, exec_encodeFrame_of_width (by omega) (by omega) o ph po d,
      exec_encodeFrame_of_width (by omega) (by omega) o ph po d, h.params ▸ h.answer _ _⟩

theorem State.AgreeLive.exec_selectPorts (h : s.AgreeLive s') (rst tsr clk : BitVec 2) :
    AgreeNext (exec (.selectPorts rst tsr clk) s) (exec (.selectPorts rst tsr clk) s') := by
  cases hsel : portSelection s.params rst tsr clk with
  | none =>
    exact ⟨_, _, exec_selectPorts_of_none hsel, exec_selectPorts_of_none (h.params ▸ hsel),
      h.answer _ _⟩
  | some sel =>
    exact ⟨_, _, exec_selectPorts_of_some hsel, exec_selectPorts_of_some (h.params ▸ hsel),
      h.answer _ _⟩

theorem State.AgreeLive.exec_encodeBaud (h : s.AgreeLive s') (bps f : BitVec 24) (m : Bit) :
    AgreeNext (exec (.encodeBaud bps f m) s) (exec (.encodeBaud bps f m) s') := by
  have hs' := Machine.exec_encodeBaud bps f m s'
  rw [← h.params] at hs'
  exact ⟨_, _, Machine.exec_encodeBaud bps f m s, hs', h.answer _ _⟩

theorem State.AgreeLive.busyResult (h : s.AgreeLive s') : s.busyResult = s'.busyResult := by
  rw [State.busyResult_eq, State.busyResult_eq, h.phase]

theorem State.AgreeLive.exec (h : s.AgreeLive s') (hcfgv : s.phase ≠ .disabled → s.cfgv = true)
    (i : Instr) : AgreeNext (exec i s) (exec i s') := by
  cases i with
  | init br con m => exact h.exec_init br con m
  | ports sel => exact h.exec_ports sel
  | enable => exact h.exec_enable
  | disable => exact ⟨_, _, rfl, rfl, h.toDisabled.answer _ _⟩
  | talk base len => exact h.exec_talk hcfgv base len
  | busy => exact ⟨_, _, rfl, rfl, h.busyResult ▸ h.answer _ _⟩
  | count => exact ⟨_, _, rfl, rfl, h.done ▸ h.answer _ _⟩
  | encodeBaud bps f m => exact h.exec_encodeBaud bps f m
  | encodeFrame width o ph po d => exact h.exec_encodeFrame width o ph po d
  | selectPorts rst tsr clk => exact h.exec_selectPorts rst tsr clk

/-! ### Events -/

theorem State.AgreeLive.stepCommand (h : s.AgreeLive s')
    (hcfgv : s.phase ≠ .disabled → s.cfgv = true) (w : Word64) :
    AgreeNext (stepCommand w s) (stepCommand w s') := by
  cases hdec : decode w with
  | command i =>
    rw [stepCommand_of_command hdec, stepCommand_of_command hdec]
    exact (h.emit _).exec hcfgv i
  | illegal why =>
    exact ⟨_, _, stepCommand_of_illegal hdec s, stepCommand_of_illegal hdec s',
      (h.emit _).answer _ _⟩

theorem stepInput_tick_of_not_busy (hidle : s.phase ≠ .enabledBusy) (rx : Bool) :
    stepInput (.tick rx) s = .next s := by
  rw [stepInput, onTick_of_not_busy hidle, ite_self]

theorem stepInput_extCell_of_not_busy (hidle : s.phase ≠ .enabledBusy) (rx : Bool) :
    stepInput (.extCell rx) s = .next s := by
  rw [stepInput, onExtCell_of_not_busy hidle, ite_self]

theorem State.races_of_not_busy (hidle : s.phase ≠ .enabledBusy) (a : Half) :
    s.races a = false := by
  simp [State.races, s.bsy_eq_false_iff.mpr hidle]

theorem State.AgreeLive.onHostRead (h : s.AgreeLive s') (hidle : s.phase ≠ .enabledBusy)
    (a : Half) : (onHostRead a s).AgreeLive (onHostRead a s') := by
  rw [onHostRead_of_not_races (State.races_of_not_busy hidle a),
    onHostRead_of_not_races (State.races_of_not_busy (h.phase ▸ hidle) a), h.byteAt]
  refine State.AgreeLive.emit ?_ _
  exact { h with hostData := rfl }

theorem State.AgreeLive.onHostWrite (h : s.AgreeLive s') (hidle : s.phase ≠ .enabledBusy) (a : Half)
    (v : Byte) : (onHostWrite a v s).AgreeLive (onHostWrite a v s') := by
  rw [onHostWrite_of_not_races (State.races_of_not_busy hidle a),
    onHostWrite_of_not_races (State.races_of_not_busy (h.phase ▸ hidle) a)]
  refine State.AgreeLive.emit ?_ _
  exact { h with mem := congrArg (Memory.write · a.toNat v) h.mem }

/-- With no transfer in flight the engine's registers are dead: an engine event does nothing and a
host access reads no bound of a buffer. -/
theorem State.AgreeLive.stepInput_of_not_busy (h : s.AgreeLive s') (hidle : s.phase ≠ .enabledBusy)
    (hcfgv : s.phase ≠ .disabled → s.cfgv = true) (e : Input) :
    AgreeNext (stepInput e s) (stepInput e s') := by
  have hidle' : s'.phase ≠ .enabledBusy := h.phase ▸ hidle
  cases e with
  | command w =>
    cases hf : s.fault with
    | none =>
      rw [stepInput_command hf, stepInput_command (h.fault ▸ hf)]
      exact h.stepCommand hcfgv w
    | some f =>
      exact ⟨_, _, stepInput_command_of_fault hf w, stepInput_command_of_fault (h.fault ▸ hf) w, h⟩
  | hostRead a => exact ⟨_, _, rfl, rfl, h.onHostRead hidle a⟩
  | hostWrite a v => exact ⟨_, _, rfl, rfl, h.onHostWrite hidle a v⟩
  | tick rx =>
    exact ⟨_, _, stepInput_tick_of_not_busy hidle rx, stepInput_tick_of_not_busy hidle' rx, h⟩
  | extCell rx =>
    exact ⟨_, _, stepInput_extCell_of_not_busy hidle rx, stepInput_extCell_of_not_busy hidle' rx, h⟩
  | reset => exact ⟨_, _, rfl, rfl, h.applyReset⟩

theorem State.AgreeLive.step_of_not_busy (h : s.AgreeLive s') (hidle : s.phase ≠ .enabledBusy)
    (hcfgv : s.phase ≠ .disabled → s.cfgv = true) : AgreeNext (step s) (step s') := by
  cases hin : s.inputs with
  | nil =>
    exact ⟨_, _, step_of_inputs_nil hin, step_of_inputs_nil (h.inputs ▸ hin), h⟩
  | cons e rest =>
    rw [step_of_inputs_cons hin, step_of_inputs_cons (h.inputs ▸ hin)]
    exact (h.takeInput rest).stepInput_of_not_busy hidle hcfgv e

end

/-- Settles O56: with a transfer in flight the two blocks are one; with none, each way of the step
reads no dead register. -/
theorem noUnspecifiedValueRead : Obligations.NoUnspecifiedValueRead := by
  intro s s' t hcfgv h ht
  by_cases hbusy : s.phase = .enabledBusy
  · obtain rfl := h.eq_of_busy hbusy (hcfgv (by simp [hbusy]))
    exact ⟨t, ht, State.AgreeLive.refl t⟩
  · obtain ⟨u, t', hu, ht', hagree⟩ := h.step_of_not_busy hbusy hcfgv
    obtain rfl := Host.Outcome.next.inj (hu.symm.trans ht)
    exact ⟨t', ht', hagree⟩

end Sys2Proof.Machine
end
